-- ==== Sys2Proof/Word.lean ====
section
/-! DEFINITION. The widths the spec works in. Quantities inside a rule are unbounded naturals (R8); a bit vector
appears only where the spec gives a register or field a width. -/

namespace Sys2Proof

/-- One 8-bit value of a byte string or buffer (R7). -/
abbrev Byte := BitVec 8

/-- A 64-bit register of the `REG` space (R45). -/
abbrev Word := BitVec 64

/-- A stored VarInt value: 62 bits (R39, R90). -/
abbrev VarVal := BitVec 62

/-- A stored buffer offset or length: 32 bits (R32, R60). -/
abbrev Off := BitVec 32

end Sys2Proof
end

