-- ==== Sys2Proof/Config.lean ====
section
/-! DEFINITION. The parameters of the block (R5), its FIXED values, and the free values: what the spec leaves to
"any value" (93_implementation_defined.md, I3). -/

namespace Sys2Proof

/-- Where Crypto and Stream frame data sit (R5, `DATA_LAYOUT`). This hardware is `offsetRelative`; `immediate` is
the alternative reading the spec writes out so that a model can quantify over it (90_conflicts.md C2). -/
inductive DataLayout where
  | offsetRelative
  | immediate
deriving DecidableEq, Repr

/-- The OPEN parameters of R5. They stand in the state as data that no step changes, so that a statement about every
state is a statement about every choice of them. -/
structure Params where
  /-- `N_LANES`, at least 1. -/
  nLanes : Nat
  /-- `IBUF_CAP`: at least 1, at most 2^32 - 1. -/
  ibufCap : Fin 4294967296
  /-- `PBUF_CAP`: at most 2^32 - 1. -/
  pbufCap : Fin 4294967296
  /-- `ACK_RANGE_CAP`: a natural number, or `none` for `INF`. -/
  ackCap : Option Nat
  /-- `DATA_LAYOUT`. -/
  layout : DataLayout
deriving DecidableEq, Repr

/-- The bounds R5 puts on the parameters that the types above do not. -/
def Params.wf (p : Params) : Bool := decide (1 ≤ p.nLanes) && decide (1 ≤ p.ibufCap.val)

namespace Config

/-- DESIGN CHOICE (log entry 2, unsafe): the parameter values of the one machine `State.reset` is. The spec leaves
them OPEN; no statement rests on them. -/
def chosen : Params :=
  { nLanes := 1, ibufCap := 65536, pbufCap := 65536, ackCap := none, layout := .offsetRelative }

/-- `MAX_CID_LEN`, FIXED (R5). -/
def maxCidLen : Nat := 20

/-- `RETRY_TAG_LEN`, FIXED (R5). -/
def retryTagLen : Nat := 16

/-- One more than `VARINT_MAX`, FIXED (R5): 2^62. -/
def varintBound : Nat := 4611686018427387904

/-- A free byte: what a host read returns from `IBUF` where nothing was written, or from `PBUF` at or above
`PBUF_LEN` (I3, `any value`). -/
opaque freeByte : Nat → Byte

/-- A free 62-bit value: what a host read returns from an `ACKR` entry at or above `FRM.NRANGES` (I3, `any value`). -/
opaque freeRange : Nat → VarVal

end Config
end Sys2Proof
end

