-- ==== Sys2Proof/Syntax.lean ====
section
/-! DEFINITION. The instructions: one constructor per row of spec/opcode_table.json. The table has three formats.
`CMD` rows are selected by the low byte of a write to `CMD` (R110). `PKT_B0` rows are selected inside `PKT_PARSE` by
the first header byte and the version (R99). `FRAME_TYPE` rows are selected inside `FRM_ONE` and `FSEQ_NEXT` by the
decoded frame type (R101). An operand is a field of the bytes that select the row. -/

namespace Sys2Proof

/-- One row of the opcode table, with the fields its encoding leaves open. -/
inductive Instr where
  /-- `NOP`, opcode 0x00 (R121). -/
  | nop
  /-- `VARINT_DEC`, opcode 0x01 (R123). -/
  | varintDec
  /-- `VARINT_ENC`, opcode 0x02 (R127). -/
  | varintEnc
  /-- `CID_DEC`, opcode 0x03 (R129). -/
  | cidDec
  /-- `PN_DEC`, opcode 0x04 (R132). -/
  | pnDec
  /-- `PKT_PARSE`, opcode 0x05 (R150). -/
  | pktParse
  /-- `FRM_ONE`, opcode 0x06 (R192). -/
  | frmOne
  /-- `FSEQ_BEGIN`, opcode 0x07 (R193). -/
  | fseqBegin
  /-- `FSEQ_NEXT`, opcode 0x08 (R194). -/
  | fseqNext
  /-- `CLEAR`, opcode 0x09 (R133). -/
  | clear
  /-- Reserved opcodes 0x0A and 0x0B (R134): opcode bit 0. -/
  | reserved0A (low : BitVec 1)
  /-- Reserved opcodes 0x0C to 0x0F (R134): opcode bits 1:0. -/
  | reserved0C (low : BitVec 2)
  /-- Reserved opcodes 0x10 to 0x1F (R134): opcode bits 3:0. -/
  | reserved10 (low : BitVec 4)
  /-- Reserved opcodes 0x20 to 0x3F (R134): opcode bits 4:0. -/
  | reserved20 (low : BitVec 5)
  /-- Reserved opcodes 0x40 to 0x7F (R134): opcode bits 5:0. -/
  | reserved40 (low : BitVec 6)
  /-- Reserved opcodes 0x80 to 0xFF (R134): opcode bits 6:0. -/
  | reserved80 (low : BitVec 7)
  /-- OneRtt, short header (R95, R165): fixed bit, spin, reserved bits, key phase, packet number length minus 1. -/
  | pktOneRtt (fixed spin : BitVec 1) (rsv : BitVec 2) (keyPhase : BitVec 1) (pnl : BitVec 2)
  /-- VersionNegotiation: a long header whose version is 0 (R156, R158); bits 6:0 of the first byte are ignored. -/
  | pktVersionNegotiation (low : BitVec 7)
  /-- Initial (R94, R159): fixed bit, reserved bits, packet number length minus 1, and the version (not 0). -/
  | pktInitial (fixed : BitVec 1) (rsv pnl : BitVec 2) (ver : BitVec 32)
  /-- ZeroRTT (R94, R161). -/
  | pktZeroRtt (fixed : BitVec 1) (rsv pnl : BitVec 2) (ver : BitVec 32)
  /-- Handshake (R94, R162). -/
  | pktHandshake (fixed : BitVec 1) (rsv pnl : BitVec 2) (ver : BitVec 32)
  /-- Retry (R94, R163); its packet number length bits are ignored. -/
  | pktRetry (fixed : BitVec 1) (rsv pnl : BitVec 2) (ver : BitVec 32)
  /-- Padding, type 0x00 (R197). -/
  | frmPadding
  /-- Ping, type 0x01 (R198). -/
  | frmPing
  /-- Ack, type 0x02 (R199). -/
  | frmAck
  /-- Ack with ECN, type 0x03 (R200). -/
  | frmAckEcn
  /-- ResetStream, type 0x04 (R201). -/
  | frmResetStream
  /-- StopSending, type 0x05 (R202). -/
  | frmStopSending
  /-- Crypto, type 0x06 (R203). -/
  | frmCrypto
  /-- NewToken, type 0x07 (R204). -/
  | frmNewToken
  /-- Stream, types 0x08 to 0x0f (R102, R205): the OFF, LEN and FIN bits of the type. -/
  | frmStream (off len fin : BitVec 1)
  /-- MaxData, type 0x10 (R206). -/
  | frmMaxData
  /-- MaxStreamData, type 0x11 (R207). -/
  | frmMaxStreamData
  /-- MaxStreams, types 0x12 and 0x13 (R208): type bit 0. -/
  | frmMaxStreams (low : BitVec 1)
  /-- DataBlocked, type 0x14 (R209). -/
  | frmDataBlocked
  /-- StreamDataBlocked, type 0x15 (R210). -/
  | frmStreamDataBlocked
  /-- StreamsBlocked, types 0x16 and 0x17 (R211): type bit 0. -/
  | frmStreamsBlocked (low : BitVec 1)
  /-- NewConnectionId, type 0x18 (R212). -/
  | frmNewConnectionId
  /-- RetireConnectionId, type 0x19 (R213). -/
  | frmRetireConnectionId
  /-- PathChallenge, type 0x1a (R214). -/
  | frmPathChallenge
  /-- PathResponse, type 0x1b (R215). -/
  | frmPathResponse
  /-- ConnectionClose of the QUIC layer, type 0x1c (R216). -/
  | frmConnectionCloseQuic
  /-- ConnectionClose of the application, type 0x1d (R217). -/
  | frmConnectionCloseApp
  /-- HandshakeDone, type 0x1e (R218). -/
  | frmHandshakeDone
  /-- Any other type (R219): the type's value, above 0x1e. -/
  | frmUnknown (typ : VarVal)
deriving DecidableEq, Repr

end Sys2Proof
end

