-- ==== Sys2Proof/WellFormed.lean ====
section
/-! DEFINITION. Which terms of `Instr` stand for a row of the table: the operands whose types allow more than the
row does. -/

namespace Sys2Proof

/-- The four long-header rows other than VersionNegotiation apply only to a version that is not 0 (R99, R157), and
the unknown frame row only to a type above 0x1e (R219). Every other operand may take any value of its type. -/
def Instr.wellFormed : Instr → Bool
  | .pktInitial _ _ _ ver => decide (ver ≠ 0#32)
  | .pktZeroRtt _ _ _ ver => decide (ver ≠ 0#32)
  | .pktHandshake _ _ _ ver => decide (ver ≠ 0#32)
  | .pktRetry _ _ _ ver => decide (ver ≠ 0#32)
  | .frmUnknown typ => decide (0x1e < typ.toNat)
  | .nop => true
  | .varintDec => true
  | .varintEnc => true
  | .cidDec => true
  | .pnDec => true
  | .pktParse => true
  | .frmOne => true
  | .fseqBegin => true
  | .fseqNext => true
  | .clear => true
  | .reserved0A _ => true
  | .reserved0C _ => true
  | .reserved10 _ => true
  | .reserved20 _ => true
  | .reserved40 _ => true
  | .reserved80 _ => true
  | .pktOneRtt _ _ _ _ _ => true
  | .pktVersionNegotiation _ => true
  | .frmPadding => true
  | .frmPing => true
  | .frmAck => true
  | .frmAckEcn => true
  | .frmResetStream => true
  | .frmStopSending => true
  | .frmCrypto => true
  | .frmNewToken => true
  | .frmStream _ _ _ => true
  | .frmMaxData => true
  | .frmMaxStreamData => true
  | .frmMaxStreams _ => true
  | .frmDataBlocked => true
  | .frmStreamDataBlocked => true
  | .frmStreamsBlocked _ => true
  | .frmNewConnectionId => true
  | .frmRetireConnectionId => true
  | .frmPathChallenge => true
  | .frmPathResponse => true
  | .frmConnectionCloseQuic => true
  | .frmConnectionCloseApp => true
  | .frmHandshakeDone => true

end Sys2Proof
end

