-- ==== Sys2Proof/Decode.lean ====
section
/-! DEFINITION. The decoder and, after it, the encoder. The decoder is total on any bytes: it reads one row of the
opcode table from the bytes that select it, or refuses by name when there are too few of them. The machine reads
its commands, header kinds and frame types through the three field decoders of this file, and its VarInts through
the byte arithmetic of this file. -/

namespace Sys2Proof

/-! ### Byte strings as numbers (R7) -/

/-- `be(s)`: the unsigned big-endian value of a byte string (R7, R63). -/
def beNat (bs : List Byte) : Nat := bs.foldl (fun acc b => acc * 256 + b.toNat) 0

/-- `bytes_be(v, n)`: the `n`-byte string whose `be` is `v`, for `v < 2^(8n)` (R7). -/
def bytesBE (v : Nat) : Nat → List Byte
  | 0 => []
  | n + 1 => bytesBE (v / 256) n ++ [BitVec.ofNat 8 v]

/-! ### The VarInt format (R90) -/

/-- The length class: the top two bits of the first byte (R90). -/
def varintClass (b0 : Byte) : Nat := (b0.extractLsb' 6 2).toNat

/-- The total length selected by the first byte: 1, 2, 4 or 8 bytes (R90). -/
def varintSize (b0 : Byte) : Nat := 2 ^ varintClass b0

/-- The value of a VarInt from its first byte and the bytes after it (R90, R122). -/
def varintValue (b0 : Byte) (rest : List Byte) : Nat := beNat ((b0 &&& 0x3F#8) :: rest)

/-- Whether class `c` can hold `v`: 6, 14, 30 or 62 value bits (R126). -/
def varintFits (c v : Nat) : Bool := decide (v < 2 ^ (8 * 2 ^ c - 2))

/-- The least class that fits `v`, for `v < 2^62` (R126). -/
def varintLeastClass (v : Nat) : Nat :=
  if varintFits 0 v then 0 else if varintFits 1 v then 1 else if varintFits 2 v then 2 else 3

/-- The bytes of `v` in class `c`: `bytes_be(v, 2^c)` with the class in the top bits of the first byte (R126). -/
def varintBytes (c v : Nat) : List Byte :=
  match bytesBE v (2 ^ c) with
  | [] => []
  | b :: bs => (b ||| BitVec.ofNat 8 (c * 64)) :: bs

/-! ### The three field decoders -/

/-- The command selected by an opcode (R110). Every opcode selects a row. -/
def decodeOpcode (op : Byte) : Instr :=
  match op.toNat with
  | 0 => .nop
  | 1 => .varintDec
  | 2 => .varintEnc
  | 3 => .cidDec
  | 4 => .pnDec
  | 5 => .pktParse
  | 6 => .frmOne
  | 7 => .fseqBegin
  | 8 => .fseqNext
  | 9 => .clear
  | n =>
    if n < 0x0C then .reserved0A (op.extractLsb' 0 1)
    else if n < 0x10 then .reserved0C (op.extractLsb' 0 2)
    else if n < 0x20 then .reserved10 (op.extractLsb' 0 4)
    else if n < 0x40 then .reserved20 (op.extractLsb' 0 5)
    else if n < 0x80 then .reserved40 (op.extractLsb' 0 6)
    else .reserved80 (op.extractLsb' 0 7)

/-- The command a write of `w` to `CMD` issues: its low byte, bits 63:8 ignored (R23, R68, R110). -/
def decodeCommand (w : Word) : Instr := decodeOpcode (w.extractLsb' 0 8)

/-- Whether a first header byte announces a long header (R94, R95, R152). -/
def isLongHeader (b0 : Byte) : Bool := b0.getLsbD 7

/-- The short-header row, the only one with `b0[7] = 0` (R95, R153). -/
def decodeShortHeader (b0 : Byte) : Instr :=
  .pktOneRtt (b0.extractLsb' 6 1) (b0.extractLsb' 5 1) (b0.extractLsb' 3 2) (b0.extractLsb' 2 1) (b0.extractLsb' 0 2)

/-- The long-header row: VersionNegotiation when the version is 0, whatever the type bits (R156), else by
`b0[5:4]` (R94, R154, R157). -/
def decodeLongHeader (b0 : Byte) (ver : BitVec 32) : Instr :=
  if ver = 0#32 then .pktVersionNegotiation (b0.extractLsb' 0 7)
  else
    let fixed := b0.extractLsb' 6 1
    let rsv := b0.extractLsb' 2 2
    let pnl := b0.extractLsb' 0 2
    match (b0.extractLsb' 4 2).toNat with
    | 0 => .pktInitial fixed rsv pnl ver
    | 1 => .pktZeroRtt fixed rsv pnl ver
    | 2 => .pktHandshake fixed rsv pnl ver
    | _ => .pktRetry fixed rsv pnl ver

/-- The frame row selected by a decoded type value (R101, R191). -/
def decodeFrameType (t : VarVal) : Instr :=
  match t.toNat with
  | 0x00 => .frmPadding
  | 0x01 => .frmPing
  | 0x02 => .frmAck
  | 0x03 => .frmAckEcn
  | 0x04 => .frmResetStream
  | 0x05 => .frmStopSending
  | 0x06 => .frmCrypto
  | 0x07 => .frmNewToken
  | 0x08 | 0x09 | 0x0a | 0x0b | 0x0c | 0x0d | 0x0e | 0x0f =>
    .frmStream (t.extractLsb' 2 1) (t.extractLsb' 1 1) (t.extractLsb' 0 1)
  | 0x10 => .frmMaxData
  | 0x11 => .frmMaxStreamData
  | 0x12 | 0x13 => .frmMaxStreams (t.extractLsb' 0 1)
  | 0x14 => .frmDataBlocked
  | 0x15 => .frmStreamDataBlocked
  | 0x16 | 0x17 => .frmStreamsBlocked (t.extractLsb' 0 1)
  | 0x18 => .frmNewConnectionId
  | 0x19 => .frmRetireConnectionId
  | 0x1a => .frmPathChallenge
  | 0x1b => .frmPathResponse
  | 0x1c => .frmConnectionCloseQuic
  | 0x1d => .frmConnectionCloseApp
  | 0x1e => .frmHandshakeDone
  | _ => .frmUnknown t

/-! ### The decoder on bytes -/

/-- The three formats of the opcode table. -/
inductive Space where
  /-- `CMD`: the low byte of a write to `CMD` (R110). -/
  | command
  /-- `PKT_B0`: the first header byte and, for a long header, the four version bytes after it (R99). -/
  | header
  /-- `FRAME_TYPE`: the VarInt type of a frame (R101). -/
  | frame
deriving DecidableEq, Repr

/-- Why the decoder refuses a byte string: it ends too early. No complete encoding is refused. -/
inductive DecodeError where
  /-- No opcode byte. -/
  | noOpcode
  /-- No first header byte (R152). -/
  | noHeader
  /-- Fewer than four version bytes after the first byte of a long header (R155). -/
  | shortVersion
  /-- The type VarInt is missing or shorter than its class (R122). -/
  | shortType
deriving DecidableEq, Repr

/-- One VarInt from the front of a byte string: its value and the bytes after it (R122). -/
def decodeVarIntBytes : List Byte → Option (Nat × List Byte)
  | [] => none
  | b0 :: bs =>
    if bs.length < varintSize b0 - 1 then none
    else some (varintValue b0 (bs.take (varintSize b0 - 1)), bs.drop (varintSize b0 - 1))

/-- The row at the front of a byte string of the given format, and the bytes after the ones that select it. -/
def decode : Space → List Byte → Except DecodeError (Instr × List Byte)
  | .command, [] => .error .noOpcode
  | .command, op :: bs => .ok (decodeOpcode op, bs)
  | .header, [] => .error .noHeader
  | .header, b0 :: bs =>
    if isLongHeader b0 then
      if bs.length < 4 then .error .shortVersion
      else .ok (decodeLongHeader b0 (BitVec.ofNat 32 (beNat (bs.take 4))), bs.drop 4)
    else .ok (decodeShortHeader b0, bs)
  | .frame, bs =>
    match decodeVarIntBytes bs with
    | none => .error .shortType
    | some (v, rest) => .ok (decodeFrameType (BitVec.ofNat 62 v), rest)

/-! ### The encoder -/

/-- The opcode of a `CMD` row (R110), 0x00 for the rows of the other formats. -/
def opcodeOf : Instr → Byte
  | .varintDec => 0x01
  | .varintEnc => 0x02
  | .cidDec => 0x03
  | .pnDec => 0x04
  | .pktParse => 0x05
  | .frmOne => 0x06
  | .fseqBegin => 0x07
  | .fseqNext => 0x08
  | .clear => 0x09
  | .reserved0A low => 0b0000101#7 ++ low
  | .reserved0C low => 0b000011#6 ++ low
  | .reserved10 low => 0b0001#4 ++ low
  | .reserved20 low => 0b001#3 ++ low
  | .reserved40 low => 0b01#2 ++ low
  | .reserved80 low => 0b1#1 ++ low
  | _ => 0x00

/-- The first byte of a long header (R94). -/
def longHeaderByte (fixed : BitVec 1) (ty rsv pnl : BitVec 2) : Byte := 0b1#1 ++ fixed ++ ty ++ rsv ++ pnl

/-- The first byte of a short header (R95). -/
def shortHeaderByte (fixed spin : BitVec 1) (rsv : BitVec 2) (keyPhase : BitVec 1) (pnl : BitVec 2) : Byte :=
  0b0#1 ++ fixed ++ spin ++ rsv ++ keyPhase ++ pnl

/-- The first header byte of a `PKT_B0` row (R94, R95), 0x00 for the rows of the other formats. -/
def headerByteOf : Instr → Byte
  | .pktOneRtt fixed spin rsv keyPhase pnl => shortHeaderByte fixed spin rsv keyPhase pnl
  | .pktVersionNegotiation low => 0b1#1 ++ low
  | .pktInitial fixed rsv pnl _ => longHeaderByte fixed 0b00#2 rsv pnl
  | .pktZeroRtt fixed rsv pnl _ => longHeaderByte fixed 0b01#2 rsv pnl
  | .pktHandshake fixed rsv pnl _ => longHeaderByte fixed 0b10#2 rsv pnl
  | .pktRetry fixed rsv pnl _ => longHeaderByte fixed 0b11#2 rsv pnl
  | _ => 0x00

/-- The type value of a `FRAME_TYPE` row (R101, R102), 0 for the rows of the other formats. -/
def frameTypeOf : Instr → VarVal
  | .frmPing => 0x01
  | .frmAck => 0x02
  | .frmAckEcn => 0x03
  | .frmResetStream => 0x04
  | .frmStopSending => 0x05
  | .frmCrypto => 0x06
  | .frmNewToken => 0x07
  | .frmStream off len fin => 1#59 ++ off ++ len ++ fin
  | .frmMaxData => 0x10
  | .frmMaxStreamData => 0x11
  | .frmMaxStreams low => 0b1001#61 ++ low
  | .frmDataBlocked => 0x14
  | .frmStreamDataBlocked => 0x15
  | .frmStreamsBlocked low => 0b1011#61 ++ low
  | .frmNewConnectionId => 0x18
  | .frmRetireConnectionId => 0x19
  | .frmPathChallenge => 0x1a
  | .frmPathResponse => 0x1b
  | .frmConnectionCloseQuic => 0x1c
  | .frmConnectionCloseApp => 0x1d
  | .frmHandshakeDone => 0x1e
  | .frmUnknown typ => typ
  | _ => 0x00

/-- The format of a row. -/
def spaceOf : Instr → Space
  | .nop | .varintDec | .varintEnc | .cidDec | .pnDec | .pktParse | .frmOne | .fseqBegin | .fseqNext | .clear
  | .reserved0A _ | .reserved0C _ | .reserved10 _ | .reserved20 _ | .reserved40 _ | .reserved80 _ => .command
  | .pktOneRtt _ _ _ _ _ | .pktVersionNegotiation _ | .pktInitial _ _ _ _ | .pktZeroRtt _ _ _ _
  | .pktHandshake _ _ _ _ | .pktRetry _ _ _ _ => .header
  | .frmPadding | .frmPing | .frmAck | .frmAckEcn | .frmResetStream | .frmStopSending | .frmCrypto | .frmNewToken
  | .frmStream _ _ _ | .frmMaxData | .frmMaxStreamData | .frmMaxStreams _ | .frmDataBlocked | .frmStreamDataBlocked
  | .frmStreamsBlocked _ | .frmNewConnectionId | .frmRetireConnectionId | .frmPathChallenge | .frmPathResponse
  | .frmConnectionCloseQuic | .frmConnectionCloseApp | .frmHandshakeDone | .frmUnknown _ => .frame

/-- The version a long-header row was selected with: 0 for VersionNegotiation (R99). -/
def versionOf : Instr → BitVec 32
  | .pktInitial _ _ _ ver => ver
  | .pktZeroRtt _ _ _ ver => ver
  | .pktHandshake _ _ _ ver => ver
  | .pktRetry _ _ _ ver => ver
  | _ => 0

/-- The bytes of a well-formed instruction: the opcode byte; the first header byte and, for a long header, the
version; the type in its minimal VarInt class (R90 to R103, R110). -/
def encode (i : Instr) : List Byte :=
  match spaceOf i with
  | .command => [opcodeOf i]
  | .header =>
    if isLongHeader (headerByteOf i) then headerByteOf i :: bytesBE (versionOf i).toNat 4 else [headerByteOf i]
  | .frame => varintBytes (varintLeastClass (frameTypeOf i).toNat) (frameTypeOf i).toNat

/-! ### The rows as masks, and the words of the table -/

/-- A row of the table as the spec prints it: a word of the row's format belongs to it when the word and the mask
give the pattern. -/
structure Row where
  /-- The row's format. -/
  space : Space
  /-- `mask`. -/
  mask : Nat
  /-- `match`. -/
  pat : Nat
deriving DecidableEq, Repr

/-- The row of each constructor (R99, R101, R110). -/
def rowOf : Instr → Row
  | .nop => ⟨.command, 0xFF, 0x00⟩
  | .varintDec => ⟨.command, 0xFF, 0x01⟩
  | .varintEnc => ⟨.command, 0xFF, 0x02⟩
  | .cidDec => ⟨.command, 0xFF, 0x03⟩
  | .pnDec => ⟨.command, 0xFF, 0x04⟩
  | .pktParse => ⟨.command, 0xFF, 0x05⟩
  | .frmOne => ⟨.command, 0xFF, 0x06⟩
  | .fseqBegin => ⟨.command, 0xFF, 0x07⟩
  | .fseqNext => ⟨.command, 0xFF, 0x08⟩
  | .clear => ⟨.command, 0xFF, 0x09⟩
  | .reserved0A _ => ⟨.command, 0xFE, 0x0A⟩
  | .reserved0C _ => ⟨.command, 0xFC, 0x0C⟩
  | .reserved10 _ => ⟨.command, 0xF0, 0x10⟩
  | .reserved20 _ => ⟨.command, 0xE0, 0x20⟩
  | .reserved40 _ => ⟨.command, 0xC0, 0x40⟩
  | .reserved80 _ => ⟨.command, 0x80, 0x80⟩
  | .pktOneRtt _ _ _ _ _ => ⟨.header, 0x80, 0x00⟩
  | .pktVersionNegotiation _ => ⟨.header, 0x80, 0x80⟩
  | .pktInitial _ _ _ _ => ⟨.header, 0xB0, 0x80⟩
  | .pktZeroRtt _ _ _ _ => ⟨.header, 0xB0, 0x90⟩
  | .pktHandshake _ _ _ _ => ⟨.header, 0xB0, 0xA0⟩
  | .pktRetry _ _ _ _ => ⟨.header, 0xB0, 0xB0⟩
  | .frmPadding => ⟨.frame, 0x3FFFFFFFFFFFFFFF, 0x00⟩
  | .frmPing => ⟨.frame, 0x3FFFFFFFFFFFFFFF, 0x01⟩
  | .frmAck => ⟨.frame, 0x3FFFFFFFFFFFFFFF, 0x02⟩
  | .frmAckEcn => ⟨.frame, 0x3FFFFFFFFFFFFFFF, 0x03⟩
  | .frmResetStream => ⟨.frame, 0x3FFFFFFFFFFFFFFF, 0x04⟩
  | .frmStopSending => ⟨.frame, 0x3FFFFFFFFFFFFFFF, 0x05⟩
  | .frmCrypto => ⟨.frame, 0x3FFFFFFFFFFFFFFF, 0x06⟩
  | .frmNewToken => ⟨.frame, 0x3FFFFFFFFFFFFFFF, 0x07⟩
  | .frmStream _ _ _ => ⟨.frame, 0x3FFFFFFFFFFFFFF8, 0x08⟩
  | .frmMaxData => ⟨.frame, 0x3FFFFFFFFFFFFFFF, 0x10⟩
  | .frmMaxStreamData => ⟨.frame, 0x3FFFFFFFFFFFFFFF, 0x11⟩
  | .frmMaxStreams _ => ⟨.frame, 0x3FFFFFFFFFFFFFFE, 0x12⟩
  | .frmDataBlocked => ⟨.frame, 0x3FFFFFFFFFFFFFFF, 0x14⟩
  | .frmStreamDataBlocked => ⟨.frame, 0x3FFFFFFFFFFFFFFF, 0x15⟩
  | .frmStreamsBlocked _ => ⟨.frame, 0x3FFFFFFFFFFFFFFE, 0x16⟩
  | .frmNewConnectionId => ⟨.frame, 0x3FFFFFFFFFFFFFFF, 0x18⟩
  | .frmRetireConnectionId => ⟨.frame, 0x3FFFFFFFFFFFFFFF, 0x19⟩
  | .frmPathChallenge => ⟨.frame, 0x3FFFFFFFFFFFFFFF, 0x1A⟩
  | .frmPathResponse => ⟨.frame, 0x3FFFFFFFFFFFFFFF, 0x1B⟩
  | .frmConnectionCloseQuic => ⟨.frame, 0x3FFFFFFFFFFFFFFF, 0x1C⟩
  | .frmConnectionCloseApp => ⟨.frame, 0x3FFFFFFFFFFFFFFF, 0x1D⟩
  | .frmHandshakeDone => ⟨.frame, 0x3FFFFFFFFFFFFFFF, 0x1E⟩
  | .frmUnknown _ => ⟨.frame, 0x00, 0x00⟩

/-- The bits of a row's selecting field: the opcode, the first header byte or the type value. -/
def fieldOf (i : Instr) : Nat :=
  match spaceOf i with
  | .command => (opcodeOf i).toNat
  | .header => (headerByteOf i).toNat
  | .frame => (frameTypeOf i).toNat

/-- The bytes of a `FRAME_TYPE` word: the 62-bit value in the widest VarInt class (R90). -/
def frameWordBytes (w : Nat) : List Byte := varintBytes 3 (w % Config.varintBound)

/-- The decoder on a word numbered as the opcode table numbers it. An 8-bit word is an opcode: the `PKT_B0` rows
have 8-bit words too, and every one of them is also an opcode (log entry 10). A word of 57 to 64 bits is a
`FRAME_TYPE` value, laid out as a VarInt. -/
def decodeTableWord (nbits w : Nat) : Option Instr :=
  if nbits ≤ 8 then
    match decode .command [BitVec.ofNat 8 w] with
    | .ok (i, _) => some i
    | .error _ => none
  else if 56 < nbits ∧ nbits ≤ 64 then
    match decode .frame (frameWordBytes w) with
    | .ok (i, _) => some i
    | .error _ => none
  else none

end Sys2Proof
end

