-- ==== Sys2Proof/Machine/State.lean ====
section
/-! DEFINITION. The state of the block: lanes with every register, record, buffer and hidden field of 10_state.md,
the events the environment has pending, the model fault and the refusals with the marks they leave, and the state after
reset (R270). Log entries 1, 2, 4, 5, 6, 7, 13, 14 and 15 say what of it is the model's own. -/

namespace Sys2Proof.Machine

/-! ### Codes -/

/-- A buffer selector: `PAY.SRC`, `FBUF`, `ERR.POSBUF` and the `sel` of a slice (R7, R26, R35, R37). -/
inductive BufSel where
  | none
  | ibuf
  | pbuf
deriving DecidableEq, Repr

/-- `STATUS.ST` (R24, R25). -/
inductive St where
  | idle
  | busy
  | done
  | error
deriving DecidableEq, Repr

/-- `STATUS.FSTATE` (R24, R37). -/
inductive FState where
  | inactive
  | active
  | ended
  | failed
deriving DecidableEq, Repr

/-- `STATUS.FRES` (R24, R38). -/
inductive FRes where
  | none
  | frame
  | ended
  | error
deriving DecidableEq, Repr

/-- The causes of an architected error: one for each row of the subcode table (R242). -/
inductive ErrCause where
  | varintEof
  | cidLenEof
  | cidTooLong
  | cidEof
  | pnEof
  | hdrEof
  | versionEof
  | tokenTooLong
  | retryTooShort
  | vnTrailer
  | fixedEof
  | dataEof
  | unknownFrameType
  | decryptFailed
  | ackRanges
  | plaintext
  | unknownCmd
  | badArg
  | wrongState
  | badCursor
deriving DecidableEq, Repr

/-- The `ERR` register (R26): 0 after a commit, or the cause (its `KIND` and `SUB`), `POS` and `POSBUF`. -/
inductive ErrReg where
  | clear
  | raised (cause : ErrCause) (pos : Off) (buf : BufSel)
deriving DecidableEq, Repr

/-- `PKT.KIND` (R33). -/
inductive PktKind where
  | none
  | vn
  | initial
  | zeroRtt
  | handshake
  | retry
  | oneRtt
deriving DecidableEq, Repr

/-- `FRM.KIND` (R40). -/
inductive FrmKind where
  | none
  | padding
  | ping
  | ack
  | resetStream
  | stopSending
  | crypto
  | newToken
  | stream
  | maxData
  | maxStreamData
  | maxStreams
  | dataBlocked
  | streamDataBlocked
  | streamsBlocked
  | newConnectionId
  | retireConnectionId
  | pathChallenge
  | pathResponse
  | connectionClose
  | handshakeDone
deriving DecidableEq, Repr

/-- The key epoch of a Crypto request (R74, R169). -/
inductive Epoch where
  | initial
  | zeroRtt
  | handshake
  | oneRtt
deriving DecidableEq, Repr

/-! ### Records -/

/-- Memory: the bytes that have been written, by address, in strictly rising order. A byte not listed has not been
written: for `IBUF` being listed is its `WRITTEN` flag (R44; log entry 4). -/
abbrev Mem := List Host.Cell

/-- A CID register (R29): a length of 0 to 20 and 20 bytes. -/
structure Cid where
  len : BitVec 5
  b : List Byte
deriving DecidableEq, Repr

/-- The CID register holding the empty connection ID. -/
def Cid.zero : Cid := { len := 0, b := List.replicate 20 0 }

/-- A start and a length or count: `TOKEN` and `VNLIST`, whose buffer is `IBUF` (R32). -/
structure Span where
  start : Off
  len : Off
deriving DecidableEq, Repr

/-- The zero start and length. -/
def Span.zero : Span := { start := 0, len := 0 }

/-- A slice: the bytes `start .. start+len-1` of the buffer `sel` (R7). -/
structure Slice where
  sel : BufSel
  start : Off
  len : Off
deriving DecidableEq, Repr

/-- The slice of no buffer. -/
def Slice.zero : Slice := { sel := .none, start := 0, len := 0 }

/-- The packet record `PKT` (R32). -/
structure Pkt where
  kind : PktKind
  /-- `FORM`: 1 for a long header. -/
  form : BitVec 1
  byte0 : Byte
  spin : BitVec 1
  keyPhase : BitVec 1
  pnLen : BitVec 3
  version : BitVec 32
  dcid : Cid
  scid : Cid
  token : Span
  /-- `LENGTH`, the VarInt length field (R160). -/
  length : VarVal
  pn : BitVec 32
  tag : BitVec 128
  vnlist : Span
  hdrEnd : Off
deriving DecidableEq, Repr

/-- `PKT` with all fields 0. -/
def Pkt.zero : Pkt :=
  { kind := .none, form := 0, byte0 := 0, spin := 0, keyPhase := 0, pnLen := 0, version := 0, dcid := Cid.zero,
    scid := Cid.zero, token := Span.zero, length := 0, pn := 0, tag := 0, vnlist := Span.zero, hdrEnd := 0 }

/-- One entry of the ACK range file: a `(gap, range_length)` pair (R42). -/
structure AckRange where
  gap : VarVal
  rlen : VarVal
deriving DecidableEq, Repr

/-- The frame record `FRM` (R39). -/
structure Frm where
  kind : FrmKind
  typ : VarVal
  f0 : VarVal
  f1 : VarVal
  f2 : VarVal
  f3 : VarVal
  f4 : VarVal
  f5 : VarVal
  f6 : VarVal
  fin : BitVec 1
  offP : BitVec 1
  lenP : BitVec 1
  ecnP : BitVec 1
  ftP : BitVec 1
  data : Slice
  cid : Cid
  /-- The 16 bytes of the stateless reset token, in wire order. -/
  srt : List Byte
  /-- The 8 bytes of path data, in wire order. -/
  pdata : List Byte
  nranges : Off
deriving DecidableEq, Repr

/-- `FRM` with all fields 0. -/
def Frm.zero : Frm :=
  { kind := .none, typ := 0, f0 := 0, f1 := 0, f2 := 0, f3 := 0, f4 := 0, f5 := 0, f6 := 0, fin := 0, offP := 0,
    lenP := 0, ecnP := 0, ftP := 0, data := Slice.zero, cid := Cid.zero, srt := List.replicate 16 0,
    pdata := List.replicate 8 0, nranges := 0 }

/-- The request record on the Crypto port (R74). Its slices are slices of `IBUF`. -/
structure CryptoReq where
  id : BitVec 8
  epoch : Epoch
  dcid : Cid
  version : BitVec 32
  isServer : BitVec 1
  keyPhase : BitVec 1
  pn : BitVec 32
  pnLen : BitVec 3
  hdr : Slice
  ct : Slice
deriving DecidableEq, Repr

/-- A response of the Crypto agent (R75): the tag, and the plaintext when `ok = 1`, `none` when `ok = 0`. -/
structure CryptoResp where
  id : BitVec 8
  pt : Option (List Byte)
deriving DecidableEq, Repr

/-- `PEND` (R43): the packet record and the payload descriptor that a `PKT_PARSE` computed before its Crypto call. -/
structure Pending where
  pkt : Pkt
  /-- The payload as received: the ciphertext the request names (R43, R167; log entry 14). -/
  pay : Slice
deriving DecidableEq, Repr

/-! ### A lane -/

/-- The model faults, which `exec` answers and the step records in the lane (R11, R64). -/
inductive Fault where
  /-- `UnwrittenRead(offset)` (R11, R64): a lane's `MemRead` reached a byte nothing has written since reset. Raised
  by every command that reads its window; the step then stops that lane and no other. Safe: the hardware goes on with
  a value the spec does not give. For `PBUF` it is raised only in states no run reaches (R64). -/
  | unwrittenRead (buf : BufSel) (off : Nat)
deriving DecidableEq, Repr

/-- The complete state of one lane (R20 to R44). -/
structure Lane where
  /-- `CFG` bit 0, `IS_SERVER` (R22). -/
  isServer : BitVec 1
  /-- `ILEN` (R22); bits 31:0 count. -/
  ilen : Word
  /-- `CUR` (R22, R27); bits 31:0 count. -/
  cur : Word
  arg0 : Word
  arg1 : Word
  /-- A command issued by a write to `CMD` whose lane step has not been taken (R68). -/
  cmd : Option Word
  st : St
  fstate : FState
  fres : FRes
  /-- `STATUS.WDROP`. -/
  wdrop : BitVec 1
  /-- `STATUS.LASTCMD`. -/
  lastCmd : Byte
  err : ErrReg
  rval : Word
  rcid : Cid
  olen : BitVec 4
  /-- The 8 bytes of `OBUF` (R21, R31). -/
  obuf : List Byte
  pkt : Pkt
  pay : Slice
  pbufLen : Off
  fbuf : BufSel
  fcur : Off
  fend : Off
  frm : Frm
  /-- `ACKR` (R42): entry `i` is the `i`-th pair of the list; later entries have never been written. -/
  ackr : List AckRange
  /-- `PEND` (R43): what the outstanding `PKT_PARSE` computed before its Crypto call. -/
  pend : Option Pending
  /-- `PEND_LIM` (R43). -/
  pendLim : Off
  creqId : BitVec 8
  creqOut : BitVec 1
  /-- The request on the Crypto port, while it is outstanding (R74; log entry 11). -/
  creq : Option CryptoReq
  /-- `IBUF` and its `WRITTEN` flags. -/
  ibuf : Mem
  /-- `PBUF`. -/
  pbuf : Mem
  /-- The model fault recorded on this lane: never cleared, and while it stands the lane takes no step (R11, R64;
  log entry 5). -/
  fault : Option Fault
deriving DecidableEq, Repr

/-- A lane right after reset (R270). -/
def Lane.reset : Lane :=
  { isServer := 0, ilen := 0, cur := 0, arg0 := 0, arg1 := 0, cmd := none, st := .idle, fstate := .inactive,
    fres := .none, wdrop := 0, lastCmd := 0, err := .clear, rval := 0, rcid := Cid.zero, olen := 0,
    obuf := List.replicate 8 0, pkt := Pkt.zero, pay := Slice.zero, pbufLen := 0, fbuf := .none, fcur := 0,
    fend := 0, frm := Frm.zero, ackr := [], pend := none, pendLim := 0, creqId := 0, creqOut := 0, creq := none,
    ibuf := [], pbuf := [], fault := none }

/-! ### The environment -/

/-- Which word of an `ACKR` entry a host read names (R45). -/
inductive AckWord where
  | gap
  | rlen
deriving DecidableEq, Repr

/-- One host access (R45, R66, R70): the space, the offset or entry index, the width in bits, the value written. -/
inductive Access where
  | regRead (off width : Nat)
  | regWrite (off width : Nat) (v : Word)
  | ibufRead (off width : Nat)
  | ibufWrite (off width : Nat) (v : Byte)
  | pbufRead (off width : Nat)
  | pbufWrite (off width : Nat) (v : Byte)
  | ackrRead (idx : Nat) (word : AckWord) (width : Nat)
  | ackrWrite (idx : Nat) (word : AckWord) (v : Word)
deriving DecidableEq, Repr

/-- What the environment does to a lane: a host access (R66), an answer of the Crypto agent (R75), the lane's reset
input (R270). -/
inductive Action where
  | host (a : Access)
  | crypto (r : CryptoResp)
  | reset
deriving DecidableEq, Repr

/-- An action on the lane of the given number. -/
structure Event where
  lane : Nat
  act : Action
deriving DecidableEq, Repr

/-! ### The machine -/

/-- Why the machine refuses: an instruction without a meaning, or an access the interface does not define (R11, R70).
A refused access has no meaning in the model: the step records its mark and the run goes on (log entry 6). Unsafe for
what the hardware does on such an access, which is not specified; a claim can ask that no mark stands. -/
inductive Refusal where
  /-- No meaning yet for this instruction. Raised by no arm of `exec`. Safe: it would end the run. -/
  | notModelled (mnemonic : String)
  /-- An access to `REG` at an offset that is not a multiple of 8 (R70). Raised by `hostAccess`. Unsafe. -/
  | regOffset (off : Nat)
  /-- An access to `REG` that is not 64 bits wide (R70). Raised by `hostAccess`. Unsafe. -/
  | regWidth (width : Nat)
  /-- An access to `IBUF` or `PBUF` that is not one byte wide (R70). Raised by `hostAccess`. Unsafe. -/
  | bufWidth (width : Nat)
  /-- An access to `IBUF` or `PBUF` at or above its capacity (R70). Raised by `hostAccess`. Unsafe. -/
  | bufRange (off : Nat)
  /-- A write to `PBUF` (R70). Raised by `hostAccess`. Unsafe. -/
  | pbufWrite
  /-- A write to `ACKR` (R70). Raised by `hostAccess`. Unsafe. -/
  | ackrWrite
  /-- An access to `ACKR` that is not a 64-bit read of one word (R66, R70). Raised by `hostAccess`. Unsafe. -/
  | ackrWidth (width : Nat)
  /-- An access to `ACKR` at or above `ACK_RANGE_CAP` (R70). Raised by `hostAccess`. Unsafe. -/
  | ackrRange (idx : Nat)
  /-- An event for a lane the block does not have (R5, R20; log entry 13). Raised by `deliver`. Safe: there is no
  hardware for it. -/
  | noSuchLane (lane : Nat)
deriving DecidableEq, Repr

/-- The state of the block and of its environment. -/
structure State where
  /-- The OPEN parameters (R5); no step changes them. -/
  params : Params
  /-- The number of the lane in focus: the one the next lane step belongs to. -/
  sel : Nat
  /-- The lane in focus. -/
  lane : Lane
  /-- The other lanes with their numbers, in rising order. -/
  parked : List (Nat × Lane)
  /-- What the environment will do next, in order (R71). -/
  inbox : List Event
  /-- What the last host read returned (R66); none after an event that was refused (log entry 15). -/
  reply : Option Word
  /-- The refusal marks (R11, R70): of every refused event, the number of its lane and the ground, oldest first. They are
  kept for the whole run; no reset of a lane clears them. -/
  refusals : List (Nat × Refusal)
  /-- The counter that makes each free value a new one. -/
  free : Nat
deriving DecidableEq, Repr

/-- The block right after reset, with the given parameters: every lane in reset (R270), nothing pending. -/
def State.resetWith (p : Params) : State :=
  { params := p, sel := 0, lane := Lane.reset, parked := (List.range (p.nLanes - 1)).map (fun k => (k + 1, Lane.reset)),
    inbox := [], reply := none, refusals := [], free := 0 }

/-- The machine right after reset (R270). DESIGN CHOICE (log entry 2): the parameters, which the spec leaves OPEN. -/
def State.reset : State := State.resetWith Config.chosen

end Sys2Proof.Machine
end

