-- ==== Sys2Proof/Machine/Ops.lean ====
section
/-! DEFINITION. The shared operations: bytes of a buffer, the window of a command, error entry (the block's way of
taking an exception, R245) and the frame of every command step (R120). There is no return from an exception (R247):
the next accepted command runs normally, which `runCommand` shows by reading neither `ST` nor `ERR`. -/

namespace Sys2Proof.Machine

/-! ### Memory -/

/-- The byte at an address, `none` where nothing has been written (R64). -/
def Mem.read : Mem → Nat → Option Byte
  | [], _ => none
  | (k, v) :: m, a => if k = a then some v else Mem.read m a

/-- Writes one byte, keeping the addresses strictly rising (R67). -/
def Mem.write : Mem → Nat → Byte → Mem
  | [], a, b => [(a, b)]
  | (k, v) :: m, a, b =>
    if a < k then (a, b) :: (k, v) :: m
    else if a = k then (a, b) :: m
    else (k, v) :: Mem.write m a b

/-- `MemWrite(S, a, |s|, s)`: writes a byte string from `a` up (R9). -/
def Mem.writeAll : Mem → Nat → List Byte → Mem
  | m, _, [] => m
  | m, a, b :: bs => Mem.writeAll (Mem.write m a b) (a + 1) bs

/-- The canonical form: strictly rising addresses. No byte is listed that was not written, so nothing else is to be
kept (log entry 4). -/
def Mem.wf : Mem → Bool
  | [] => true
  | [_] => true
  | (a, _) :: (b, y) :: m => decide (a < b) && Mem.wf ((b, y) :: m)

/-- The buffer a selector names (R7). -/
def Lane.buffer (l : Lane) : BufSel → Mem
  | .ibuf => l.ibuf
  | .pbuf => l.pbuf
  | .none => []

/-- What a slice denotes: the bytes its buffer holds when it is read (R61, R79). -/
def sliceBytes (l : Lane) (x : Slice) : List (Option Byte) :=
  (List.range x.len.toNat).map fun j => Mem.read (l.buffer x.sel) (x.start.toNat + j)

/-- Version `j` of a Version Negotiation list starts here (R158). -/
def vnVersionOffset (x : Span) (j : Nat) : Nat := x.start.toNat + 4 * j

/-- When two CID values are equal: their lengths and their first `len` bytes are (R30). -/
def Cid.same (x y : Cid) : Bool := decide (x.len = y.len) && decide (x.b.take x.len.toNat = y.b.take y.len.toNat)

/-- A byte string at its full register size: zero bytes follow it (R29, R31). -/
def padBytes (n : Nat) (bs : List Byte) : List Byte := bs ++ List.replicate (n - bs.length) 0

/-! ### Ways a rule can stop -/

/-- How a rule stops before its end: `raise K(SUB, pos)` (R9), or the model fault of R64. -/
inductive Stop where
  | raised (cause : ErrCause) (pos : Nat)
  | fault (f : Fault)
deriving DecidableEq, Repr

/-- A rule's result, or the way it stopped. -/
abbrev Parse := Except Stop

/-- `raise K(SUB, pos)` (R9). -/
def raise {α : Type} (cause : ErrCause) (pos : Nat) : Parse α := .error (.raised cause pos)

/-- A window `(S, p, lim)` without its position (R9): the buffer's selector and bytes, and the limit. -/
structure Window where
  sel : BufSel
  mem : Mem
  lim : Nat
deriving DecidableEq, Repr

/-- Raises when fewer than `n` bytes of the window are left at `p`. -/
def need (w : Window) (p n : Nat) (cause : ErrCause) (pos : Nat) : Parse Unit :=
  if w.lim - p < n then raise cause pos else .ok ()

/-- One byte of `MemRead` (R9, R64). -/
def readByte (w : Window) (a : Nat) : Parse Byte :=
  match Mem.read w.mem a with
  | some b => .ok b
  | none => .error (.fault (.unwrittenRead w.sel a))

/-- `MemRead(S, a, n)` (R9): a read of an unwritten byte is the model fault (R64). -/
def memRead (w : Window) (a : Nat) : Nat → Parse (List Byte)
  | 0 => .ok []
  | n + 1 => do
    let b ← readByte w a
    let bs ← memRead w (a + 1) n
    .ok (b :: bs)

/-! ### Error entry -/

/-- The commands, as error entry tells them apart (R245). -/
inductive Cmd where
  | varintDec
  | varintEnc
  | cidDec
  | pnDec
  | pktParse
  | frmOne
  | fseqBegin
  | fseqNext
  | reserved
deriving DecidableEq, Repr

/-- No frame sequence (R37): `FSTATE`, `FBUF`, `FCUR` and `FEND` all 0. -/
def Lane.noSequence (l : Lane) : Lane := { l with fstate := .inactive, fbuf := .none, fcur := 0, fend := 0 }

/-- No packet and no payload (R33, R35, R36). -/
def Lane.noPacket (l : Lane) : Lane := { l with pkt := Pkt.zero, pay := Slice.zero, pbufLen := 0 }

/-- Clears the results of the failing command (R245). -/
def clearResults (c : Cmd) (cause : ErrCause) (l : Lane) : Lane :=
  match c with
  | .varintDec => { l with rval := 0 }
  | .pnDec => { l with rval := 0 }
  | .varintEnc => { l with obuf := List.replicate 8 0, olen := 0 }
  | .cidDec => { l with rcid := Cid.zero }
  | .pktParse => { l.noPacket.noSequence with pend := none, frm := Frm.zero, fres := .none }
  | .frmOne => { l with frm := Frm.zero, fres := .error }
  | .fseqBegin => { l.noSequence with frm := Frm.zero, fres := .none }
  | .fseqNext =>
    if cause = .wrongState then { l with fres := .error }
    else { l with frm := Frm.zero, fstate := .failed, fres := .error }
  | .reserved => l

/-- `POSBUF` of an error (R242): the buffer `POS` indexes. -/
def posBufOf (c : Cmd) (cause : ErrCause) (l : Lane) : BufSel :=
  match c with
  | .varintEnc => .none
  | .reserved => .none
  | .fseqNext => if cause = .wrongState then .none else l.fbuf
  | .varintDec => .ibuf
  | .cidDec => .ibuf
  | .pnDec => .ibuf
  | .pktParse => .ibuf
  | .frmOne => .ibuf
  | .fseqBegin => .ibuf

/-- Error entry (R245): the results of the command are cleared, `ERR` names the cause and the position, `ST` is
`ERROR`; `CUR`, the buffers, `ACKR`, the operands and `CREQ_ID` keep their values. -/
def errorEntry (c : Cmd) (cause : ErrCause) (pos : Nat) (l : Lane) : Lane :=
  { clearResults c cause l with err := .raised cause (BitVec.ofNat 32 pos) (posBufOf c cause l), st := .error }

/-! ### The command step -/

/-- A command is accepted: it is no longer pending, and `LASTCMD` is its opcode (R120). -/
def Lane.accept (l : Lane) (op : Byte) : Lane := { l with cmd := none, lastCmd := op }

/-- The command the lane's next step executes (R68): the one issued, unless a model fault has stopped the lane, which
then takes no further step (R64). -/
def Lane.issued (l : Lane) : Option Word :=
  match l.fault with
  | none => l.cmd
  | some _ => none

/-- The opcode of the command issued to the lane: its low byte (R68). -/
def Lane.issuedOpcode (l : Lane) : Byte := (l.cmd.getD 0).extractLsb' 0 8

/-- A lane whose command has reached a model fault (R11, R64; log entry 5): the command was accepted and has no effect,
and the fault is recorded. -/
def Lane.stopped (f : Fault) (l : Lane) : Lane := { l.accept l.issuedOpcode with fault := some f }

/-- What the block makes of a lane step (R11, R252): a model fault stops the lane in focus and nothing else. -/
def recordFault (s : State) : Host.Outcome State Fault Refusal → Host.Outcome State Fault Refusal
  | .next t => .next t
  | .fault f => .next { s with lane := s.lane.stopped f }
  | .refused r => .refused r

/-- A commit: `ERR` is 0 and `ST` is `DONE` (R120). -/
def Lane.commit (l : Lane) : Lane := { l with err := .clear, st := .done }

/-- The one indivisible step of a command (R120) on the lane in focus: its rule commits, or raises and error entry
follows, or reaches the model fault. Nothing of the state but that lane changes. -/
def runCommand (c : Cmd) (op : Byte) (rule : Params → Lane → Parse Lane) (s : State) :
    Host.Outcome State Fault Refusal :=
  match rule s.params (s.lane.accept op) with
  | .ok l => .next { s with lane := l }
  | .error (.raised cause pos) => .next { s with lane := errorEntry c cause pos (s.lane.accept op) }
  | .error (.fault f) => .fault f

/-! ### Lanes -/

/-- The parked lane of a number. -/
def findLane : List (Nat × Lane) → Nat → Option Lane
  | [], _ => none
  | (n, l) :: ls, k => if n = k then some l else findLane ls k

/-- The parked lanes without the one of a number. -/
def dropLane : List (Nat × Lane) → Nat → List (Nat × Lane)
  | [], _ => []
  | (n, l) :: ls, k => if n = k then ls else (n, l) :: dropLane ls k

/-- Parks a lane, keeping the numbers in rising order. -/
def parkLane : List (Nat × Lane) → Nat → Lane → List (Nat × Lane)
  | [], k, x => [(k, x)]
  | (n, l) :: ls, k, x => if k < n then (k, x) :: (n, l) :: ls else (n, l) :: parkLane ls k x

/-- The state with lane `k` in focus, if the block has it (R20). -/
def focus (k : Nat) (s : State) : Option State :=
  if k = s.sel then some s
  else
    match findLane s.parked k with
    | none => none
    | some l => some { s with sel := k, lane := l, parked := parkLane (dropLane s.parked k) s.sel s.lane }

/-- Lane `k` of the block, in focus or parked. -/
def State.laneAt (s : State) (k : Nat) : Option Lane := if k = s.sel then some s.lane else findLane s.parked k

end Sys2Proof.Machine
end

