-- ==== Sys2Proof/Machine/Flags.lean ====
section
/-! DEFINITION. The codes and the packed views the host reads: `STATUS`, `ERR`, `CREQ`, `PKT_INFO`, `FRM_INFO` and
byte strings in registers (R24, R26, R45, R46), and the flags a first header byte or a frame type gives (R49). -/

namespace Sys2Proof.Machine

/-- Buffer selector codes (R26, R35, R37). -/
def BufSel.code : BufSel → Nat
  | .none => 0
  | .ibuf => 1
  | .pbuf => 2

/-- `ST` codes (R24). -/
def St.code : St → Nat
  | .idle => 0
  | .busy => 1
  | .done => 2
  | .error => 3

/-- `FSTATE` codes (R24). -/
def FState.code : FState → Nat
  | .inactive => 0
  | .active => 1
  | .ended => 2
  | .failed => 3

/-- `FRES` codes (R24). -/
def FRes.code : FRes → Nat
  | .none => 0
  | .frame => 1
  | .ended => 2
  | .error => 3

/-- `ERR.KIND` of a cause (R240, R242). -/
def ErrCause.kind : ErrCause → Nat
  | .varintEof | .cidLenEof | .cidTooLong | .cidEof | .pnEof | .hdrEof | .versionEof | .tokenTooLong
  | .retryTooShort | .vnTrailer | .fixedEof | .dataEof => 1
  | .unknownFrameType => 2
  | .decryptFailed => 3
  | .ackRanges | .plaintext => 4
  | .unknownCmd | .badArg | .wrongState | .badCursor => 5

/-- `ERR.SUB` of a cause (R242). -/
def ErrCause.sub : ErrCause → Nat
  | .varintEof => 0x01
  | .cidLenEof => 0x02
  | .cidTooLong => 0x03
  | .cidEof => 0x04
  | .pnEof => 0x05
  | .hdrEof => 0x06
  | .versionEof => 0x07
  | .tokenTooLong => 0x08
  | .retryTooShort => 0x09
  | .vnTrailer => 0x0A
  | .fixedEof => 0x0B
  | .dataEof => 0x0C
  | .unknownFrameType => 0x01
  | .decryptFailed => 0x01
  | .ackRanges => 0x01
  | .plaintext => 0x02
  | .unknownCmd => 0x01
  | .badArg => 0x02
  | .wrongState => 0x03
  | .badCursor => 0x04

/-- `PKT.KIND` codes (R33). -/
def PktKind.code : PktKind → Nat
  | .none => 0
  | .vn => 1
  | .initial => 2
  | .zeroRtt => 3
  | .handshake => 4
  | .retry => 5
  | .oneRtt => 6

/-- `FRM.KIND` codes (R40). -/
def FrmKind.code : FrmKind → Nat
  | .none => 0
  | .padding => 1
  | .ping => 2
  | .ack => 3
  | .resetStream => 4
  | .stopSending => 5
  | .crypto => 6
  | .newToken => 7
  | .stream => 8
  | .maxData => 9
  | .maxStreamData => 10
  | .maxStreams => 11
  | .dataBlocked => 12
  | .streamDataBlocked => 13
  | .streamsBlocked => 14
  | .newConnectionId => 15
  | .retireConnectionId => 16
  | .pathChallenge => 17
  | .pathResponse => 18
  | .connectionClose => 19
  | .handshakeDone => 20

/-- Epoch codes (R74, R169). -/
def Epoch.code : Epoch → Nat
  | .initial => 0
  | .zeroRtt => 1
  | .handshake => 2
  | .oneRtt => 3

/-- `STATUS` (R24); reserved bits read 0. -/
def statusWord (l : Lane) : Word :=
  BitVec.ofNat 64 (l.st.code + l.fstate.code * 2 ^ 2 + l.fres.code * 2 ^ 4 + l.wdrop.toNat * 2 ^ 8
    + l.lastCmd.toNat * 2 ^ 16)

/-- `ERR` (R26); reserved bits read 0. -/
def errWord : ErrReg → Word
  | .clear => 0
  | .raised cause pos buf =>
    BitVec.ofNat 64 (cause.kind + cause.sub * 2 ^ 8 + pos.toNat * 2 ^ 16 + buf.code * 2 ^ 48)

/-- `CREQ` (R45). -/
def creqWord (l : Lane) : Word := BitVec.ofNat 64 (l.creqId.toNat + l.creqOut.toNat * 2 ^ 8)

/-- `PKT_INFO` (R45). -/
def pktInfoWord (k : Pkt) : Word :=
  BitVec.ofNat 64 (k.kind.code + k.form.toNat * 2 ^ 3 + k.spin.toNat * 2 ^ 4 + k.keyPhase.toNat * 2 ^ 5
    + k.pnLen.toNat * 2 ^ 8 + k.byte0.toNat * 2 ^ 16)

/-- `FRM_INFO` (R45). -/
def frmInfoWord (f : Frm) : Word :=
  BitVec.ofNat 64 (f.kind.code + f.fin.toNat * 2 ^ 8 + f.offP.toNat * 2 ^ 9 + f.lenP.toNat * 2 ^ 10
    + f.ecnP.toNat * 2 ^ 11 + f.ftP.toNat * 2 ^ 12)

/-- A start and a length in one register: start in bits 31:0, length in bits 63:32 (R45). -/
def spanWord (start len : Off) : Word := BitVec.ofNat 64 (start.toNat + len.toNat * 2 ^ 32)

/-- Register `k` of a packed byte string: bytes `8k .. 8k+7`, big-endian, bytes past the end 0 (R46). -/
def packedWord (bs : List Byte) (k : Nat) : Word := BitVec.ofNat 64 (beNat (padBytes 8 ((bs.drop (8 * k)).take 8)))

/-! ### Flags of a first header byte (R153, R154) -/

/-- `SPIN`: bit 5 of a short header's first byte (R153). -/
def spinOf (b0 : Byte) : BitVec 1 := b0.extractLsb' 5 1

/-- `KEY_PHASE`: bit 2 of a short header's first byte (R153). -/
def keyPhaseOf (b0 : Byte) : BitVec 1 := b0.extractLsb' 2 1

/-- The packet number width of a first byte: bits 1:0 plus 1 (R153, R154). -/
def pnWidthOf (b0 : Byte) : Nat := (b0.extractLsb' 0 2).toNat + 1

end Sys2Proof.Machine
end

