-- ==== Sys2Proof/Machine/Operands.lean ====
section
/-! DEFINITION. The operand forms: the window of a command with its precheck (R250), and the sub-procedures every
rule reads its fields with: `DecodeVarInt`, `EncodeVarInt`, `DecodeCid`, `DecodePn`, `Take` and `Fixed`. -/

namespace Sys2Proof.Machine

/-- Bits 31:0 of `CUR` or `ILEN`, the bits that count (R22, R250). -/
def low32 (w : Word) : Nat := w.toNat % 4294967296

/-- The window `(IBUF, CUR, ILEN)` and its position, after the precheck (R27, R250). -/
def ibufWindow (pr : Params) (l : Lane) : Parse (Window × Nat) :=
  if low32 l.ilen > pr.ibufCap.val ∨ low32 l.cur > low32 l.ilen then raise .badCursor (low32 l.cur)
  else .ok ({ sel := .ibuf, mem := l.ibuf, lim := low32 l.ilen }, low32 l.cur)

/-- `DecodeVarInt(S, p, lim)` (R122). -/
def decodeVarInt (w : Window) (p : Nat) : Parse (Nat × Nat) := do
  need w p 1 .varintEof p
  let b0 ← readByte w p
  need w p (varintSize b0) .varintEof p
  let rest ← memRead w (p + 1) (varintSize b0 - 1)
  .ok (varintValue b0 rest, p + varintSize b0)

/-- `DecodeVarInt` into a 62-bit field: no value is truncated (R124). -/
def readVar (w : Window) (p : Nat) : Parse (VarVal × Nat) := do
  let (v, p) ← decodeVarInt w p
  .ok (BitVec.ofNat 62 v, p)

/-- `EncodeVarInt(v, r)` (R126). -/
def encodeVarInt (v r : Nat) : Parse (List Byte) :=
  if v ≥ Config.varintBound then raise .badArg 0
  else if r = 0 then .ok (varintBytes (varintLeastClass v) v)
  else if r ≤ 4 then
    if varintFits (r - 1) v then .ok (varintBytes (r - 1) v) else raise .badArg 0
  else raise .badArg 0

/-- A CID register from its bytes: the length, and the bytes with a tail of zeros (R29, R128). -/
def Cid.ofBytes (bs : List Byte) : Cid :=
  { len := BitVec.ofNat 5 bs.length, b := padBytes Config.maxCidLen bs }

/-- `DecodeCid(S, p, lim)` (R128): a length above 20 is reported before a shortage of bytes (R130). -/
def decodeCid (w : Window) (p : Nat) : Parse (Cid × Nat) := do
  need w p 1 .cidLenEof p
  let len ← readByte w p
  if len.toNat > Config.maxCidLen then raise .cidTooLong p
  else
    need w (p + 1) len.toNat .cidEof p
    let bs ← memRead w (p + 1) len.toNat
    .ok (Cid.ofBytes bs, p + 1 + len.toNat)

/-- `DecodePn(S, p, lim, w)` (R131): `width` bytes, zero-extended. -/
def decodePn (w : Window) (p width : Nat) : Parse (BitVec 32 × Nat) := do
  need w p width .pnEof p
  let bs ← memRead w p width
  .ok (BitVec.ofNat 32 (beNat bs), p + width)

/-- A slice of the window's buffer (R7). -/
def sliceOf (w : Window) (start len : Nat) : Slice :=
  { sel := w.sel, start := BitVec.ofNat 32 start, len := BitVec.ofNat 32 len }

/-- `Take(S, p, lim, n)`: a variable-length byte field, named and not read (R196). -/
def takeSlice (w : Window) (p n : Nat) : Parse (Slice × Nat) := do
  need w p n .dataEof p
  .ok (sliceOf w p n, p + n)

/-- `Fixed(S, p, lim, n)`: a fixed-size byte field, read (R196). -/
def readFixed (w : Window) (p n : Nat) : Parse (List Byte × Nat) := do
  need w p n .fixedEof p
  let bs ← memRead w p n
  .ok (bs, p + n)

end Sys2Proof.Machine
end

