-- ==== Sys2Proof/Machine/Codecs.lean ====
section
/-! DEFINITION. The codec commands and the control commands (40_codecs.md). -/

namespace Sys2Proof.Machine

/-- `NOP` (R121): `LASTCMD` becomes 0x00 and nothing else changes. -/
def execNop (s : State) : Host.Outcome State Fault Refusal := .next { s with lane := s.lane.accept 0x00 }

/-- The rule of `VARINT_DEC` (R123). -/
def ruleVarintDec (pr : Params) (l : Lane) : Parse Lane := do
  let (w, p) ← ibufWindow pr l
  let (v, p) ← decodeVarInt w p
  .ok { l.commit with rval := BitVec.ofNat 64 v, cur := BitVec.ofNat 64 p }

/-- `VARINT_DEC` (R123). -/
def execVarintDec (s : State) : Host.Outcome State Fault Refusal := runCommand .varintDec 0x01 ruleVarintDec s

/-- The rule of `VARINT_ENC` (R127). -/
def ruleVarintEnc (_ : Params) (l : Lane) : Parse Lane := do
  let bs ← encodeVarInt l.arg0.toNat l.arg1.toNat
  .ok { l.commit with obuf := padBytes 8 bs, olen := BitVec.ofNat 4 bs.length }

/-- `VARINT_ENC` (R127). -/
def execVarintEnc (s : State) : Host.Outcome State Fault Refusal := runCommand .varintEnc 0x02 ruleVarintEnc s

/-- The rule of `CID_DEC` (R129). -/
def ruleCidDec (pr : Params) (l : Lane) : Parse Lane := do
  let (w, p) ← ibufWindow pr l
  let (c, p) ← decodeCid w p
  .ok { l.commit with rcid := c, cur := BitVec.ofNat 64 p }

/-- `CID_DEC` (R129). -/
def execCidDec (s : State) : Host.Outcome State Fault Refusal := runCommand .cidDec 0x03 ruleCidDec s

/-- The rule of `PN_DEC` (R132): the precheck, then the width, then the read (R246). -/
def rulePnDec (pr : Params) (l : Lane) : Parse Lane := do
  let (w, p) ← ibufWindow pr l
  if l.arg0.toNat < 1 ∨ 4 < l.arg0.toNat then raise .badArg p
  else
    let (v, p) ← decodePn w p l.arg0.toNat
    .ok { l.commit with rval := v.setWidth 64, cur := BitVec.ofNat 64 p }

/-- `PN_DEC` (R132). -/
def execPnDec (s : State) : Host.Outcome State Fault Refusal := runCommand .pnDec 0x04 rulePnDec s

/-- What `CLEAR` leaves of a lane (R133). -/
def clearLane (l : Lane) : Lane :=
  { l.noPacket.noSequence with
    pend := none, frm := Frm.zero, fres := .none, rval := 0, rcid := Cid.zero, obuf := List.replicate 8 0,
    olen := 0, err := .clear, wdrop := 0, st := .idle }

/-- `CLEAR` (R133). -/
def execClear (s : State) : Host.Outcome State Fault Refusal := .next { s with lane := clearLane (s.lane.accept 0x09) }

/-- The rule of every reserved opcode (R134). -/
def ruleReserved (_ : Params) (_ : Lane) : Parse Lane := raise .unknownCmd 0

/-- Reserved opcodes 0x0A and 0x0B (R134). -/
def execReserved0A (low : BitVec 1) (s : State) : Host.Outcome State Fault Refusal :=
  runCommand .reserved (opcodeOf (.reserved0A low)) ruleReserved s

/-- Reserved opcodes 0x0C to 0x0F (R134). -/
def execReserved0C (low : BitVec 2) (s : State) : Host.Outcome State Fault Refusal :=
  runCommand .reserved (opcodeOf (.reserved0C low)) ruleReserved s

/-- Reserved opcodes 0x10 to 0x1F (R134). -/
def execReserved10 (low : BitVec 4) (s : State) : Host.Outcome State Fault Refusal :=
  runCommand .reserved (opcodeOf (.reserved10 low)) ruleReserved s

/-- Reserved opcodes 0x20 to 0x3F (R134). -/
def execReserved20 (low : BitVec 5) (s : State) : Host.Outcome State Fault Refusal :=
  runCommand .reserved (opcodeOf (.reserved20 low)) ruleReserved s

/-- Reserved opcodes 0x40 to 0x7F (R134). -/
def execReserved40 (low : BitVec 6) (s : State) : Host.Outcome State Fault Refusal :=
  runCommand .reserved (opcodeOf (.reserved40 low)) ruleReserved s

/-- Reserved opcodes 0x80 to 0xFF (R134). -/
def execReserved80 (low : BitVec 7) (s : State) : Host.Outcome State Fault Refusal :=
  runCommand .reserved (opcodeOf (.reserved80 low)) ruleReserved s

end Sys2Proof.Machine
end

