-- ==== Sys2Proof/Machine/Frames.lean ====
section
/-! DEFINITION. The frame lazy parser (42_frames.md): one rule per row of the frame table, and the three commands
that drive them. A frame row's meaning is the whole step of the command being executed, on a window whose type
selects the row (log entry 8). -/

namespace Sys2Proof.Machine

/-- What a frame rule returns: the record, the ACK range pairs and the new position (R190). -/
structure FrameOut where
  frm : Frm
  ranges : List AckRange
  pos : Nat
deriving DecidableEq, Repr

/-- A frame rule continues `ParseFrame` after the type: from the window, the offset `t0` of the type, the record with
its `TYPE`, and the position after the type (R190). -/
abbrev FrameRule := Params → Window → Nat → Frm → Nat → Parse FrameOut

/-- A frame without ACK ranges. -/
def plainFrame (f : Frm) (p : Nat) : FrameOut := { frm := f, ranges := [], pos := p }

/-! ### The rules of the frame table -/

/-- Padding (R197). -/
def rulePadding : FrameRule := fun _ _ _ f p => .ok (plainFrame { f with kind := .padding } p)

/-- Ping (R198). -/
def rulePing : FrameRule := fun _ _ _ f p => .ok (plainFrame { f with kind := .ping } p)

/-- Whether `ACKR` has no entry `i` (R199). -/
def pastAckCap (cap : Option Nat) (i : Nat) : Bool :=
  match cap with
  | none => false
  | some n => decide (n ≤ i)

/-- The pairs of an Ack frame, from pair `i` on with `left` still to come (R199). Each pair takes at least two bytes,
so `fuel` as large as the bytes left is never short; where it is 0 no byte is left, and the read of the next pair
raises. -/
def ackPairs (cap : Option Nat) (w : Window) : Nat → Nat → Nat → Nat → Parse (List AckRange × Nat)
  | 0, left, _, p => if left = 0 then .ok ([], p) else raise .varintEof p
  | fuel + 1, left, i, p =>
    if left = 0 then .ok ([], p)
    else do
      let (gap, p1) ← readVar w p
      let (rlen, p2) ← readVar w p1
      if pastAckCap cap i then raise .ackRanges p
      else
        let (rs, p3) ← ackPairs cap w fuel (left - 1) (i + 1) p2
        .ok ({ gap := gap, rlen := rlen } :: rs, p3)

/-- The fields and pairs common to both Ack types (R199). -/
def ackCommon (pr : Params) (w : Window) (f : Frm) (p : Nat) : Parse FrameOut := do
  let (largest, p) ← readVar w p
  let (delay, p) ← readVar w p
  let (count, p) ← readVar w p
  let (first, p) ← readVar w p
  let (rs, p) ← ackPairs pr.ackCap w (w.lim - p) count.toNat 0 p
  .ok { frm := { f with
          kind := .ack, f0 := largest, f1 := delay, f2 := count, f3 := first, nranges := BitVec.ofNat 32 count.toNat }
        ranges := rs
        pos := p }

/-- Ack (R199). -/
def ruleAck : FrameRule := fun pr w _ f p => ackCommon pr w f p

/-- Ack with ECN counts (R200). -/
def ruleAckEcn : FrameRule := fun pr w _ f p => do
  let out ← ackCommon pr w f p
  let (ect0, p) ← readVar w out.pos
  let (ect1, p) ← readVar w p
  let (ce, p) ← readVar w p
  .ok { out with frm := { out.frm with f4 := ect0, f5 := ect1, f6 := ce, ecnP := 1 }, pos := p }

/-- A frame whose fields are one VarInt. -/
def oneField (kind : FrmKind) (w : Window) (f : Frm) (p : Nat) : Parse FrameOut := do
  let (a, p) ← readVar w p
  .ok (plainFrame { f with kind := kind, f0 := a } p)

/-- A frame whose fields are two VarInts. -/
def twoFields (kind : FrmKind) (w : Window) (f : Frm) (p : Nat) : Parse FrameOut := do
  let (a, p) ← readVar w p
  let (b, p) ← readVar w p
  .ok (plainFrame { f with kind := kind, f0 := a, f1 := b } p)

/-- ResetStream (R201): stream_id, err_code, final_size. -/
def ruleResetStream : FrameRule := fun _ w _ f p => do
  let (a, p) ← readVar w p
  let (b, p) ← readVar w p
  let (c, p) ← readVar w p
  .ok (plainFrame { f with kind := .resetStream, f0 := a, f1 := b, f2 := c } p)

/-- StopSending (R202): stream_id, err_code. -/
def ruleStopSending : FrameRule := fun _ w _ f p => twoFields .stopSending w f p

/-- Data at `[off, off+len)` of the window after the length field (R203, `OFFSET_RELATIVE`), or right after it
(`IMMEDIATE`). -/
def placedData (pr : Params) (w : Window) (off len p : Nat) : Parse (Slice × Nat) :=
  match pr.layout with
  | .offsetRelative => do
    need w p (off + len) .dataEof p
    .ok (sliceOf w (p + off) len, p + off + len)
  | .immediate => takeSlice w p len

/-- Data with no length field: to the end of the window (R205). -/
def restData (pr : Params) (w : Window) (off p : Nat) : Parse (Slice × Nat) :=
  match pr.layout with
  | .offsetRelative => do
    need w p off .dataEof p
    .ok (sliceOf w (p + off) (w.lim - p - off), w.lim)
  | .immediate => .ok (sliceOf w p (w.lim - p), w.lim)

/-- Crypto (R203). -/
def ruleCrypto : FrameRule := fun pr w _ f p => do
  let (off, p) ← readVar w p
  let (len, p) ← readVar w p
  let (data, p) ← placedData pr w off.toNat len.toNat p
  .ok (plainFrame { f with kind := .crypto, f0 := off, f1 := len, data := data } p)

/-- NewToken (R204). -/
def ruleNewToken : FrameRule := fun _ w _ f p => do
  let (len, p) ← readVar w p
  let (data, p) ← takeSlice w p len.toNat
  .ok (plainFrame { f with kind := .newToken, f0 := len, data := data } p)

/-- The data of a Stream frame: placed by its length field, or to the end when the LEN bit is 0 (R205). -/
def streamData (pr : Params) (l : BitVec 1) (w : Window) (off len p : Nat) : Parse (Slice × Nat) :=
  if l = 1 then placedData pr w off len p else restData pr w off p

/-- An optional VarInt field: 0 and no byte when its presence bit is 0 (R205). -/
def optVar (present : BitVec 1) (w : Window) (p : Nat) : Parse (VarVal × Nat) :=
  if present = 1 then readVar w p else .ok (0, p)

/-- Stream (R102, R205), with the OFF, LEN and FIN bits of its type. -/
def ruleStream (o l fin : BitVec 1) : FrameRule := fun pr w _ f p => do
  let (sid, p) ← readVar w p
  let (off, p) ← optVar o w p
  let (len, p) ← optVar l w p
  let (data, p) ← streamData pr l w off.toNat len.toNat p
  .ok (plainFrame { f with
    kind := .stream, f0 := sid, f1 := off, f2 := len, fin := fin, offP := o, lenP := l, data := data } p)

/-- MaxData (R206). -/
def ruleMaxData : FrameRule := fun _ w _ f p => oneField .maxData w f p

/-- MaxStreamData (R207): stream_id, max_stream_data. -/
def ruleMaxStreamData : FrameRule := fun _ w _ f p => twoFields .maxStreamData w f p

/-- MaxStreams (R208). -/
def ruleMaxStreams : FrameRule := fun _ w _ f p => oneField .maxStreams w f p

/-- DataBlocked (R209). -/
def ruleDataBlocked : FrameRule := fun _ w _ f p => oneField .dataBlocked w f p

/-- StreamDataBlocked (R210): stream_id, max_stream_data. -/
def ruleStreamDataBlocked : FrameRule := fun _ w _ f p => twoFields .streamDataBlocked w f p

/-- StreamsBlocked (R211). -/
def ruleStreamsBlocked : FrameRule := fun _ w _ f p => oneField .streamsBlocked w f p

/-- NewConnectionId (R212): seq_num, retire_prior_to, connection_id, stateless_reset_token. -/
def ruleNewConnectionId : FrameRule := fun _ w _ f p => do
  let (seq, p) ← readVar w p
  let (retire, p) ← readVar w p
  let (cid, p) ← decodeCid w p
  let (srt, p) ← readFixed w p 16
  .ok (plainFrame { f with kind := .newConnectionId, f0 := seq, f1 := retire, cid := cid, srt := srt } p)

/-- RetireConnectionId (R213): seq_num. -/
def ruleRetireConnectionId : FrameRule := fun _ w _ f p => oneField .retireConnectionId w f p

/-- PathChallenge (R214). -/
def rulePathChallenge : FrameRule := fun _ w _ f p => do
  let (d, p) ← readFixed w p 8
  .ok (plainFrame { f with kind := .pathChallenge, pdata := d } p)

/-- PathResponse (R215). -/
def rulePathResponse : FrameRule := fun _ w _ f p => do
  let (d, p) ← readFixed w p 8
  .ok (plainFrame { f with kind := .pathResponse, pdata := d } p)

/-- ConnectionClose of the QUIC layer (R216): err_code, frame_type, the reason phrase. -/
def ruleConnectionCloseQuic : FrameRule := fun _ w _ f p => do
  let (code, p) ← readVar w p
  let (ftype, p) ← readVar w p
  let (len, p) ← readVar w p
  let (data, p) ← takeSlice w p len.toNat
  .ok (plainFrame { f with kind := .connectionClose, ftP := 1, f0 := code, f1 := ftype, f2 := len, data := data } p)

/-- ConnectionClose of the application (R217): err_code, the reason phrase. -/
def ruleConnectionCloseApp : FrameRule := fun _ w _ f p => do
  let (code, p) ← readVar w p
  let (len, p) ← readVar w p
  let (data, p) ← takeSlice w p len.toNat
  .ok (plainFrame { f with kind := .connectionClose, ftP := 0, f0 := code, f2 := len, data := data } p)

/-- HandshakeDone (R218). -/
def ruleHandshakeDone : FrameRule := fun _ _ _ f p => .ok (plainFrame { f with kind := .handshakeDone } p)

/-- Any other type (R219): `PROTOCOL_VIOLATION` at the first byte of the type. -/
def ruleUnknown : FrameRule := fun _ _ t0 _ _ => raise .unknownFrameType t0

/-! ### ParseFrame -/

/-- The rule of a frame row (R191). `decodeFrameType` answers with rows of this format only; for any other row this
is the rule of an unknown type. -/
def frameRule : Instr → FrameRule
  | .frmPadding => rulePadding
  | .frmPing => rulePing
  | .frmAck => ruleAck
  | .frmAckEcn => ruleAckEcn
  | .frmResetStream => ruleResetStream
  | .frmStopSending => ruleStopSending
  | .frmCrypto => ruleCrypto
  | .frmNewToken => ruleNewToken
  | .frmStream o l fin => ruleStream o l fin
  | .frmMaxData => ruleMaxData
  | .frmMaxStreamData => ruleMaxStreamData
  | .frmMaxStreams _ => ruleMaxStreams
  | .frmDataBlocked => ruleDataBlocked
  | .frmStreamDataBlocked => ruleStreamDataBlocked
  | .frmStreamsBlocked _ => ruleStreamsBlocked
  | .frmNewConnectionId => ruleNewConnectionId
  | .frmRetireConnectionId => ruleRetireConnectionId
  | .frmPathChallenge => rulePathChallenge
  | .frmPathResponse => rulePathResponse
  | .frmConnectionCloseQuic => ruleConnectionCloseQuic
  | .frmConnectionCloseApp => ruleConnectionCloseApp
  | .frmHandshakeDone => ruleHandshakeDone
  | _ => ruleUnknown

/-- The record with which a frame rule starts: all fields 0 but `TYPE` (R190). -/
def frameStart (typ : VarVal) : Frm := { Frm.zero with typ := typ }

/-- `ParseFrame(S, p, lim)` (R190). -/
def parseFrame (pr : Params) (w : Window) (p : Nat) : Parse FrameOut := do
  let (t, p1) ← readVar w p
  frameRule (decodeFrameType t) pr w p (frameStart t) p1

/-- `ParseFrame` on a window whose type selects the row `i`, whose rule is `rule`. -/
def parseRow (i : Instr) (rule : FrameRule) (pr : Params) (w : Window) (p : Nat) : Parse FrameOut := do
  let (_, p1) ← readVar w p
  rule pr w p (frameStart (frameTypeOf i)) p1

/-! ### The commands -/

/-- The two commands that parse a frame. -/
inductive FrameCmd where
  /-- `FRM_ONE` (R192). -/
  | one
  /-- `FSEQ_NEXT` (R194). -/
  | next
deriving DecidableEq, Repr

/-- The opcode of a frame command (R110). -/
def FrameCmd.opcode : FrameCmd → Byte
  | .one => 0x06
  | .next => 0x08

/-- The command as error entry tells it apart. -/
def FrameCmd.cmd : FrameCmd → Cmd
  | .one => .frmOne
  | .next => .fseqNext

/-- Writes the pairs of an Ack frame to the first entries of `ACKR`; the others keep their values (R42). -/
def writeRanges (old new : List AckRange) : List AckRange := new ++ old.drop new.length

/-- The window a frame is parsed from: `(IBUF, CUR, ILEN)` for `FRM_ONE` (R192), `(FBUF, FCUR, FEND)` for `FSEQ_NEXT`
(R194). -/
def frameWindow (d : FrameCmd) (pr : Params) (l : Lane) : Parse (Window × Nat) :=
  match d with
  | .one => ibufWindow pr l
  | .next => .ok ({ sel := l.fbuf, mem := l.buffer l.fbuf, lim := l.fend.toNat }, l.fcur.toNat)

/-- Commits a parsed frame (R192, R194). -/
def commitFrame (d : FrameCmd) (out : FrameOut) (l : Lane) : Lane :=
  match d with
  | .one =>
    { l.commit with
      frm := out.frm, ackr := writeRanges l.ackr out.ranges, cur := BitVec.ofNat 64 out.pos, fres := .frame }
  | .next =>
    { l.commit with
      frm := out.frm, ackr := writeRanges l.ackr out.ranges, fcur := BitVec.ofNat 32 out.pos, fres := .frame }

/-- Parses one frame by `parse` and commits it. -/
def frameCommand (d : FrameCmd) (parse : Params → Window → Nat → Parse FrameOut) (pr : Params) (l : Lane) :
    Parse Lane := do
  let (w, p) ← frameWindow d pr l
  let out ← parse pr w p
  .ok (commitFrame d out l)

/-- `FRM_ONE` (R192). -/
def execFrmOne (s : State) : Host.Outcome State Fault Refusal :=
  runCommand .frmOne 0x06 (frameCommand .one parseFrame) s

/-- The rule of `FSEQ_BEGIN` (R193). -/
def ruleFseqBegin (pr : Params) (l : Lane) : Parse Lane := do
  let (w, p) ← ibufWindow pr l
  .ok { l.commit with
    fbuf := .ibuf, fcur := BitVec.ofNat 32 p, fend := BitVec.ofNat 32 w.lim, fstate := .active, frm := Frm.zero,
    fres := .none }

/-- `FSEQ_BEGIN` (R193). -/
def execFseqBegin (s : State) : Host.Outcome State Fault Refusal := runCommand .fseqBegin 0x07 ruleFseqBegin s

/-- No frame: the sequence has ended (R194). -/
def sequenceEnd (l : Lane) : Lane := { l.commit with frm := Frm.zero, fres := .ended }

/-- The rule of `FSEQ_NEXT` (R194, R195). -/
def ruleFseqNext (pr : Params) (l : Lane) : Parse Lane :=
  match l.fstate with
  | .inactive => raise .wrongState 0
  | .ended => .ok (sequenceEnd l)
  | .failed => .ok (sequenceEnd l)
  | .active =>
    if l.fcur = l.fend then .ok { sequenceEnd l with fstate := .ended }
    else frameCommand .next parseFrame pr l

/-- `FSEQ_NEXT` (R194). -/
def execFseqNext (s : State) : Host.Outcome State Fault Refusal := runCommand .fseqNext 0x08 ruleFseqNext s

/-! ### The frame rows -/

/-- The frame command being executed: `FSEQ_NEXT` when it is the command issued, else `FRM_ONE` (log entry 8). -/
def frameCmdOf (s : State) : FrameCmd :=
  match s.lane.cmd with
  | none => .one
  | some w => if decodeCommand w = .fseqNext then .next else .one

/-- The step of a frame command on a window whose type selects the row `i`. -/
def runRow (i : Instr) (rule : FrameRule) (s : State) : Host.Outcome State Fault Refusal :=
  runCommand (frameCmdOf s).cmd (frameCmdOf s).opcode (frameCommand (frameCmdOf s) (parseRow i rule)) s

/-- Padding (R197). -/
def execFrmPadding (s : State) : Host.Outcome State Fault Refusal := runRow .frmPadding rulePadding s

/-- Ping (R198). -/
def execFrmPing (s : State) : Host.Outcome State Fault Refusal := runRow .frmPing rulePing s

/-- Ack (R199). -/
def execFrmAck (s : State) : Host.Outcome State Fault Refusal := runRow .frmAck ruleAck s

/-- Ack with ECN (R200). -/
def execFrmAckEcn (s : State) : Host.Outcome State Fault Refusal := runRow .frmAckEcn ruleAckEcn s

/-- ResetStream (R201). -/
def execFrmResetStream (s : State) : Host.Outcome State Fault Refusal := runRow .frmResetStream ruleResetStream s

/-- StopSending (R202). -/
def execFrmStopSending (s : State) : Host.Outcome State Fault Refusal := runRow .frmStopSending ruleStopSending s

/-- Crypto (R203). -/
def execFrmCrypto (s : State) : Host.Outcome State Fault Refusal := runRow .frmCrypto ruleCrypto s

/-- NewToken (R204). -/
def execFrmNewToken (s : State) : Host.Outcome State Fault Refusal := runRow .frmNewToken ruleNewToken s

/-- Stream (R205). -/
def execFrmStream (off len fin : BitVec 1) (s : State) : Host.Outcome State Fault Refusal :=
  runRow (.frmStream off len fin) (ruleStream off len fin) s

/-- MaxData (R206). -/
def execFrmMaxData (s : State) : Host.Outcome State Fault Refusal := runRow .frmMaxData ruleMaxData s

/-- MaxStreamData (R207). -/
def execFrmMaxStreamData (s : State) : Host.Outcome State Fault Refusal :=
  runRow .frmMaxStreamData ruleMaxStreamData s

/-- MaxStreams (R208). -/
def execFrmMaxStreams (low : BitVec 1) (s : State) : Host.Outcome State Fault Refusal :=
  runRow (.frmMaxStreams low) ruleMaxStreams s

/-- DataBlocked (R209). -/
def execFrmDataBlocked (s : State) : Host.Outcome State Fault Refusal := runRow .frmDataBlocked ruleDataBlocked s

/-- StreamDataBlocked (R210). -/
def execFrmStreamDataBlocked (s : State) : Host.Outcome State Fault Refusal :=
  runRow .frmStreamDataBlocked ruleStreamDataBlocked s

/-- StreamsBlocked (R211). -/
def execFrmStreamsBlocked (low : BitVec 1) (s : State) : Host.Outcome State Fault Refusal :=
  runRow (.frmStreamsBlocked low) ruleStreamsBlocked s

/-- NewConnectionId (R212). -/
def execFrmNewConnectionId (s : State) : Host.Outcome State Fault Refusal :=
  runRow .frmNewConnectionId ruleNewConnectionId s

/-- RetireConnectionId (R213). -/
def execFrmRetireConnectionId (s : State) : Host.Outcome State Fault Refusal :=
  runRow .frmRetireConnectionId ruleRetireConnectionId s

/-- PathChallenge (R214). -/
def execFrmPathChallenge (s : State) : Host.Outcome State Fault Refusal := runRow .frmPathChallenge rulePathChallenge s

/-- PathResponse (R215). -/
def execFrmPathResponse (s : State) : Host.Outcome State Fault Refusal := runRow .frmPathResponse rulePathResponse s

/-- ConnectionClose of the QUIC layer (R216). -/
def execFrmConnectionCloseQuic (s : State) : Host.Outcome State Fault Refusal :=
  runRow .frmConnectionCloseQuic ruleConnectionCloseQuic s

/-- ConnectionClose of the application (R217). -/
def execFrmConnectionCloseApp (s : State) : Host.Outcome State Fault Refusal :=
  runRow .frmConnectionCloseApp ruleConnectionCloseApp s

/-- HandshakeDone (R218). -/
def execFrmHandshakeDone (s : State) : Host.Outcome State Fault Refusal := runRow .frmHandshakeDone ruleHandshakeDone s

/-- An unknown frame type (R219). -/
def execFrmUnknown (typ : VarVal) (s : State) : Host.Outcome State Fault Refusal :=
  runRow (.frmUnknown typ) ruleUnknown s

end Sys2Proof.Machine
end

