-- ==== Sys2Proof/Machine/Packets.lean ====
section
/-! DEFINITION. The packet header parser, the Crypto request and its completion (41_packet_header.md). Each kind's
rule is one row of the opcode table; `PKT_PARSE` reads the bytes that select the row, and runs it, in one step. -/

namespace Sys2Proof.Machine

/-- What a header rule returns: the record, the position of the first byte after the header, and the epoch of the
payload, `none` for a kind without one (R150, R155). -/
structure Header where
  pkt : Pkt
  pos : Nat
  epoch : Option Epoch
deriving DecidableEq, Repr

/-! ### Publishing and issuing -/

/-- `Publish` (R174): the record, no payload, an ended sequence, the whole window consumed. -/
def publish (k : Pkt) (lim : Nat) (l : Lane) : Lane :=
  { l.noPacket.noSequence.commit with
    pkt := k, frm := Frm.zero, fstate := .ended, fres := .none, cur := BitVec.ofNat 64 lim }

/-- The request record of R74 and R167 for the packet `h` that starts at `p0` in a window ending at `lim`. -/
def cryptoRequest (l : Lane) (h : Header) (epoch : Epoch) (p0 lim : Nat) : CryptoReq :=
  { id := l.creqId + 1, epoch := epoch, dcid := h.pkt.dcid, version := h.pkt.version, isServer := l.isServer,
    keyPhase := h.pkt.keyPhase, pn := h.pkt.pn, pnLen := h.pkt.pnLen,
    hdr := { sel := .ibuf, start := BitVec.ofNat 32 p0, len := BitVec.ofNat 32 (h.pos - p0) },
    ct := { sel := .ibuf, start := BitVec.ofNat 32 h.pos, len := BitVec.ofNat 32 (lim - h.pos) } }

/-- `IssueCrypto` (R167): the request goes out, the record waits in `PEND`, the results are cleared and the lane is
`BUSY`; `CUR` keeps its value until completion. -/
def issueCrypto (h : Header) (epoch : Epoch) (p0 lim : Nat) (l : Lane) : Lane :=
  { l.noPacket.noSequence with
    creqId := l.creqId + 1, creqOut := 1, creq := some (cryptoRequest l h epoch p0 lim),
    pend := some { pkt := h.pkt, pay := (cryptoRequest l h epoch p0 lim).ct }, pendLim := BitVec.ofNat 32 lim,
    frm := Frm.zero, fres := .none, err := .clear, st := .busy }

/-- The end of `PKT_PARSE` (R150): publish for VN and Retry, a Crypto request for the four protected kinds. -/
def finishHeader (h : Header) (p0 lim : Nat) (l : Lane) : Lane :=
  match h.epoch with
  | none => publish h.pkt lim l
  | some epoch => issueCrypto h epoch p0 lim l

/-! ### The header rows -/

/-- The common part of every long header after its first byte and version (R155): both connection IDs, in order. -/
def longHeader (w : Window) (p0 : Nat) (b0 : Byte) (ver : BitVec 32) : Parse (Pkt × Nat) := do
  need w p0 1 .hdrEof p0
  need w (p0 + 1) 4 .versionEof (p0 + 1)
  let (dcid, p) ← decodeCid w (p0 + 5)
  let (scid, p) ← decodeCid w p
  .ok ({ Pkt.zero with form := 1, byte0 := b0, version := ver, dcid := dcid, scid := scid }, p)

/-- VersionNegotiation (R156, R158). -/
def ruleVersionNegotiation (b0 : Byte) (w : Window) (p0 : Nat) : Parse Header := do
  let (k, p) ← longHeader w p0 b0 0
  let r := w.lim - p
  if r % 4 ≠ 0 then raise .vnTrailer (w.lim - r % 4)
  else
    .ok { pkt := { k with
            kind := .vn, vnlist := { start := BitVec.ofNat 32 p, len := BitVec.ofNat 32 (r / 4) },
            hdrEnd := BitVec.ofNat 32 p }
          pos := w.lim
          epoch := none }

/-- The tail that Initial, ZeroRTT and Handshake share: the length field, which bounds nothing (R160), then the
packet number at the width of the first byte (R154). -/
def protectedTail (k : Pkt) (kind : PktKind) (epoch : Epoch) (w : Window) (p : Nat) : Parse Header := do
  let (len, p) ← readVar w p
  let (pn, p) ← decodePn w p (pnWidthOf k.byte0)
  .ok { pkt := { k with
          kind := kind, length := len, pn := pn, pnLen := BitVec.ofNat 3 (pnWidthOf k.byte0),
          hdrEnd := BitVec.ofNat 32 p }
        pos := p
        epoch := some epoch }

/-- Initial (R159): the token, which is named and not read, then the common tail. -/
def ruleInitial (b0 : Byte) (ver : BitVec 32) (w : Window) (p0 : Nat) : Parse Header := do
  let (k, p) ← longHeader w p0 b0 ver
  let (tl, p) ← decodeVarInt w p
  need w p tl .tokenTooLong p
  let k := { k with token := { start := BitVec.ofNat 32 p, len := BitVec.ofNat 32 tl } }
  protectedTail k .initial .initial w (p + tl)

/-- ZeroRTT (R161). -/
def ruleZeroRtt (b0 : Byte) (ver : BitVec 32) (w : Window) (p0 : Nat) : Parse Header := do
  let (k, p) ← longHeader w p0 b0 ver
  protectedTail k .zeroRtt .zeroRtt w p

/-- Handshake (R162). -/
def ruleHandshake (b0 : Byte) (ver : BitVec 32) (w : Window) (p0 : Nat) : Parse Header := do
  let (k, p) ← longHeader w p0 b0 ver
  protectedTail k .handshake .handshake w p

/-- Retry (R163): the last 16 bytes are the tag, everything before them the token (R164; log entry 16). -/
def ruleRetry (b0 : Byte) (ver : BitVec 32) (w : Window) (p0 : Nat) : Parse Header := do
  let (k, p) ← longHeader w p0 b0 ver
  let r := w.lim - p
  need w p Config.retryTagLen .retryTooShort p
  let tag ← memRead w (w.lim - Config.retryTagLen) Config.retryTagLen
  .ok { pkt := { k with
          kind := .retry,
          token := { start := BitVec.ofNat 32 p, len := BitVec.ofNat 32 (r - Config.retryTagLen) },
          tag := BitVec.ofNat 128 (beNat tag), hdrEnd := BitVec.ofNat 32 p }
        pos := w.lim
        epoch := none }

/-- OneRtt, the short header (R165). -/
def ruleOneRtt (b0 : Byte) (w : Window) (p0 : Nat) : Parse Header := do
  need w p0 1 .hdrEof p0
  let (dcid, p) ← decodeCid w (p0 + 1)
  let (pn, p) ← decodePn w p (pnWidthOf b0)
  .ok { pkt := { Pkt.zero with
          kind := .oneRtt, form := 0, byte0 := b0, spin := spinOf b0, keyPhase := keyPhaseOf b0, dcid := dcid,
          pn := pn, pnLen := BitVec.ofNat 3 (pnWidthOf b0), hdrEnd := BitVec.ofNat 32 p }
        pos := p
        epoch := some .oneRtt }

/-! ### The command -/

/-- The bytes that select a header row: the first byte and, for a long header, the version (R152, R155, R99). -/
def fetchHeader (w : Window) (p0 : Nat) : Parse Instr := do
  need w p0 1 .hdrEof p0
  let b0 ← readByte w p0
  if isLongHeader b0 then
    need w (p0 + 1) 4 .versionEof (p0 + 1)
    let ver ← memRead w (p0 + 1) 4
    .ok (decodeLongHeader b0 (BitVec.ofNat 32 (beNat ver)))
  else .ok (decodeShortHeader b0)

/-- The rule of a header row (R157). `fetchHeader` answers with a row of the `PKT_B0` format only; for a row of
another format this is the rule of R152 for a window without a header. -/
def headerRule (i : Instr) (w : Window) (p0 : Nat) : Parse Header :=
  match i with
  | .pktOneRtt _ _ _ _ _ => ruleOneRtt (headerByteOf i) w p0
  | .pktVersionNegotiation _ => ruleVersionNegotiation (headerByteOf i) w p0
  | .pktInitial _ _ _ ver => ruleInitial (headerByteOf i) ver w p0
  | .pktZeroRtt _ _ _ ver => ruleZeroRtt (headerByteOf i) ver w p0
  | .pktHandshake _ _ _ ver => ruleHandshake (headerByteOf i) ver w p0
  | .pktRetry _ _ _ ver => ruleRetry (headerByteOf i) ver w p0
  | _ => raise .hdrEof p0

/-- A `PKT_PARSE` whose header is parsed by the given rule (R150). -/
def pktCommand (rule : Window → Nat → Parse Header) (pr : Params) (l : Lane) : Parse Lane := do
  let (w, p0) ← ibufWindow pr l
  let h ← rule w p0
  .ok (finishHeader h p0 w.lim l)

/-- `ParseHeader` (R152): the row the bytes select, run. -/
def parseHeader (w : Window) (p0 : Nat) : Parse Header := do
  let i ← fetchHeader w p0
  headerRule i w p0

/-- `PKT_PARSE` (R150). -/
def execPktParse (s : State) : Host.Outcome State Fault Refusal :=
  runCommand .pktParse 0x05 (pktCommand parseHeader) s

/-- `PKT_PARSE` on a OneRtt header (R165). -/
def execPktOneRtt (fixed spin : BitVec 1) (rsv : BitVec 2) (keyPhase : BitVec 1) (pnl : BitVec 2) (s : State) :
    Host.Outcome State Fault Refusal :=
  runCommand .pktParse 0x05 (pktCommand (ruleOneRtt (headerByteOf (.pktOneRtt fixed spin rsv keyPhase pnl)))) s

/-- `PKT_PARSE` on a VersionNegotiation header (R158). -/
def execPktVersionNegotiation (low : BitVec 7) (s : State) : Host.Outcome State Fault Refusal :=
  runCommand .pktParse 0x05 (pktCommand (ruleVersionNegotiation (headerByteOf (.pktVersionNegotiation low)))) s

/-- `PKT_PARSE` on an Initial header (R159). -/
def execPktInitial (fixed : BitVec 1) (rsv pnl : BitVec 2) (ver : BitVec 32) (s : State) :
    Host.Outcome State Fault Refusal :=
  runCommand .pktParse 0x05 (pktCommand (ruleInitial (headerByteOf (.pktInitial fixed rsv pnl ver)) ver)) s

/-- `PKT_PARSE` on a ZeroRTT header (R161). -/
def execPktZeroRtt (fixed : BitVec 1) (rsv pnl : BitVec 2) (ver : BitVec 32) (s : State) :
    Host.Outcome State Fault Refusal :=
  runCommand .pktParse 0x05 (pktCommand (ruleZeroRtt (headerByteOf (.pktZeroRtt fixed rsv pnl ver)) ver)) s

/-- `PKT_PARSE` on a Handshake header (R162). -/
def execPktHandshake (fixed : BitVec 1) (rsv pnl : BitVec 2) (ver : BitVec 32) (s : State) :
    Host.Outcome State Fault Refusal :=
  runCommand .pktParse 0x05 (pktCommand (ruleHandshake (headerByteOf (.pktHandshake fixed rsv pnl ver)) ver)) s

/-- `PKT_PARSE` on a Retry header (R163). -/
def execPktRetry (fixed : BitVec 1) (rsv pnl : BitVec 2) (ver : BitVec 32) (s : State) :
    Host.Outcome State Fault Refusal :=
  runCommand .pktParse 0x05 (pktCommand (ruleRetry (headerByteOf (.pktRetry fixed rsv pnl ver)) ver)) s

/-! ### The completion -/

/-- The record a completion publishes: that of `PEND` (R170). `PEND` holds one whenever a request is outstanding. -/
def pendingRecord (l : Lane) : Pkt :=
  match l.pend with
  | none => Pkt.zero
  | some k => k.pkt

/-- A successful completion (R170). -/
def completeOk (pt : List Byte) (l : Lane) : Lane :=
  { l.commit with
    creqOut := 0, creq := none, pbuf := Mem.writeAll l.pbuf 0 pt, pbufLen := BitVec.ofNat 32 pt.length,
    pkt := pendingRecord l,
    pay := { sel := .pbuf, start := 0, len := BitVec.ofNat 32 pt.length },
    fbuf := .pbuf, fcur := 0, fend := BitVec.ofNat 32 pt.length, fstate := .active, fres := .none,
    cur := l.pendLim.setWidth 64, pend := none }

/-- A failed completion (R171): error entry of the `PKT_PARSE`, at the end of the pending header. -/
def completeError (cause : ErrCause) (l : Lane) : Lane :=
  errorEntry .pktParse cause (pendingRecord l).hdrEnd.toNat { l with creqOut := 0, creq := none }

/-- A response arrives at a lane. It completes the outstanding request if it answers it (R170, R171); any other
response is consumed and has no effect (R172). A lane that a model fault has stopped completes nothing (R64). -/
def cryptoResponse (pr : Params) (r : CryptoResp) (l : Lane) : Lane :=
  if l.fault = none ∧ l.st = .busy ∧ l.creqOut = 1 ∧ r.id = l.creqId then
    match r.pt with
    | none => completeError .decryptFailed l
    | some pt => if pt.length ≤ pr.pbufCap.val then completeOk pt l else completeError .plaintext l
  else l

end Sys2Proof.Machine
end

