-- ==== Sys2Proof/Machine/Dispatch.lean ====
section
/-! DEFINITION. One arm per row of the opcode table: each calls the meaning of its instruction. -/

namespace Sys2Proof.Machine

def exec (i : Instr) (s : State) : Host.Outcome State Fault Refusal :=
  match i with
  | .nop => Sys2Proof.Machine.execNop s
  | .varintDec => Sys2Proof.Machine.execVarintDec s
  | .varintEnc => Sys2Proof.Machine.execVarintEnc s
  | .cidDec => Sys2Proof.Machine.execCidDec s
  | .pnDec => Sys2Proof.Machine.execPnDec s
  | .pktParse => Sys2Proof.Machine.execPktParse s
  | .frmOne => Sys2Proof.Machine.execFrmOne s
  | .fseqBegin => Sys2Proof.Machine.execFseqBegin s
  | .fseqNext => Sys2Proof.Machine.execFseqNext s
  | .clear => Sys2Proof.Machine.execClear s
  | .reserved0A low => Sys2Proof.Machine.execReserved0A low s
  | .reserved0C low => Sys2Proof.Machine.execReserved0C low s
  | .reserved10 low => Sys2Proof.Machine.execReserved10 low s
  | .reserved20 low => Sys2Proof.Machine.execReserved20 low s
  | .reserved40 low => Sys2Proof.Machine.execReserved40 low s
  | .reserved80 low => Sys2Proof.Machine.execReserved80 low s
  | .pktOneRtt fixed spin rsv keyPhase pnl => Sys2Proof.Machine.execPktOneRtt fixed spin rsv keyPhase pnl s
  | .pktVersionNegotiation low => Sys2Proof.Machine.execPktVersionNegotiation low s
  | .pktInitial fixed rsv pnl ver => Sys2Proof.Machine.execPktInitial fixed rsv pnl ver s
  | .pktZeroRtt fixed rsv pnl ver => Sys2Proof.Machine.execPktZeroRtt fixed rsv pnl ver s
  | .pktHandshake fixed rsv pnl ver => Sys2Proof.Machine.execPktHandshake fixed rsv pnl ver s
  | .pktRetry fixed rsv pnl ver => Sys2Proof.Machine.execPktRetry fixed rsv pnl ver s
  | .frmPadding => Sys2Proof.Machine.execFrmPadding s
  | .frmPing => Sys2Proof.Machine.execFrmPing s
  | .frmAck => Sys2Proof.Machine.execFrmAck s
  | .frmAckEcn => Sys2Proof.Machine.execFrmAckEcn s
  | .frmResetStream => Sys2Proof.Machine.execFrmResetStream s
  | .frmStopSending => Sys2Proof.Machine.execFrmStopSending s
  | .frmCrypto => Sys2Proof.Machine.execFrmCrypto s
  | .frmNewToken => Sys2Proof.Machine.execFrmNewToken s
  | .frmStream off len fin => Sys2Proof.Machine.execFrmStream off len fin s
  | .frmMaxData => Sys2Proof.Machine.execFrmMaxData s
  | .frmMaxStreamData => Sys2Proof.Machine.execFrmMaxStreamData s
  | .frmMaxStreams low => Sys2Proof.Machine.execFrmMaxStreams low s
  | .frmDataBlocked => Sys2Proof.Machine.execFrmDataBlocked s
  | .frmStreamDataBlocked => Sys2Proof.Machine.execFrmStreamDataBlocked s
  | .frmStreamsBlocked low => Sys2Proof.Machine.execFrmStreamsBlocked low s
  | .frmNewConnectionId => Sys2Proof.Machine.execFrmNewConnectionId s
  | .frmRetireConnectionId => Sys2Proof.Machine.execFrmRetireConnectionId s
  | .frmPathChallenge => Sys2Proof.Machine.execFrmPathChallenge s
  | .frmPathResponse => Sys2Proof.Machine.execFrmPathResponse s
  | .frmConnectionCloseQuic => Sys2Proof.Machine.execFrmConnectionCloseQuic s
  | .frmConnectionCloseApp => Sys2Proof.Machine.execFrmConnectionCloseApp s
  | .frmHandshakeDone => Sys2Proof.Machine.execFrmHandshakeDone s
  | .frmUnknown typ => Sys2Proof.Machine.execFrmUnknown typ s

end Sys2Proof.Machine
end

