-- ==== Sys2Proof/Machine/HostPort.lean ====
section
/-! DEFINITION. The host interface: the register map (R45 to R47), the host accesses (R66 to R70), and the delivery
of one event of the environment to its lane. -/

namespace Sys2Proof.Machine

/-! ### The register map -/

/-- A host read of the register at an offset (R45); reserved offsets read 0. -/
def readReg (l : Lane) (off : Nat) : Word :=
  match off with
  | 0x000 => l.lastCmd.setWidth 64
  | 0x008 => l.isServer.setWidth 64
  | 0x010 => l.ilen
  | 0x018 => l.cur
  | 0x020 => l.arg0
  | 0x028 => l.arg1
  | 0x030 => statusWord l
  | 0x038 => errWord l.err
  | 0x040 => l.rval
  | 0x048 => l.rcid.len.setWidth 64
  | 0x050 => packedWord l.rcid.b 0
  | 0x058 => packedWord l.rcid.b 1
  | 0x060 => packedWord l.rcid.b 2
  | 0x068 => l.olen.setWidth 64
  | 0x070 => packedWord l.obuf 0
  | 0x078 => creqWord l
  | 0x080 => pktInfoWord l.pkt
  | 0x088 => l.pkt.version.setWidth 64
  | 0x090 => l.pkt.pn.setWidth 64
  | 0x098 => l.pkt.length.setWidth 64
  | 0x0A0 => l.pkt.dcid.len.setWidth 64
  | 0x0A8 => packedWord l.pkt.dcid.b 0
  | 0x0B0 => packedWord l.pkt.dcid.b 1
  | 0x0B8 => packedWord l.pkt.dcid.b 2
  | 0x0C0 => l.pkt.scid.len.setWidth 64
  | 0x0C8 => packedWord l.pkt.scid.b 0
  | 0x0D0 => packedWord l.pkt.scid.b 1
  | 0x0D8 => packedWord l.pkt.scid.b 2
  | 0x0E0 => spanWord l.pkt.token.start l.pkt.token.len
  | 0x0E8 => l.pkt.tag.extractLsb' 64 64
  | 0x0F0 => l.pkt.tag.extractLsb' 0 64
  | 0x0F8 => spanWord l.pkt.vnlist.start l.pkt.vnlist.len
  | 0x100 => l.pkt.hdrEnd.setWidth 64
  | 0x108 => BitVec.ofNat 64 l.pay.sel.code
  | 0x110 => spanWord l.pay.start l.pay.len
  | 0x118 => l.pbufLen.setWidth 64
  | 0x120 => BitVec.ofNat 64 l.fbuf.code
  | 0x128 => l.fcur.setWidth 64
  | 0x130 => l.fend.setWidth 64
  | 0x138 => frmInfoWord l.frm
  | 0x140 => l.frm.typ.setWidth 64
  | 0x148 => l.frm.f0.setWidth 64
  | 0x150 => l.frm.f1.setWidth 64
  | 0x158 => l.frm.f2.setWidth 64
  | 0x160 => l.frm.f3.setWidth 64
  | 0x168 => l.frm.f4.setWidth 64
  | 0x170 => l.frm.f5.setWidth 64
  | 0x178 => l.frm.f6.setWidth 64
  | 0x180 => BitVec.ofNat 64 l.frm.data.sel.code
  | 0x188 => spanWord l.frm.data.start l.frm.data.len
  | 0x190 => l.frm.cid.len.setWidth 64
  | 0x198 => packedWord l.frm.cid.b 0
  | 0x1A0 => packedWord l.frm.cid.b 1
  | 0x1A8 => packedWord l.frm.cid.b 2
  | 0x1B0 => packedWord l.frm.srt 0
  | 0x1B8 => packedWord l.frm.srt 1
  | 0x1C0 => packedWord l.frm.pdata 0
  | 0x1C8 => l.frm.nranges.setWidth 64
  | _ => 0

/-- A host write to the register at an offset while the lane is not `BUSY`: a write to `CMD` issues the command
(R68), `CFG` takes bit 0, `ILEN`, `CUR`, `ARG0` and `ARG1` hold all that is written (R22, R47, 93 I15; log entry 3), and
every other register ignores the write (R47). -/
def writeReg (l : Lane) (off : Nat) (v : Word) : Lane :=
  match off with
  | 0x000 => { l with cmd := some v }
  | 0x008 => { l with isServer := v.extractLsb' 0 1 }
  | 0x010 => { l with ilen := v }
  | 0x018 => { l with cur := v }
  | 0x020 => { l with arg0 := v }
  | 0x028 => { l with arg1 := v }
  | _ => l

/-! ### Accesses -/

/-- A write while the lane is `BUSY` is dropped and sets `WDROP` (R69); else it has its effect. -/
def unlessBusy (effect : Lane → Lane) (l : Lane) : Lane :=
  if l.st = .busy then { l with wdrop := 1 } else effect l

/-- A host write with the given effect on the lane in focus. -/
def hostWrite (effect : Lane → Lane) (s : State) : Host.Outcome State Fault Refusal :=
  .next { s with lane := unlessBusy effect s.lane }

/-- A host read that returns `v` (R66, R67): no side effect on the lane. -/
def hostRead (v : Word) (s : State) : Host.Outcome State Fault Refusal := .next { s with reply := some v }

/-- A host read of a value the spec leaves open (I3): a free value, and the counter moves on. -/
def hostReadFree (v : Nat → Word) (s : State) : Host.Outcome State Fault Refusal :=
  .next { s with reply := some (v s.free), free := s.free + 1 }

/-- A free byte as a register value. -/
def freeByteWord (n : Nat) : Word := (Config.freeByte n).setWidth 64

/-- A free `ACKR` word as a register value. -/
def freeRangeWord (n : Nat) : Word := (Config.freeRange n).setWidth 64

/-- The word of an `ACKR` entry a host read names (R45). -/
def AckRange.word (r : AckRange) : AckWord → Word
  | .gap => r.gap.setWidth 64
  | .rlen => r.rlen.setWidth 64

/-- One host access to the lane in focus (R66 to R70). An access the interface does not define is refused before
`BUSY` is looked at (log entry 6), and `deliverAction` records the refusal. -/
def hostAccess (a : Access) (s : State) : Host.Outcome State Fault Refusal :=
  match a with
  | .regRead off width =>
    if width ≠ 64 then .refused (.regWidth width)
    else if off % 8 ≠ 0 then .refused (.regOffset off)
    else hostRead (readReg s.lane off) s
  | .regWrite off width v =>
    if width ≠ 64 then .refused (.regWidth width)
    else if off % 8 ≠ 0 then .refused (.regOffset off)
    else hostWrite (fun l => writeReg l off v) s
  | .ibufRead off width =>
    if width ≠ 8 then .refused (.bufWidth width)
    else if s.params.ibufCap.val ≤ off then .refused (.bufRange off)
    else
      match Mem.read s.lane.ibuf off with
      | some b => hostRead (b.setWidth 64) s
      | none => hostReadFree freeByteWord s
  | .ibufWrite off width v =>
    if width ≠ 8 then .refused (.bufWidth width)
    else if s.params.ibufCap.val ≤ off then .refused (.bufRange off)
    else hostWrite (fun l => { l with ibuf := Mem.write l.ibuf off v }) s
  | .pbufRead off width =>
    if width ≠ 8 then .refused (.bufWidth width)
    else if s.params.pbufCap.val ≤ off then .refused (.bufRange off)
    else if off < s.lane.pbufLen.toNat then
      match Mem.read s.lane.pbuf off with
      | some b => hostRead (b.setWidth 64) s
      | none => hostReadFree freeByteWord s
    else hostReadFree freeByteWord s
  | .pbufWrite _ _ _ => .refused .pbufWrite
  | .ackrRead idx word width =>
    if width ≠ 64 then .refused (.ackrWidth width)
    else
      match s.params.ackCap with
      | none => ackRead idx word
      | some n => if n ≤ idx then .refused (.ackrRange idx) else ackRead idx word
  | .ackrWrite _ _ _ => .refused .ackrWrite
where
  /-- A read of an entry the file has: a result below `NRANGES`, any value above (R42, I3). -/
  ackRead (idx : Nat) (word : AckWord) : Host.Outcome State Fault Refusal :=
    if idx < s.lane.frm.nranges.toNat then
      match s.lane.ackr[idx]? with
      | some r => hostRead (r.word word) s
      | none => hostReadFree freeRangeWord s
    else hostReadFree freeRangeWord s

/-! ### Events -/

/-- The lane's reset input (R270): every state of the lane takes its reset value; a model fault recorded on it stays
(R11; log entry 5). -/
def Lane.restart (l : Lane) : Lane := { Lane.reset with fault := l.fault }

/-- Records the refusal of an event for lane `k` (R11, R70): the mark joins those before it, the event returns nothing,
and nothing else changes (log entry 6). -/
def State.refuse (k : Nat) (r : Refusal) (s : State) : State :=
  { s with reply := none, refusals := s.refusals ++ [(k, r)] }

/-- What the block makes of a host access (R11): a refusal is a mark, and the run goes on. -/
def recordRefusal (s : State) : Host.Outcome State Fault Refusal → Host.Outcome State Fault Refusal
  | .next t => .next t
  | .fault f => .fault f
  | .refused r => .next (s.refuse s.sel r)

/-- One action on the lane in focus: a host access, a response of the Crypto agent (R170 to R172), or the lane's
reset (R270), which abandons an outstanding request (R271). -/
def deliverAction (a : Action) (s : State) : Host.Outcome State Fault Refusal :=
  match a with
  | .host a => recordRefusal s (hostAccess a s)
  | .crypto r => .next { s with lane := cryptoResponse s.params r s.lane }
  | .reset => .next { s with lane := s.lane.restart }

/-- One event: its lane comes into focus and the action happens there (R71; log entries 1 and 13); an event for a lane
the block does not have leaves its refusal mark. -/
def deliver (e : Event) (s : State) : Host.Outcome State Fault Refusal :=
  match focus e.lane s with
  | none => .next (s.refuse e.lane (.noSuchLane e.lane))
  | some s => deliverAction e.act s

/-- The lane's own next step, or the environment's (R68, R71): an issued command is executed before anything else;
with no command issued the oldest event is delivered; with no event the block waits (R60, R255). -/
def waitStep (s : State) : Host.Outcome State Fault Refusal :=
  match s.inbox with
  | [] => .next s
  | e :: rest => deliver e { s with inbox := rest }

/-- The instruction the next step executes: the command issued to the lane in focus, if there is one and
the lane has not been stopped (R64, R68, R73). -/
def fetch (s : State) : Option Instr := s.lane.issued.map decodeCommand

end Sys2Proof.Machine
end

