-- ==== Sys2Proof/Machine/Step.lean ====
section
/-! DEFINITION. One step of the machine, and where it fetches its next instruction. -/

namespace Sys2Proof.Machine

/-- One step: the command issued to the lane in focus is executed, and a model fault it reaches stops that lane (R64,
R68, R120); with none to execute, the environment's next event happens. -/
def step (s : State) : Host.Outcome State Fault Refusal :=
  match fetch s with
  | some i => recordFault s (exec i s)
  | none => waitStep s

/-- The state whose next step runs the instruction of a table word (log entries 9 and 10). An opcode is issued to
the lane in focus. A `FRAME_TYPE` word is placed, with operand bytes of zero after it, as the window of an issued
`FRM_ONE`. -/
def State.withFetchWord (s : State) (nbits w : Nat) : State :=
  if nbits ≤ 8 then { s with lane := { s.lane with cmd := some (BitVec.ofNat 64 w) } }
  else
    { s with lane := { s.lane with
        cmd := some 0x06, cur := 0, ilen := 32,
        ibuf := Mem.writeAll s.lane.ibuf 0 (padBytes 32 (frameWordBytes w)) } }

end Sys2Proof.Machine
end

