-- ==== Sys2Proof/Safety.lean ====
section
/-! DEFINITION. What the claims are stated in: when a command's window is in order and readable, and the invariants
of a lane and of the block. Each invariant rules out only states that no run from reset reaches. -/

namespace Sys2Proof.Machine

/-! ### Windows -/

/-- The bytes of `bs` stand in the window's buffer from `p` up. -/
def Window.holds (w : Window) : Nat → List Byte → Prop
  | _, [] => True
  | p, b :: bs => Mem.read w.mem p = some b ∧ Window.holds w (p + 1) bs

/-- The window `(IBUF, CUR, ILEN)` of the lane in focus (R27). -/
def hostWindow (s : State) : Window := { sel := .ibuf, mem := s.lane.ibuf, lim := low32 s.lane.ilen }

/-- The cursor passes the precheck (R250). -/
abbrev CursorOk (s : State) : Prop :=
  low32 s.lane.ilen ≤ s.params.ibufCap.val ∧ low32 s.lane.cur ≤ low32 s.lane.ilen

/-- The window `(FBUF, FCUR, FEND)` of the frame sequence (R37, R194). -/
def sequenceWindow (s : State) : Window :=
  { sel := s.lane.fbuf, mem := s.lane.buffer s.lane.fbuf, lim := s.lane.fend.toNat }

/-- The frame command being executed has `w` as its window and parses from `p`: for `FRM_ONE` the host window after
the precheck (R192), for `FSEQ_NEXT` the sequence's (R194). -/
abbrev FrameAt (s : State) (w : Window) (p : Nat) : Prop :=
  match frameCmdOf s with
  | .one => CursorOk s ∧ w = hostWindow s ∧ p = low32 s.lane.cur
  | .next => w = sequenceWindow s ∧ p = s.lane.fcur.toNat

/-- The state after the frame command being executed has committed the record `f`, the pairs `rs` and the position
`p` (R192, R194): `FRM_ONE` moves `CUR` (its bits 63:32 become 0 by log entry 3, the model's reading), `FSEQ_NEXT` moves
`FCUR`. -/
def frameCommitted (s : State) (f : Frm) (rs : List AckRange) (p : Nat) : State :=
  match frameCmdOf s with
  | .one =>
    { s with lane := { s.lane with
        cmd := none, lastCmd := 0x06, frm := f, ackr := rs ++ s.lane.ackr.drop rs.length, cur := BitVec.ofNat 64 p,
        fres := .frame, err := .clear, st := .done } }
  | .next =>
    { s with lane := { s.lane with
        cmd := none, lastCmd := 0x08, frm := f, ackr := rs ++ s.lane.ackr.drop rs.length, fcur := BitVec.ofNat 32 p,
        fres := .frame, err := .clear, st := .done } }

/-- The state after the frame command being executed has raised `cause` at `pos` (R245): `FRM_ONE` leaves `CUR`, and
`FSEQ_NEXT` leaves `FCUR` and fails the sequence. -/
def frameFailed (s : State) (cause : ErrCause) (pos : Nat) : State :=
  match frameCmdOf s with
  | .one =>
    { s with lane := { s.lane with
        cmd := none, lastCmd := 0x06, frm := Frm.zero, fres := .error,
        err := .raised cause (BitVec.ofNat 32 pos) .ibuf, st := .error } }
  | .next =>
    { s with lane := { s.lane with
        cmd := none, lastCmd := 0x08, frm := Frm.zero, fres := .error, fstate := .failed,
        err := .raised cause (BitVec.ofNat 32 pos) s.lane.fbuf, st := .error } }

/-- The state after a `PKT_PARSE` has published the record `k` of a packet without payload (R174): the whole window is
consumed and the frame sequence has ended. Bits 63:32 of `CUR` become 0: log entry 3, the model's reading. -/
def packetPublished (s : State) (k : Pkt) : State :=
  { s with lane := { s.lane with
      cmd := none, lastCmd := 0x05, pkt := k, pay := Slice.zero, pbufLen := 0, frm := Frm.zero, fstate := .ended,
      fbuf := .none, fcur := 0, fend := 0, fres := .none, cur := BitVec.ofNat 64 (low32 s.lane.ilen), err := .clear,
      st := .done } }

/-- The state after a `PKT_PARSE` has issued the Crypto request for the record `k`, whose header ends at `h` (R74,
R167): the request holds the record's fields and names the header and every byte after it, the record waits in `PEND`
with the payload as received (log entry 14, the model's reading), no result is visible and the lane is `BUSY`. -/
def packetIssued (s : State) (k : Pkt) (epoch : Epoch) (h : Nat) : State :=
  { s with lane := { s.lane with
      cmd := none, lastCmd := 0x05, creqId := s.lane.creqId + 1, creqOut := 1,
      creq := some
        { id := s.lane.creqId + 1, epoch := epoch, dcid := k.dcid, version := k.version, isServer := s.lane.isServer,
          keyPhase := k.keyPhase, pn := k.pn, pnLen := k.pnLen,
          hdr := { sel := .ibuf, start := BitVec.ofNat 32 (low32 s.lane.cur),
                   len := BitVec.ofNat 32 (h - low32 s.lane.cur) },
          ct := { sel := .ibuf, start := BitVec.ofNat 32 h, len := BitVec.ofNat 32 (low32 s.lane.ilen - h) } },
      pend := some
        { pkt := k,
          pay := { sel := .ibuf, start := BitVec.ofNat 32 h, len := BitVec.ofNat 32 (low32 s.lane.ilen - h) } },
      pendLim := BitVec.ofNat 32 (low32 s.lane.ilen), pkt := Pkt.zero, pay := Slice.zero, pbufLen := 0,
      frm := Frm.zero, fstate := .inactive, fbuf := .none, fcur := 0, fend := 0, fres := .none, err := .clear,
      st := .busy } }

/-- The state after a `PKT_PARSE` has raised `cause` at `pos` (R245): no packet, no payload, no sequence. -/
def packetFailed (s : State) (cause : ErrCause) (pos : Nat) : State :=
  { s with lane := { s.lane with
      cmd := none, lastCmd := 0x05, pkt := Pkt.zero, pend := none, pay := Slice.zero, pbufLen := 0, frm := Frm.zero,
      fstate := .inactive, fbuf := .none, fcur := 0, fend := 0, fres := .none,
      err := .raised cause (BitVec.ofNat 32 pos) .ibuf, st := .error } }

/-- The VarInt at `p` does not fit the window: no byte is left, or fewer than its class takes (R122). -/
def VarIntShort (w : Window) (p : Nat) : Prop :=
  w.lim ≤ p ∨ ∃ b0, p < w.lim ∧ Mem.read w.mem p = some b0 ∧ w.lim < p + 2 ^ (b0.extractLsb' 6 2).toNat

/-- Of `n` VarInts in a row from `p`, the first that does not fit the window starts at `q`; those before it are read. -/
def VarIntsShort (w : Window) : Nat → Nat → Nat → Prop
  | 0, _, _ => False
  | n + 1, p, q => (VarIntShort w p ∧ q = p) ∨ ∃ v p1, readVar w p = .ok (v, p1) ∧ VarIntsShort w n p1 q

/-- The ConnectionId at `p` fails with `cause` (R128, R130): no length byte, a length above 20 whatever follows, or fewer
bytes than the length. -/
def CidFails (w : Window) (p : Nat) (cause : ErrCause) : Prop :=
  (w.lim ≤ p ∧ cause = .cidLenEof) ∨
  ∃ len, p < w.lim ∧ Mem.read w.mem p = some len ∧
    ((20 < len.toNat ∧ cause = .cidTooLong) ∨ (len.toNat ≤ 20 ∧ w.lim < p + 1 + len.toNat ∧ cause = .cidEof))

/-- The part common to all long headers fails with `cause` at `pos` (R152, R155): no first byte, fewer than four version
bytes, or one of the two connection IDs. -/
def LongHeaderFails (w : Window) (p0 : Nat) (cause : ErrCause) (pos : Nat) : Prop :=
  (w.lim ≤ p0 ∧ cause = .hdrEof ∧ pos = p0) ∨
  (p0 < w.lim ∧ w.lim < p0 + 5 ∧ cause = .versionEof ∧ pos = p0 + 1) ∨
  (p0 + 5 ≤ w.lim ∧ ((CidFails w (p0 + 5) cause ∧ pos = p0 + 5) ∨
    ∃ dcid p1, decodeCid w (p0 + 5) = .ok (dcid, p1) ∧ CidFails w p1 cause ∧ pos = p1))

/-- Byte `a` is the first byte of the window's buffer from `p` up that nothing has written (R64). -/
def FirstUnwritten (w : Window) (p a : Nat) : Prop :=
  p ≤ a ∧ Mem.read w.mem a = none ∧ ∀ b, p ≤ b → b < a → (Mem.read w.mem b).isSome = true

/-- The VarInt at `p` fits the window and has byte `a` (R122): its first byte, or one its class takes. -/
def VarIntReads (w : Window) (p a : Nat) : Prop :=
  p < w.lim ∧ (a = p ∨ ∃ b0, Mem.read w.mem p = some b0 ∧ p + 2 ^ (b0.extractLsb' 6 2).toNat ≤ w.lim ∧
    a < p + 2 ^ (b0.extractLsb' 6 2).toNat)

/-- The ConnectionId at `p` fits the window and has byte `a` (R128): its length byte, or one of its bytes. -/
def CidReads (w : Window) (p a : Nat) : Prop :=
  p < w.lim ∧ (a = p ∨ ∃ len, Mem.read w.mem p = some len ∧ len.toNat ≤ 20 ∧ p + 1 + len.toNat ≤ w.lim ∧
    a < p + 1 + len.toNat)

/-- The bytes of `PKT_PARSE` that select its row have byte `a` (R152, R155): the first byte, or a version byte of a long
header. -/
def SelectionReads (w : Window) (p a : Nat) : Prop :=
  p < w.lim ∧ (a = p ∨ ∃ b0, Mem.read w.mem p = some b0 ∧ b0.getLsbD 7 = true ∧ p + 5 ≤ w.lim ∧ a < p + 5)

/-- The pairs of an Ack frame stand in the window from `p` up, and end at `q` (R199). -/
def PairsAt (w : Window) : Nat → List AckRange → Nat → Prop
  | p, [], q => q = p
  | p, r :: rs, q => ∃ p1 p2, readVar w p = .ok (r.gap, p1) ∧ readVar w p1 = .ok (r.rlen, p2) ∧ PairsAt w p2 rs q

/-- `FSEQ_NEXT`, `n` times, as long as each answers a next state (R194). -/
def fseqNextTimes : Nat → State → Host.Outcome State Fault Refusal
  | 0, s => .next s
  | n + 1, s =>
    match exec .fseqNext s with
    | .next t => fseqNextTimes n t
    | .fault f => .fault f
    | .refused r => .refused r

/-- Every byte of the window has been written (R64). -/
def Window.written (w : Window) (p : Nat) : Prop := ∀ a, p ≤ a → a < w.lim → (Mem.read w.mem a).isSome = true

/-! ### Invariants of a lane -/

/-- The buffers: canonical, inside their capacities, and the plaintext all written (R21, R44, R62). -/
structure MemoryInv (pr : Params) (l : Lane) : Prop where
  ibufCanonical : Mem.wf l.ibuf = true
  pbufCanonical : Mem.wf l.pbuf = true
  ibufInside : ∀ c ∈ l.ibuf, c.1 < pr.ibufCap.val
  pbufInside : ∀ c ∈ l.pbuf, c.1 < pr.pbufCap.val
  plaintextWritten : ∀ a, a < l.pbufLen.toNat → (Mem.read l.pbuf a).isSome = true

/-- The Crypto request: outstanding exactly while the lane is `BUSY`, with its record kept and no result visible; a
command is never pending on a `BUSY` lane; and `ERR` is set exactly when `ST` is `ERROR` (R25, R26, R43, R69, R273). -/
structure ProtocolInv (l : Lane) : Prop where
  outstanding : l.st = .busy ↔ l.creqOut = 1
  pendKept : l.pend.isSome = true ↔ l.creqOut = 1
  requestKept : l.creq.isSome = true ↔ l.creqOut = 1
  requestTag : ∀ r, l.creq = some r → r.id = l.creqId
  noneIssued : l.st = .busy → l.cmd = none
  hidden : l.st = .busy → l.pkt = Pkt.zero ∧ l.pay = Slice.zero ∧ l.pbufLen = 0 ∧ l.frm = Frm.zero ∧
    l.fstate = .inactive ∧ l.fres = .none
  errorShown : l.st = .error ↔ l.err ≠ .clear

/-- The frame sequence: its window lies inside its buffer and its position inside the window (R37). -/
structure SequenceInv (pr : Params) (l : Lane) : Prop where
  inside : l.fcur.toNat ≤ l.fend.toNat
  ofIbuf : l.fbuf = .ibuf → l.fend.toNat ≤ pr.ibufCap.val
  ofPbuf : l.fbuf = .pbuf → l.fend = l.pbufLen
  ofNone : l.fbuf = .none → l.fend = 0
  active : l.fstate = .active → l.fbuf ≠ .none
  inactive : l.fstate = .inactive → l.fbuf = .none

/-- A CID register: a length of at most 20, 20 bytes, and zeros after the length (R29). -/
structure CidInv (c : Cid) : Prop where
  short : c.len.toNat ≤ 20
  size : c.b.length = 20
  tail : c.b.drop c.len.toNat = List.replicate (20 - c.len.toNat) 0

/-- The result records: CID registers in form, byte fields at their sizes, `NRANGES` counting entries that `ACKR` has,
`ACKR` within its capacity, and `PAY` naming no payload or all of the plaintext (R29, R31, R35, R39, R42). -/
structure RecordInv (pr : Params) (l : Lane) : Prop where
  rcid : CidInv l.rcid
  dcid : CidInv l.pkt.dcid
  scid : CidInv l.pkt.scid
  frmCid : CidInv l.frm.cid
  pendCids : ∀ k, l.pend = some k → CidInv k.pkt.dcid ∧ CidInv k.pkt.scid
  obufSize : l.obuf.length = 8
  srtSize : l.frm.srt.length = 16
  pdataSize : l.frm.pdata.length = 8
  ranges : l.frm.nranges.toNat ≤ l.ackr.length
  ackrFits : ∀ n, pr.ackCap = some n → l.ackr.length ≤ n
  payload : l.pay = Slice.zero ∨ l.pay = { sel := .pbuf, start := 0, len := l.pbufLen }

/-! ### The block -/

/-- A property of every lane of the block. -/
def EveryLane (P : Lane → Prop) (s : State) : Prop := P s.lane ∧ ∀ x ∈ s.parked, P x.2

/-- The lanes are numbered without repeats and the parked ones have no command to execute (R20; log entry 13). -/
structure LanesInv (s : State) : Prop where
  rising : (s.parked.map Prod.fst).Pairwise (· < ·)
  apart : s.sel ∉ s.parked.map Prod.fst
  idle : ∀ x ∈ s.parked, x.2.issued = none

/-- The lane the next step belongs to: the one in focus when it has a command to execute or nothing is pending, else
the one of the oldest event. -/
def nextLane (s : State) : Nat :=
  match s.lane.issued, s.inbox with
  | none, e :: _ => e.lane
  | _, _ => s.sel

end Sys2Proof.Machine
end

