-- ==== Sys2Proof/Certificates/Slice0/Obligations.lean ====
section
/-! DEFINITION. The statements for the provers. Each docstring says which rules of the spec the statement formalises.
Where a statement is about every choice of the OPEN parameters (R5), they are in the state. -/

open Sys2Proof Sys2Proof.Machine

/-! ### Encodings -/

/-- Decode and encode agree (R94 to R103, R110): the bytes of a well-formed row, whatever follows them, decode to that
row with every operand, and leave what follows. -/
def Obligations.DecodeInvertsEncode : Prop :=
  ∀ (i : Instr) (rest : List Byte), i.wellFormed = true → decode (spaceOf i) (encode i ++ rest) = .ok (i, rest)

/-- A decoded row is well formed, of the format asked for, and its field lies in the row's mask and pattern of the
opcode table (R99, R101, R110). For opcodes and headers the bytes are the row's encoding, so each word has one meaning; a
frame type may be written in a wider class (R91), and the row's field is the value of the VarInt that was read (R122). -/
def Obligations.DecodedRowIsUnique : Prop :=
  ∀ (sp : Space) (bs rest : List Byte) (i : Instr), decode sp bs = .ok (i, rest) →
    i.wellFormed = true ∧ spaceOf i = sp ∧ fieldOf i &&& (rowOf i).mask = (rowOf i).pat ∧
      (sp ≠ .frame → encode i ++ rest = bs) ∧
      (sp = .frame → ∃ (b0 : Byte) (more : List Byte), bs = b0 :: more ++ rest ∧
        more.length + 1 = 2 ^ (b0.extractLsb' 6 2).toNat ∧ fieldOf i = beNat ((b0 &&& 0x3F#8) :: more))

/-- Words written out from the spec's encodings decode to their rows (R90, R94, R95, R99, R102, R110). -/
def Obligations.SampleWordsDecode : Prop :=
  decode .command [0x05#8] = .ok (.pktParse, []) ∧
  decode .command [0x0B#8] = .ok (.reserved0A 1, []) ∧
  decode .header [0xC1#8, 0, 0, 0, 1] = .ok (.pktInitial 1 0 1 1, []) ∧
  decode .header [0xB3#8, 0, 0, 0, 0, 0x2A] = .ok (.pktVersionNegotiation 0x33, [0x2A]) ∧
  decode .header [0x47#8] = .ok (.pktOneRtt 1 0 0 1 3, []) ∧
  decode .frame [0x40#8, 0x01] = .ok (.frmPing, []) ∧
  decode .frame [0x0B#8] = .ok (.frmStream 0 1 1, []) ∧
  decode .frame [0x1F#8, 0x00] = .ok (.frmUnknown 0x1F, [0x00]) ∧
  decode .frame [0xFF#8] = .error .shortType

/-- The header state machine picks the row (R152, R155, R156, R157): an empty window raises `HDR_EOF`; a first byte with
bit 7 clear runs the short header's row; with bit 7 set, fewer than four bytes after it raise `VERSION_EOF`, the version 0
runs VersionNegotiation whatever the type bits, and another version runs the row of `b0[5:4]`. `PKT_PARSE` is that row's
whole step. -/
def Obligations.PktParseRunsSelectedRow : Prop :=
  ∀ s : State, CursorOk s →
    (low32 s.lane.cur = low32 s.lane.ilen →
      exec .pktParse s = .next (packetFailed s .hdrEof (low32 s.lane.cur))) ∧
    ∀ b0 : Byte, low32 s.lane.cur < low32 s.lane.ilen → Mem.read s.lane.ibuf (low32 s.lane.cur) = some b0 →
    (b0.getLsbD 7 = false →
      exec .pktParse s = exec (.pktOneRtt (b0.extractLsb' 6 1) (b0.extractLsb' 5 1) (b0.extractLsb' 3 2)
        (b0.extractLsb' 2 1) (b0.extractLsb' 0 2)) s) ∧
    (b0.getLsbD 7 = true → low32 s.lane.ilen < low32 s.lane.cur + 5 →
      exec .pktParse s = .next (packetFailed s .versionEof (low32 s.lane.cur + 1))) ∧
    (∀ v3 v2 v1 v0 : Byte, b0.getLsbD 7 = true → low32 s.lane.cur + 5 ≤ low32 s.lane.ilen →
      (hostWindow s).holds (low32 s.lane.cur + 1) [v3, v2, v1, v0] →
      ∀ ver : BitVec 32, ver = v3 ++ v2 ++ v1 ++ v0 →
      (ver = 0 → exec .pktParse s = exec (.pktVersionNegotiation (b0.extractLsb' 0 7)) s) ∧
      (ver ≠ 0 → b0.extractLsb' 4 2 = 0 →
        exec .pktParse s = exec (.pktInitial (b0.extractLsb' 6 1) (b0.extractLsb' 2 2) (b0.extractLsb' 0 2) ver) s) ∧
      (ver ≠ 0 → b0.extractLsb' 4 2 = 1 →
        exec .pktParse s = exec (.pktZeroRtt (b0.extractLsb' 6 1) (b0.extractLsb' 2 2) (b0.extractLsb' 0 2) ver) s) ∧
      (ver ≠ 0 → b0.extractLsb' 4 2 = 2 →
        exec .pktParse s = exec (.pktHandshake (b0.extractLsb' 6 1) (b0.extractLsb' 2 2) (b0.extractLsb' 0 2) ver) s) ∧
      (ver ≠ 0 → b0.extractLsb' 4 2 = 3 →
        exec .pktParse s = exec (.pktRetry (b0.extractLsb' 6 1) (b0.extractLsb' 2 2) (b0.extractLsb' 0 2) ver) s))

/-! ### The codec and control commands -/

/-- The VarInt round trip (R125): every accepted encoding, wherever it stands in a window, decodes to its value and
consumes exactly its bytes. -/
def Obligations.VarIntDecodesWhatItEncodes : Prop :=
  ∀ (v r p : Nat) (bs : List Byte) (w : Window), encodeVarInt v r = .ok bs → w.holds p bs → p + bs.length ≤ w.lim →
    decodeVarInt w p = .ok (v, p + bs.length)

/-- `EncodeVarInt` (R126): the class `c` is the least that fits for the request 0 and `r - 1` for a request 1 to 4; the
bytes are `2^c` long and their big-endian value is `v` under the class bits; every other value or request raises. -/
def Obligations.VarIntEncodingChosen : Prop :=
  ∀ v r : Nat,
    (v < 2 ^ 62 → r = 0 →
      ∃ c bs, encodeVarInt v r = .ok bs ∧ c < 4 ∧ v < 2 ^ (8 * 2 ^ c - 2) ∧
        (∀ d, d < c → ¬ v < 2 ^ (8 * 2 ^ d - 2)) ∧ bs.length = 2 ^ c ∧ beNat bs = v + c * 2 ^ (8 * 2 ^ c - 2)) ∧
    (v < 2 ^ 62 → 1 ≤ r → r ≤ 4 → v < 2 ^ (8 * 2 ^ (r - 1) - 2) →
      ∃ bs, encodeVarInt v r = .ok bs ∧ bs.length = 2 ^ (r - 1) ∧
        beNat bs = v + (r - 1) * 2 ^ (8 * 2 ^ (r - 1) - 2)) ∧
    ((2 ^ 62 ≤ v ∨ 4 < r ∨ (1 ≤ r ∧ ¬ v < 2 ^ (8 * 2 ^ (r - 1) - 2))) → encodeVarInt v r = raise .badArg 0)

/-- `VARINT_DEC` (R122, R123): with a whole VarInt at the cursor it commits the value and moves the cursor past it; with
an empty window, or one shorter than the class's length, it raises `VARINT_EOF` at the cursor and clears `RVAL`; with a
bad cursor it raises `BAD_CURSOR`. Nothing else of the state changes. Bits 63:32 of `CUR` after the commit: log entry 3,
the model's reading. -/
def Obligations.VarintDecResult : Prop :=
  ∀ s : State,
    (∀ (b0 : Byte) (rest : List Byte) (n : Nat), CursorOk s → n = 2 ^ (b0.extractLsb' 6 2).toNat →
      (hostWindow s).holds (low32 s.lane.cur) (b0 :: rest) → rest.length + 1 = n →
      low32 s.lane.cur + n ≤ low32 s.lane.ilen →
      exec .varintDec s = .next { s with lane := { s.lane with
        cmd := none, lastCmd := 0x01, rval := BitVec.ofNat 64 (beNat ((b0 &&& 0x3F#8) :: rest)),
        cur := BitVec.ofNat 64 (low32 s.lane.cur + n), err := .clear, st := .done } }) ∧
    (CursorOk s → (low32 s.lane.cur = low32 s.lane.ilen ∨
        ∃ b0, low32 s.lane.cur < low32 s.lane.ilen ∧ Mem.read s.lane.ibuf (low32 s.lane.cur) = some b0 ∧
          low32 s.lane.ilen < low32 s.lane.cur + 2 ^ (b0.extractLsb' 6 2).toNat) →
      exec .varintDec s = .next { s with lane := { s.lane with
        cmd := none, lastCmd := 0x01, rval := 0,
        err := .raised .varintEof (BitVec.ofNat 32 (low32 s.lane.cur)) .ibuf, st := .error } }) ∧
    (¬ CursorOk s →
      exec .varintDec s = .next { s with lane := { s.lane with
        cmd := none, lastCmd := 0x01, rval := 0,
        err := .raised .badCursor (BitVec.ofNat 32 (low32 s.lane.cur)) .ibuf, st := .error } })

/-- `VARINT_ENC` (R127): the encoding goes to `OBUF` with zeros after it; an `ARG0` of 2^62 or more, a request above 4,
or a class that cannot hold `ARG0` raises `BAD_ARG` and clears `OBUF` and `OLEN`. -/
def Obligations.VarintEncResult : Prop :=
  ∀ s : State,
    (∀ bs, encodeVarInt s.lane.arg0.toNat s.lane.arg1.toNat = .ok bs →
      exec .varintEnc s = .next { s with lane := { s.lane with
        cmd := none, lastCmd := 0x02, obuf := bs ++ List.replicate (8 - bs.length) 0,
        olen := BitVec.ofNat 4 bs.length, err := .clear, st := .done } }) ∧
    ((2 ^ 62 ≤ s.lane.arg0.toNat ∨ 4 < s.lane.arg1.toNat ∨
        (1 ≤ s.lane.arg1.toNat ∧ ¬ s.lane.arg0.toNat < 2 ^ (8 * 2 ^ (s.lane.arg1.toNat - 1) - 2))) →
      exec .varintEnc s = .next { s with lane := { s.lane with
        cmd := none, lastCmd := 0x02, obuf := List.replicate 8 0, olen := 0,
        err := .raised .badArg 0 .none, st := .error } })

/-- `CID_DEC` (R128, R129, R130): a length of 0 to 20 with that many bytes after it commits; a missing length byte, a
length above 20 (whatever follows it) and missing bytes raise, in that order, and clear `RCID`. Bits 63:32 of `CUR`
after the commit: log entry 3, the model's reading. -/
def Obligations.CidDecResult : Prop :=
  ∀ s : State,
    (∀ (len : Byte) (bs : List Byte), CursorOk s → (hostWindow s).holds (low32 s.lane.cur) (len :: bs) →
      bs.length = len.toNat → len.toNat ≤ 20 → low32 s.lane.cur + 1 + len.toNat ≤ low32 s.lane.ilen →
      exec .cidDec s = .next { s with lane := { s.lane with
        cmd := none, lastCmd := 0x03,
        rcid := { len := BitVec.ofNat 5 len.toNat, b := bs ++ List.replicate (20 - bs.length) 0 },
        cur := BitVec.ofNat 64 (low32 s.lane.cur + 1 + len.toNat), err := .clear, st := .done } }) ∧
    (CursorOk s → low32 s.lane.cur = low32 s.lane.ilen →
      exec .cidDec s = .next { s with lane := { s.lane with
        cmd := none, lastCmd := 0x03, rcid := Cid.zero,
        err := .raised .cidLenEof (BitVec.ofNat 32 (low32 s.lane.cur)) .ibuf, st := .error } }) ∧
    (∀ len : Byte, CursorOk s → low32 s.lane.cur < low32 s.lane.ilen →
      Mem.read s.lane.ibuf (low32 s.lane.cur) = some len → 20 < len.toNat →
      exec .cidDec s = .next { s with lane := { s.lane with
        cmd := none, lastCmd := 0x03, rcid := Cid.zero,
        err := .raised .cidTooLong (BitVec.ofNat 32 (low32 s.lane.cur)) .ibuf, st := .error } }) ∧
    (∀ len : Byte, CursorOk s → low32 s.lane.cur < low32 s.lane.ilen →
      Mem.read s.lane.ibuf (low32 s.lane.cur) = some len → len.toNat ≤ 20 →
      low32 s.lane.ilen < low32 s.lane.cur + 1 + len.toNat →
      exec .cidDec s = .next { s with lane := { s.lane with
        cmd := none, lastCmd := 0x03, rcid := Cid.zero,
        err := .raised .cidEof (BitVec.ofNat 32 (low32 s.lane.cur)) .ibuf, st := .error } }) ∧
    (¬ CursorOk s →
      exec .cidDec s = .next { s with lane := { s.lane with
        cmd := none, lastCmd := 0x03, rcid := Cid.zero,
        err := .raised .badCursor (BitVec.ofNat 32 (low32 s.lane.cur)) .ibuf, st := .error } })

/-- `PN_DEC` (R131, R132): `ARG0` bytes, 1 to 4, big-endian and zero-extended; the precheck comes first, then the width,
then the bytes. Bits 63:32 of `CUR` after the commit: log entry 3, the model's reading. -/
def Obligations.PnDecResult : Prop :=
  ∀ s : State,
    (∀ bs : List Byte, CursorOk s → 1 ≤ s.lane.arg0.toNat → s.lane.arg0.toNat ≤ 4 →
      (hostWindow s).holds (low32 s.lane.cur) bs → bs.length = s.lane.arg0.toNat →
      low32 s.lane.cur + bs.length ≤ low32 s.lane.ilen →
      exec .pnDec s = .next { s with lane := { s.lane with
        cmd := none, lastCmd := 0x04, rval := BitVec.ofNat 64 (beNat bs),
        cur := BitVec.ofNat 64 (low32 s.lane.cur + bs.length), err := .clear, st := .done } }) ∧
    (CursorOk s → (s.lane.arg0.toNat < 1 ∨ 4 < s.lane.arg0.toNat) →
      exec .pnDec s = .next { s with lane := { s.lane with
        cmd := none, lastCmd := 0x04, rval := 0,
        err := .raised .badArg (BitVec.ofNat 32 (low32 s.lane.cur)) .ibuf, st := .error } }) ∧
    (CursorOk s → 1 ≤ s.lane.arg0.toNat → s.lane.arg0.toNat ≤ 4 →
      low32 s.lane.ilen < low32 s.lane.cur + s.lane.arg0.toNat →
      exec .pnDec s = .next { s with lane := { s.lane with
        cmd := none, lastCmd := 0x04, rval := 0,
        err := .raised .pnEof (BitVec.ofNat 32 (low32 s.lane.cur)) .ibuf, st := .error } }) ∧
    (¬ CursorOk s →
      exec .pnDec s = .next { s with lane := { s.lane with
        cmd := none, lastCmd := 0x04, rval := 0,
        err := .raised .badCursor (BitVec.ofNat 32 (low32 s.lane.cur)) .ibuf, st := .error } })

/-- While `BUSY` a write of `v` to `CMD` is dropped: nothing but `WDROP` changes, and no command is issued (R69). -/
def commandDroppedWhileBusy (v : Word) : Prop :=
  ∀ (s : State) (rest : List Event), s.lane.issued = none → s.lane.st = .busy →
    s.inbox = { lane := s.sel, act := .host (.regWrite 0x000 64 v) } :: rest →
    step s = .next { s with inbox := rest, lane := { s.lane with wdrop := 1 } }

/-- `NOP` (R121): `LASTCMD` becomes 0x00 and nothing else of the state changes but that the command is no longer
pending; while `BUSY` it is dropped. -/
def Obligations.NopResult : Prop :=
  (∀ s : State, exec .nop s = .next { s with lane := { s.lane with cmd := none, lastCmd := 0x00 } }) ∧
  commandDroppedWhileBusy 0x00

/-- `CLEAR` (R133): results, status and sequence are cleared; `CFG`, `ILEN`, `CUR`, the operands, the buffers, `ACKR` and
`CREQ_ID` keep their values; while `BUSY` it is dropped, so it cannot cancel a Crypto request. -/
def Obligations.ClearResult : Prop :=
  (∀ s : State, exec .clear s = .next { s with lane := { s.lane with
    cmd := none, lastCmd := 0x09, pkt := Pkt.zero, pend := none, pay := Slice.zero, pbufLen := 0, frm := Frm.zero,
    fstate := .inactive, fbuf := .none, fcur := 0, fend := 0, fres := .none, rval := 0, rcid := Cid.zero,
    obuf := List.replicate 8 0, olen := 0, err := .clear, wdrop := 0, st := .idle } }) ∧
  commandDroppedWhileBusy 0x09

/-- The state after a reserved opcode (R134): `UNKNOWN_CMD` at 0 in no buffer, and no result register changes. -/
def reservedRefused (s : State) (op : Byte) : State :=
  { s with lane := { s.lane with
      cmd := none, lastCmd := op, err := .raised .unknownCmd 0 .none, st := .error } }

/-- Every reserved opcode, 0x0A to 0xFF, raises `COMMAND_ERROR/UNKNOWN_CMD` (R134): each row of the table, and each
word written to `CMD`, whose bits 63:8 do not count: they make no opcode reserved, so a word whose low byte is below 0x0A
is the command of R110 with that opcode, whatever its bits 63:8. -/
def Obligations.ReservedOpcodeResult : Prop :=
  ∀ s : State,
    (∀ low, exec (.reserved0A low) s = .next (reservedRefused s (0b0000101#7 ++ low))) ∧
    (∀ low, exec (.reserved0C low) s = .next (reservedRefused s (0b000011#6 ++ low))) ∧
    (∀ low, exec (.reserved10 low) s = .next (reservedRefused s (0b0001#4 ++ low))) ∧
    (∀ low, exec (.reserved20 low) s = .next (reservedRefused s (0b001#3 ++ low))) ∧
    (∀ low, exec (.reserved40 low) s = .next (reservedRefused s (0b01#2 ++ low))) ∧
    (∀ low, exec (.reserved80 low) s = .next (reservedRefused s (0b1#1 ++ low))) ∧
    (∀ w : Word, 0x0A ≤ (w.extractLsb' 0 8).toNat →
      exec (decodeCommand w) s = .next (reservedRefused s (w.extractLsb' 0 8))) ∧
    (∀ w : Word, (w.extractLsb' 0 8).toNat < 0x0A →
      [Instr.nop, .varintDec, .varintEnc, .cidDec, .pnDec, .pktParse, .frmOne, .fseqBegin, .fseqNext,
        .clear][(w.extractLsb' 0 8).toNat]? = some (decodeCommand w))

/-- A read of an unwritten byte is the model fault at that byte (R64). First the sub-procedures over any window: the
first unwritten byte they read is the fault, be it the first byte of a field or a later one (R122, R128, R131, R196).
Then the commands: at the first field of their window, `FSEQ_NEXT` over `IBUF` among them; and wherever the header or
frame parse of a command or a row reaches the fault, the command does. The step then stops the lane
(`StepRunsDecodedCommand`). -/
def Obligations.UnwrittenByteFaults : Prop :=
  (∀ (w : Window) (p a : Nat), FirstUnwritten w p a →
    (VarIntReads w p a → decodeVarInt w p = .error (.fault (.unwrittenRead w.sel a)) ∧
      readVar w p = .error (.fault (.unwrittenRead w.sel a))) ∧
    (CidReads w p a → decodeCid w p = .error (.fault (.unwrittenRead w.sel a))) ∧
    (∀ n, p + n ≤ w.lim → a < p + n → decodePn w p n = .error (.fault (.unwrittenRead w.sel a)) ∧
      readFixed w p n = .error (.fault (.unwrittenRead w.sel a)) ∧
      memRead w p n = .error (.fault (.unwrittenRead w.sel a)))) ∧
  (∀ (s : State) (a : Nat), CursorOk s → FirstUnwritten (hostWindow s) (low32 s.lane.cur) a →
    (VarIntReads (hostWindow s) (low32 s.lane.cur) a →
      exec .varintDec s = .fault (.unwrittenRead .ibuf a) ∧ exec .frmOne s = .fault (.unwrittenRead .ibuf a)) ∧
    (CidReads (hostWindow s) (low32 s.lane.cur) a → exec .cidDec s = .fault (.unwrittenRead .ibuf a)) ∧
    (1 ≤ s.lane.arg0.toNat → s.lane.arg0.toNat ≤ 4 → low32 s.lane.cur + s.lane.arg0.toNat ≤ low32 s.lane.ilen →
      a < low32 s.lane.cur + s.lane.arg0.toNat → exec .pnDec s = .fault (.unwrittenRead .ibuf a)) ∧
    (SelectionReads (hostWindow s) (low32 s.lane.cur) a → exec .pktParse s = .fault (.unwrittenRead .ibuf a))) ∧
  (∀ (s : State) (a : Nat), s.lane.fstate = .active → s.lane.fbuf = .ibuf →
    FirstUnwritten (sequenceWindow s) s.lane.fcur.toNat a → VarIntReads (sequenceWindow s) s.lane.fcur.toNat a →
    exec .fseqNext s = .fault (.unwrittenRead .ibuf a)) ∧
  (∀ (s : State) (f : Fault), CursorOk s →
    (parseHeader (hostWindow s) (low32 s.lane.cur) = .error (.fault f) → exec .pktParse s = .fault f) ∧
    (∀ i, spaceOf i = .header → headerRule i (hostWindow s) (low32 s.lane.cur) = .error (.fault f) →
      exec i s = .fault f) ∧
    (parseFrame s.params (hostWindow s) (low32 s.lane.cur) = .error (.fault f) → exec .frmOne s = .fault f)) ∧
  (∀ (s : State) (f : Fault), s.lane.fstate = .active → s.lane.fcur ≠ s.lane.fend →
    parseFrame s.params (sequenceWindow s) s.lane.fcur.toNat = .error (.fault f) → exec .fseqNext s = .fault f) ∧
  (∀ (i : Instr) (s : State) (w : Window) (p : Nat) (f : Fault), spaceOf i = .frame → FrameAt s w p →
    parseRow i (frameRule i) s.params w p = .error (.fault f) → exec i s = .fault f)

/-- What error entry leaves alone, whatever the instruction (R245). -/
def Obligations.ErrorKeepsInputs : Prop :=
  ∀ (i : Instr) (s t : State), exec i s = .next t → t.lane.st = .error →
    t.lane.cur = s.lane.cur ∧ t.lane.ackr = s.lane.ackr ∧ t.lane.ibuf = s.lane.ibuf ∧ t.lane.pbuf = s.lane.pbuf ∧
    t.lane.isServer = s.lane.isServer ∧ t.lane.ilen = s.lane.ilen ∧ t.lane.arg0 = s.lane.arg0 ∧
    t.lane.arg1 = s.lane.arg1 ∧ t.lane.creqId = s.lane.creqId

/-- No command writes `CFG`, `ILEN`, `ARG0`, `ARG1`, a byte of `IBUF` or of `PBUF`, or anything outside its lane (R20, R47,
R61, R62): those, the other lanes, the parameters and the environment are unchanged, and the command is no longer
pending. (`CUR`, `OBUF` and `ACKR` are written by commands.) -/
def Obligations.CommandLeavesHostState : Prop :=
  ∀ (i : Instr) (s t : State), exec i s = .next t →
    t.lane.isServer = s.lane.isServer ∧ t.lane.ilen = s.lane.ilen ∧ t.lane.arg0 = s.lane.arg0 ∧
    t.lane.arg1 = s.lane.arg1 ∧ (∀ a, Mem.read t.lane.ibuf a = Mem.read s.lane.ibuf a) ∧
    (∀ a, Mem.read t.lane.pbuf a = Mem.read s.lane.pbuf a) ∧ t.lane.cmd = none ∧ t = { s with lane := t.lane }

/-! ### Packets -/

/-- `PKT_PARSE` and each header row (R150, R167, R174, R245, R250): a header without an epoch is published, one with an
epoch issues its Crypto request (the payload descriptor that `PEND` takes is the reading of log entry 14); what the
header parse raises, and a bad cursor, end in error entry. A long header of any kind fails first on its first byte, its
version and its connection IDs (R152, R155, R128). Bits 63:32 of `CUR` after a commit: log entry 3, the model's reading.
-/
def Obligations.PktParseResult : Prop :=
  ∀ (s : State) (i : Instr) (parse : Window → Nat → Parse Header),
    (i = .pktParse ∧ parse = parseHeader ∨ spaceOf i = .header ∧ parse = headerRule i) →
    (∀ h, CursorOk s → parse (hostWindow s) (low32 s.lane.cur) = .ok h →
      (h.epoch = none → exec i s = .next (packetPublished s h.pkt)) ∧
      (∀ epoch, h.epoch = some epoch → exec i s = .next (packetIssued s h.pkt epoch h.pos))) ∧
    (∀ cause pos, CursorOk s → parse (hostWindow s) (low32 s.lane.cur) = raise cause pos →
      exec i s = .next (packetFailed s cause pos)) ∧
    (¬ CursorOk s → exec i s = .next (packetFailed s .badCursor (low32 s.lane.cur))) ∧
    (∀ cause pos, CursorOk s → spaceOf i = .header → isLongHeader (headerByteOf i) = true →
      LongHeaderFails (hostWindow s) (low32 s.lane.cur) cause pos → exec i s = .next (packetFailed s cause pos))

/-- VersionNegotiation (R155, R158, R174): after both connection IDs the rest of the window is the version list; a rest
that is not a multiple of 4 raises `VN_TRAILER` at the first byte of the partial version. Bits 63:32 of `CUR` after a
commit: log entry 3, the model's reading. -/
def Obligations.VersionNegotiationResult : Prop :=
  ∀ (low : BitVec 7) (s : State) (dcid scid : Cid) (p1 p : Nat), CursorOk s →
    low32 s.lane.cur + 5 ≤ low32 s.lane.ilen →
    decodeCid (hostWindow s) (low32 s.lane.cur + 5) = .ok (dcid, p1) →
    decodeCid (hostWindow s) p1 = .ok (scid, p) →
    ((low32 s.lane.ilen - p) % 4 = 0 →
      exec (.pktVersionNegotiation low) s = .next (packetPublished s { Pkt.zero with
        kind := .vn, form := 1, byte0 := 0b1#1 ++ low, version := 0, dcid := dcid, scid := scid,
        vnlist := { start := BitVec.ofNat 32 p, len := BitVec.ofNat 32 ((low32 s.lane.ilen - p) / 4) },
        hdrEnd := BitVec.ofNat 32 p })) ∧
    ((low32 s.lane.ilen - p) % 4 ≠ 0 →
      exec (.pktVersionNegotiation low) s =
        .next (packetFailed s .vnTrailer (low32 s.lane.ilen - (low32 s.lane.ilen - p) % 4)))

/-- Initial (R155, R159, R167): the token is named and not read; the length field bounds nothing (R160); the request
names every byte after the packet number (`PEND`'s payload descriptor: log entry 14). A token length, a length field or a
packet number that is short raises where it starts, and a token longer than the bytes left raises `TOKEN_TOO_LONG`. -/
def Obligations.InitialResult : Prop :=
  ∀ (fixed : BitVec 1) (rsv pnl : BitVec 2) (ver : BitVec 32) (s : State) (dcid scid : Cid) (p1 p2 : Nat),
    CursorOk s → low32 s.lane.cur + 5 ≤ low32 s.lane.ilen →
    decodeCid (hostWindow s) (low32 s.lane.cur + 5) = .ok (dcid, p1) →
    decodeCid (hostWindow s) p1 = .ok (scid, p2) →
    (VarIntShort (hostWindow s) p2 →
      exec (.pktInitial fixed rsv pnl ver) s = .next (packetFailed s .varintEof p2)) ∧
    ∀ tl p3 : Nat, decodeVarInt (hostWindow s) p2 = .ok (tl, p3) →
    (∀ (len : VarVal) (p4 : Nat) (pn : BitVec 32) (p5 : Nat), p3 + tl ≤ low32 s.lane.ilen →
      readVar (hostWindow s) (p3 + tl) = .ok (len, p4) →
      decodePn (hostWindow s) p4 (pnl.toNat + 1) = .ok (pn, p5) →
      exec (.pktInitial fixed rsv pnl ver) s = .next (packetIssued s { Pkt.zero with
        kind := .initial, form := 1, byte0 := 0b1#1 ++ fixed ++ 0b00#2 ++ rsv ++ pnl, version := ver, dcid := dcid,
        scid := scid, token := { start := BitVec.ofNat 32 p3, len := BitVec.ofNat 32 tl }, length := len, pn := pn,
        pnLen := BitVec.ofNat 3 (pnl.toNat + 1), hdrEnd := BitVec.ofNat 32 p5 } .initial p5)) ∧
    (low32 s.lane.ilen < p3 + tl →
      exec (.pktInitial fixed rsv pnl ver) s = .next (packetFailed s .tokenTooLong p3)) ∧
    (p3 + tl ≤ low32 s.lane.ilen → VarIntShort (hostWindow s) (p3 + tl) →
      exec (.pktInitial fixed rsv pnl ver) s = .next (packetFailed s .varintEof (p3 + tl))) ∧
    (∀ (len : VarVal) (p4 : Nat), p3 + tl ≤ low32 s.lane.ilen → readVar (hostWindow s) (p3 + tl) = .ok (len, p4) →
      low32 s.lane.ilen < p4 + (pnl.toNat + 1) →
      exec (.pktInitial fixed rsv pnl ver) s = .next (packetFailed s .pnEof p4))

/-- ZeroRTT and Handshake (R155, R161, R162, R167): length, packet number, and a request of their epoch (`PEND`'s payload
descriptor: log entry 14); a short length field or packet number raises where it starts. -/
def Obligations.LengthHeaderResult : Prop :=
  ∀ (fixed : BitVec 1) (rsv pnl : BitVec 2) (ver : BitVec 32) (s : State) (dcid scid : Cid) (p1 p2 : Nat),
    CursorOk s → low32 s.lane.cur + 5 ≤ low32 s.lane.ilen →
    decodeCid (hostWindow s) (low32 s.lane.cur + 5) = .ok (dcid, p1) →
    decodeCid (hostWindow s) p1 = .ok (scid, p2) →
    (∀ (len : VarVal) (p3 : Nat) (pn : BitVec 32) (p4 : Nat), readVar (hostWindow s) p2 = .ok (len, p3) →
      decodePn (hostWindow s) p3 (pnl.toNat + 1) = .ok (pn, p4) →
      exec (.pktZeroRtt fixed rsv pnl ver) s = .next (packetIssued s { Pkt.zero with
        kind := .zeroRtt, form := 1, byte0 := 0b1#1 ++ fixed ++ 0b01#2 ++ rsv ++ pnl, version := ver, dcid := dcid,
        scid := scid, length := len, pn := pn, pnLen := BitVec.ofNat 3 (pnl.toNat + 1),
        hdrEnd := BitVec.ofNat 32 p4 } .zeroRtt p4) ∧
      exec (.pktHandshake fixed rsv pnl ver) s = .next (packetIssued s { Pkt.zero with
        kind := .handshake, form := 1, byte0 := 0b1#1 ++ fixed ++ 0b10#2 ++ rsv ++ pnl, version := ver, dcid := dcid,
        scid := scid, length := len, pn := pn, pnLen := BitVec.ofNat 3 (pnl.toNat + 1),
        hdrEnd := BitVec.ofNat 32 p4 } .handshake p4)) ∧
    (VarIntShort (hostWindow s) p2 →
      exec (.pktZeroRtt fixed rsv pnl ver) s = .next (packetFailed s .varintEof p2) ∧
      exec (.pktHandshake fixed rsv pnl ver) s = .next (packetFailed s .varintEof p2)) ∧
    (∀ (len : VarVal) (p3 : Nat), readVar (hostWindow s) p2 = .ok (len, p3) →
      low32 s.lane.ilen < p3 + (pnl.toNat + 1) →
      exec (.pktZeroRtt fixed rsv pnl ver) s = .next (packetFailed s .pnEof p3) ∧
      exec (.pktHandshake fixed rsv pnl ver) s = .next (packetFailed s .pnEof p3))

/-- Retry (R155, R163, R174): the last 16 bytes are the tag and everything before them is the token, which is not read;
fewer than 16 bytes raise `RETRY_TOO_SHORT`. Bits 63:32 of `CUR` after a commit: log entry 3, the model's reading. -/
def Obligations.RetryResult : Prop :=
  ∀ (fixed : BitVec 1) (rsv pnl : BitVec 2) (ver : BitVec 32) (s : State) (dcid scid : Cid) (p1 p : Nat),
    CursorOk s → low32 s.lane.cur + 5 ≤ low32 s.lane.ilen →
    decodeCid (hostWindow s) (low32 s.lane.cur + 5) = .ok (dcid, p1) →
    decodeCid (hostWindow s) p1 = .ok (scid, p) →
    (∀ tag : List Byte, p + 16 ≤ low32 s.lane.ilen → tag.length = 16 →
      (hostWindow s).holds (low32 s.lane.ilen - 16) tag →
      exec (.pktRetry fixed rsv pnl ver) s = .next (packetPublished s { Pkt.zero with
        kind := .retry, form := 1, byte0 := 0b1#1 ++ fixed ++ 0b11#2 ++ rsv ++ pnl, version := ver, dcid := dcid,
        scid := scid,
        token := { start := BitVec.ofNat 32 p, len := BitVec.ofNat 32 (low32 s.lane.ilen - p - 16) },
        tag := BitVec.ofNat 128 (beNat tag), hdrEnd := BitVec.ofNat 32 p })) ∧
    (low32 s.lane.ilen < p + 16 →
      exec (.pktRetry fixed rsv pnl ver) s = .next (packetFailed s .retryTooShort p))

/-- OneRtt, the short header (R165, R167): spin and key phase from the first byte, one connection ID, the packet number,
and a request of epoch 1-RTT with version 0 (`PEND`'s payload descriptor: log entry 14); no first byte, a connection ID
that fails and a short packet number raise where they start. -/
def Obligations.OneRttResult : Prop :=
  ∀ (fixed spin : BitVec 1) (rsv : BitVec 2) (keyPhase : BitVec 1) (pnl : BitVec 2) (s : State), CursorOk s →
    (∀ (dcid : Cid) (p1 : Nat) (pn : BitVec 32) (p2 : Nat), low32 s.lane.cur < low32 s.lane.ilen →
      decodeCid (hostWindow s) (low32 s.lane.cur + 1) = .ok (dcid, p1) →
      decodePn (hostWindow s) p1 (pnl.toNat + 1) = .ok (pn, p2) →
      exec (.pktOneRtt fixed spin rsv keyPhase pnl) s = .next (packetIssued s { Pkt.zero with
        kind := .oneRtt, form := 0, byte0 := 0b0#1 ++ fixed ++ spin ++ rsv ++ keyPhase ++ pnl, spin := spin,
        keyPhase := keyPhase, dcid := dcid, pn := pn, pnLen := BitVec.ofNat 3 (pnl.toNat + 1),
        hdrEnd := BitVec.ofNat 32 p2 } .oneRtt p2)) ∧
    (low32 s.lane.cur = low32 s.lane.ilen →
      exec (.pktOneRtt fixed spin rsv keyPhase pnl) s = .next (packetFailed s .hdrEof (low32 s.lane.cur))) ∧
    (∀ cause, low32 s.lane.cur < low32 s.lane.ilen → CidFails (hostWindow s) (low32 s.lane.cur + 1) cause →
      exec (.pktOneRtt fixed spin rsv keyPhase pnl) s = .next (packetFailed s cause (low32 s.lane.cur + 1))) ∧
    (∀ (dcid : Cid) (p1 : Nat), low32 s.lane.cur < low32 s.lane.ilen →
      decodeCid (hostWindow s) (low32 s.lane.cur + 1) = .ok (dcid, p1) → low32 s.lane.ilen < p1 + (pnl.toNat + 1) →
      exec (.pktOneRtt fixed spin rsv keyPhase pnl) s = .next (packetFailed s .pnEof p1))

/-- No partial packet (R175): after any error of `PKT_PARSE`, at the command (dispatched or as its row) or at its
completion, every field of `PKT` is 0, and so are `PAY` and `PBUF_LEN`, and nothing is pending. -/
def Obligations.NoPartialPacket : Prop :=
  (∀ (i : Instr) (s t : State), (i = .pktParse ∨ spaceOf i = .header) → exec i s = .next t → t.lane.st = .error →
    t.lane.pkt = Pkt.zero ∧ t.lane.pay = Slice.zero ∧ t.lane.pbufLen = 0 ∧ t.lane.pend = none) ∧
  (∀ (s t : State) (r : CryptoResp) (rest : List Event), s.lane.issued = none → s.lane.st = .busy →
    s.inbox = { lane := s.sel, act := .crypto r } :: rest → step s = .next t → t.lane.st = .error →
    t.lane.pkt = Pkt.zero ∧ t.lane.pay = Slice.zero ∧ t.lane.pbufLen = 0 ∧ t.lane.pend = none)

/-- `PROTOCOL_VIOLATION` has one cause (R219, R220, R243): `FRM_ONE` and `FSEQ_NEXT` raise it only when the type VarInt at
the front of their window is above 0x1e, at the first byte of that type; of the rows only the row of an unknown type
raises it. `NOP` leaves an error of an earlier command standing. -/
def Obligations.ProtocolViolationOnlyFromUnknownType : Prop :=
  ∀ (i : Instr) (s t : State) (pos : Off) (buf : BufSel), exec i s = .next t →
    t.lane.err = .raised .unknownFrameType pos buf →
    (i = .frmOne ∧ CursorOk s ∧ pos = BitVec.ofNat 32 (low32 s.lane.cur) ∧ buf = .ibuf ∧
      ∃ typ p1, readVar (hostWindow s) (low32 s.lane.cur) = .ok (typ, p1) ∧ 0x1e < typ.toNat) ∨
    (i = .fseqNext ∧ s.lane.fstate = .active ∧ pos = s.lane.fcur ∧ buf = s.lane.fbuf ∧
      ∃ typ p1, readVar (sequenceWindow s) s.lane.fcur.toNat = .ok (typ, p1) ∧ 0x1e < typ.toNat) ∨
    (∃ typ, i = .frmUnknown typ) ∨ (i = .nop ∧ s.lane.err = t.lane.err)

/-- A successful completion (R170): the plaintext fills `PBUF` from 0, `PEND` is published, the frame sequence over the
plaintext is active, and the whole window of the `PKT_PARSE` is consumed (bits 63:32 of `CUR`: log entry 3, the model's
reading). No other byte of `PBUF` changes. That the request
record leaves the port (`creq := none`) is log entry 11, a model choice. -/
def Obligations.CompletionPublishesPlaintext : Prop :=
  ∀ (s : State) (k : Pending) (pt : List Byte) (rest : List Event), s.lane.cmd = none → s.lane.fault = none →
    s.lane.st = .busy →
    s.lane.creqOut = 1 → s.lane.pend = some k → pt.length ≤ s.params.pbufCap.val →
    s.inbox = { lane := s.sel, act := .crypto { id := s.lane.creqId, pt := some pt } } :: rest →
    ∃ pbuf, step s = .next { s with inbox := rest, lane := { s.lane with
        creqOut := 0, creq := none, pbuf := pbuf, pbufLen := BitVec.ofNat 32 pt.length, pkt := k.pkt,
        pay := { sel := .pbuf, start := 0, len := BitVec.ofNat 32 pt.length }, fbuf := .pbuf, fcur := 0,
        fend := BitVec.ofNat 32 pt.length, fstate := .active, fres := .none, cur := s.lane.pendLim.setWidth 64,
        err := .clear, st := .done, pend := none } } ∧
      (∀ a, a < pt.length → Mem.read pbuf a = pt[a]?) ∧
      (∀ a, pt.length ≤ a → Mem.read pbuf a = Mem.read s.lane.pbuf a)

/-- A failed completion (R171): `ok = 0` raises `DECRYPT_FAILED`, a plaintext longer than `PBUF_CAP` raises `PLAINTEXT`,
both at the end of the pending header in `IBUF`; nothing is published and `CUR` keeps its value. That the request record
leaves the port (`creq := none`) is log entry 11, a model choice. -/
def Obligations.CompletionFailureReported : Prop :=
  ∀ (s : State) (k : Pending) (r : CryptoResp) (cause : ErrCause) (rest : List Event), s.lane.cmd = none →
    s.lane.fault = none →
    s.lane.st = .busy → s.lane.creqOut = 1 → s.lane.pend = some k → r.id = s.lane.creqId →
    (r.pt = none ∧ cause = .decryptFailed ∨
      ∃ pt, r.pt = some pt ∧ s.params.pbufCap.val < pt.length ∧ cause = .plaintext) →
    s.inbox = { lane := s.sel, act := .crypto r } :: rest →
    step s = .next { s with inbox := rest, lane := { s.lane with
      creqOut := 0, creq := none, pend := none, pkt := Pkt.zero, pay := Slice.zero, pbufLen := 0, frm := Frm.zero,
      fstate := .inactive, fbuf := .none, fcur := 0, fend := 0, fres := .none, err := .raised cause k.pkt.hdrEnd .ibuf,
      st := .error } }

/-- A response with another tag, or with no request outstanding, is consumed and has no effect (R172). -/
def Obligations.UnmatchedResponseDropped : Prop :=
  ∀ (s : State) (r : CryptoResp) (rest : List Event), s.lane.issued = none →
    (r.id ≠ s.lane.creqId ∨ s.lane.creqOut = 0) → s.inbox = { lane := s.sel, act := .crypto r } :: rest →
    step s = .next { s with inbox := rest }

/-! ### Frames -/

/-- `FRM_ONE` (R190, R192): the frame parsed from the host window is committed, `ACKR` takes its pairs, and `CUR` moves
to the remainder (bits 63:32 of `CUR`: log entry 3, the model's reading); what the parser raises, a type that is empty or
short, and a bad cursor clear `FRM` and leave `CUR`, `ACKR` and the sequence. -/
def Obligations.FrmOneResult : Prop :=
  ∀ s : State,
    (∀ out, CursorOk s → parseFrame s.params (hostWindow s) (low32 s.lane.cur) = .ok out →
      exec .frmOne s = .next { s with lane := { s.lane with
        cmd := none, lastCmd := 0x06, frm := out.frm, ackr := out.ranges ++ s.lane.ackr.drop out.ranges.length,
        cur := BitVec.ofNat 64 out.pos, fres := .frame, err := .clear, st := .done } }) ∧
    (∀ cause pos, CursorOk s → parseFrame s.params (hostWindow s) (low32 s.lane.cur) = raise cause pos →
      exec .frmOne s = .next { s with lane := { s.lane with
        cmd := none, lastCmd := 0x06, frm := Frm.zero, fres := .error,
        err := .raised cause (BitVec.ofNat 32 pos) .ibuf, st := .error } }) ∧
    (CursorOk s → VarIntShort (hostWindow s) (low32 s.lane.cur) →
      exec .frmOne s = .next { s with lane := { s.lane with
        cmd := none, lastCmd := 0x06, frm := Frm.zero, fres := .error,
        err := .raised .varintEof (BitVec.ofNat 32 (low32 s.lane.cur)) .ibuf, st := .error } }) ∧
    (¬ CursorOk s →
      exec .frmOne s = .next { s with lane := { s.lane with
        cmd := none, lastCmd := 0x06, frm := Frm.zero, fres := .error,
        err := .raised .badCursor (BitVec.ofNat 32 (low32 s.lane.cur)) .ibuf, st := .error } })

/-- `FSEQ_BEGIN` (R193): a sequence over the host window, with `CUR`, `PKT`, `PAY` and `PBUF` unchanged; a bad cursor
leaves no sequence. -/
def Obligations.FseqBeginResult : Prop :=
  ∀ s : State,
    (CursorOk s →
      exec .fseqBegin s = .next { s with lane := { s.lane with
        cmd := none, lastCmd := 0x07, fbuf := .ibuf, fcur := BitVec.ofNat 32 (low32 s.lane.cur),
        fend := BitVec.ofNat 32 (low32 s.lane.ilen), fstate := .active, frm := Frm.zero, fres := .none, err := .clear,
        st := .done } }) ∧
    (¬ CursorOk s →
      exec .fseqBegin s = .next { s with lane := { s.lane with
        cmd := none, lastCmd := 0x07, fbuf := .none, fcur := 0, fend := 0, fstate := .inactive, frm := Frm.zero,
        fres := .none, err := .raised .badCursor (BitVec.ofNat 32 (low32 s.lane.cur)) .ibuf, st := .error } })

/-- `FSEQ_NEXT` (R194, R195): with no sequence `WRONG_STATE`; after the end or a failure, and exactly when the window is
exhausted, `END` and no frame; else the next frame, which moves `FCUR`, or its error, a short type among them, which fails
the sequence. -/
def Obligations.FseqNextResult : Prop :=
  ∀ s : State,
    (s.lane.fstate = .inactive →
      exec .fseqNext s = .next { s with lane := { s.lane with
        cmd := none, lastCmd := 0x08, fres := .error, err := .raised .wrongState 0 .none, st := .error } }) ∧
    (s.lane.fstate = .ended ∨ s.lane.fstate = .failed →
      exec .fseqNext s = .next { s with lane := { s.lane with
        cmd := none, lastCmd := 0x08, frm := Frm.zero, fres := .ended, err := .clear, st := .done } }) ∧
    (s.lane.fstate = .active → s.lane.fcur = s.lane.fend →
      exec .fseqNext s = .next { s with lane := { s.lane with
        cmd := none, lastCmd := 0x08, fstate := .ended, frm := Frm.zero, fres := .ended, err := .clear,
        st := .done } }) ∧
    (∀ out, s.lane.fstate = .active → s.lane.fcur ≠ s.lane.fend →
      parseFrame s.params (sequenceWindow s) s.lane.fcur.toNat = .ok out →
      exec .fseqNext s = .next { s with lane := { s.lane with
        cmd := none, lastCmd := 0x08, frm := out.frm, ackr := out.ranges ++ s.lane.ackr.drop out.ranges.length,
        fcur := BitVec.ofNat 32 out.pos, fres := .frame, err := .clear, st := .done } }) ∧
    (∀ cause pos, s.lane.fstate = .active → s.lane.fcur ≠ s.lane.fend →
      parseFrame s.params (sequenceWindow s) s.lane.fcur.toNat = raise cause pos →
      exec .fseqNext s = .next { s with lane := { s.lane with
        cmd := none, lastCmd := 0x08, frm := Frm.zero, fstate := .failed, fres := .error,
        err := .raised cause (BitVec.ofNat 32 pos) s.lane.fbuf, st := .error } }) ∧
    (s.lane.fstate = .active → s.lane.fcur ≠ s.lane.fend → VarIntShort (sequenceWindow s) s.lane.fcur.toNat →
      exec .fseqNext s = .next { s with lane := { s.lane with
        cmd := none, lastCmd := 0x08, frm := Frm.zero, fstate := .failed, fres := .error,
        err := .raised .varintEof s.lane.fcur s.lane.fbuf, st := .error } })

/-- Type dispatch (R190, R191): a frame command is the whole step of the row its decoded type selects, whatever class
the type is written in. -/
def Obligations.FrameCommandsRunSelectedRow : Prop :=
  ∀ (s : State) (t : VarVal) (p1 : Nat),
    (frameCmdOf s = .one → CursorOk s → readVar (hostWindow s) (low32 s.lane.cur) = .ok (t, p1) →
      exec .frmOne s = exec (decodeFrameType t) s) ∧
    (frameCmdOf s = .next → s.lane.fstate = .active → s.lane.fcur ≠ s.lane.fend →
      readVar (sequenceWindow s) s.lane.fcur.toNat = .ok (t, p1) →
      exec .fseqNext s = exec (decodeFrameType t) s)

/-- Padding, Ping and HandshakeDone (R197, R198, R218): the kind, the type, and nothing after the type consumed. Bits
63:32 of `CUR` after a commit: log entry 3, the model's reading. -/
def Obligations.FrameRowsWithoutFields : Prop :=
  ∀ (s : State) (w : Window) (p : Nat) (t : VarVal) (p1 : Nat), FrameAt s w p → readVar w p = .ok (t, p1) →
    exec .frmPadding s = .next (frameCommitted s { Frm.zero with kind := .padding, typ := 0x00 } [] p1) ∧
    exec .frmPing s = .next (frameCommitted s { Frm.zero with kind := .ping, typ := 0x01 } [] p1) ∧
    exec .frmHandshakeDone s = .next (frameCommitted s { Frm.zero with kind := .handshakeDone, typ := 0x1e } [] p1)

/-- The row `i` of type `typ` reads one VarInt into `F0`, or raises `VARINT_EOF` where that VarInt is short. -/
def readsOneVarInt (i : Instr) (kind : FrmKind) (typ : VarVal) : Prop :=
  ∀ (s : State) (w : Window) (p : Nat) (t : VarVal) (p1 : Nat), FrameAt s w p → readVar w p = .ok (t, p1) →
    (∀ (a : VarVal) (p2 : Nat), readVar w p1 = .ok (a, p2) →
      exec i s = .next (frameCommitted s { Frm.zero with kind := kind, typ := typ, f0 := a } [] p2)) ∧
    (∀ q, VarIntsShort w 1 p1 q → exec i s = .next (frameFailed s .varintEof q))

/-- MaxData, MaxStreams, DataBlocked, StreamsBlocked and RetireConnectionId (R206, R208, R209, R211, R213); `TYPE` keeps
the value that distinguishes a pair. Bits 63:32 of `CUR` after a commit: log entry 3, the model's reading. -/
def Obligations.FrameRowsOfOneVarInt : Prop :=
  readsOneVarInt .frmMaxData .maxData 0x10 ∧
  (∀ low, readsOneVarInt (.frmMaxStreams low) .maxStreams (if low = 1 then 0x13 else 0x12)) ∧
  readsOneVarInt .frmDataBlocked .dataBlocked 0x14 ∧
  (∀ low, readsOneVarInt (.frmStreamsBlocked low) .streamsBlocked (if low = 1 then 0x17 else 0x16)) ∧
  readsOneVarInt .frmRetireConnectionId .retireConnectionId 0x19

/-- The row `i` of type `typ` reads two VarInts into `F0` and `F1`, or raises `VARINT_EOF` at the first that is short. -/
def readsTwoVarInts (i : Instr) (kind : FrmKind) (typ : VarVal) : Prop :=
  ∀ (s : State) (w : Window) (p : Nat) (t : VarVal) (p1 : Nat), FrameAt s w p → readVar w p = .ok (t, p1) →
    (∀ (a : VarVal) (p2 : Nat) (b : VarVal) (p3 : Nat), readVar w p1 = .ok (a, p2) → readVar w p2 = .ok (b, p3) →
      exec i s = .next (frameCommitted s { Frm.zero with kind := kind, typ := typ, f0 := a, f1 := b } [] p3)) ∧
    (∀ q, VarIntsShort w 2 p1 q → exec i s = .next (frameFailed s .varintEof q))

/-- StopSending, MaxStreamData and StreamDataBlocked (R202, R207, R210), and ResetStream with its three VarInts (R201),
which raises `VARINT_EOF` at the first that is short. Bits 63:32 of `CUR` after a commit: log entry 3, the model's
reading. -/
def Obligations.FrameRowsOfMoreVarInts : Prop :=
  readsTwoVarInts .frmStopSending .stopSending 0x05 ∧
  readsTwoVarInts .frmMaxStreamData .maxStreamData 0x11 ∧
  readsTwoVarInts .frmStreamDataBlocked .streamDataBlocked 0x15 ∧
  (∀ (s : State) (w : Window) (p : Nat) (t a b c : VarVal) (p1 p2 p3 p4 : Nat), FrameAt s w p →
    readVar w p = .ok (t, p1) → readVar w p1 = .ok (a, p2) → readVar w p2 = .ok (b, p3) → readVar w p3 = .ok (c, p4) →
    exec .frmResetStream s =
      .next (frameCommitted s { Frm.zero with kind := .resetStream, typ := 0x04, f0 := a, f1 := b, f2 := c } [] p4)) ∧
  (∀ (s : State) (w : Window) (p : Nat) (t : VarVal) (p1 q : Nat), FrameAt s w p → readVar w p = .ok (t, p1) →
    VarIntsShort w 3 p1 q → exec .frmResetStream s = .next (frameFailed s .varintEof q))

/-- Whatever a frame row raises, nothing of the frame is committed (R190, R192, R194, R245): `FRM` is 0, `FRES` is
`ERROR`, `CUR`, `FCUR` and `ACKR` keep their values, and a sequence has failed. A type that is empty or short raises
`VARINT_EOF` at its first byte. -/
def Obligations.FrameErrorsCommitNothing : Prop :=
  ∀ (i : Instr) (s : State) (w : Window) (p : Nat), spaceOf i = .frame → FrameAt s w p →
    (∀ cause pos, parseRow i (frameRule i) s.params w p = raise cause pos →
      exec i s = .next (frameFailed s cause pos)) ∧
    (VarIntShort w p → exec i s = .next (frameFailed s .varintEof p))

/-- Ack and Ack with ECN (R199, R200): four VarInts, then `range_count` pairs into `ACKR` from entry 0, then the three
ECN counts of type 0x03; the first pair beyond `ACK_RANGE_CAP` raises `ACK_RANGES` at its first byte once it has been
read. A VarInt that is short, of the four, of a pair or of the counts, raises `VARINT_EOF` where it starts. Bits 63:32
of `CUR` after a commit: log entry 3, the model's reading. -/
def Obligations.AckFrameResult : Prop :=
  ∀ (s : State) (w : Window) (p : Nat) (t : VarVal) (p1 : Nat), FrameAt s w p → readVar w p = .ok (t, p1) →
    (∀ q, VarIntsShort w 4 p1 q →
      exec .frmAck s = .next (frameFailed s .varintEof q) ∧ exec .frmAckEcn s = .next (frameFailed s .varintEof q)) ∧
    ∀ (largest delay count first : VarVal) (p2 p3 p4 p5 q : Nat) (rs : List AckRange),
    readVar w p1 = .ok (largest, p2) → readVar w p2 = .ok (delay, p3) → readVar w p3 = .ok (count, p4) →
    readVar w p4 = .ok (first, p5) → PairsAt w p5 rs q →
    (rs.length = count.toNat → (∀ n, s.params.ackCap = some n → rs.length ≤ n) →
      exec .frmAck s = .next (frameCommitted s { Frm.zero with
        kind := .ack, typ := 0x02, f0 := largest, f1 := delay, f2 := count, f3 := first,
        nranges := BitVec.ofNat 32 rs.length } rs q) ∧
      (∀ (e0 e1 ce : VarVal) (q1 q2 q3 : Nat), readVar w q = .ok (e0, q1) → readVar w q1 = .ok (e1, q2) →
        readVar w q2 = .ok (ce, q3) →
        exec .frmAckEcn s = .next (frameCommitted s { Frm.zero with
          kind := .ack, typ := 0x03, f0 := largest, f1 := delay, f2 := count, f3 := first, f4 := e0, f5 := e1, f6 := ce,
          ecnP := 1, nranges := BitVec.ofNat 32 rs.length } rs q3)) ∧
      (∀ q', VarIntsShort w 3 q q' → exec .frmAckEcn s = .next (frameFailed s .varintEof q'))) ∧
    (∀ q', rs.length < count.toNat → (∀ n, s.params.ackCap = some n → rs.length ≤ n) → VarIntsShort w 2 q q' →
      exec .frmAck s = .next (frameFailed s .varintEof q') ∧
      exec .frmAckEcn s = .next (frameFailed s .varintEof q')) ∧
    (∀ (g l : VarVal) (q1 q2 : Nat), s.params.ackCap = some rs.length → rs.length < count.toNat →
      readVar w q = .ok (g, q1) → readVar w q1 = .ok (l, q2) →
      exec .frmAck s = .next (frameFailed s .ackRanges q) ∧ exec .frmAckEcn s = .next (frameFailed s .ackRanges q))

/-- Crypto (R203), under both layouts: `OFFSET_RELATIVE` skips `off` bytes and takes `len`, and raises `DATA_EOF` at the
first byte after the length when they do not fit; `IMMEDIATE` takes `len` bytes at once. An offset or length that is
short raises `VARINT_EOF` where it starts. Bits 63:32 of `CUR` after a commit: log entry 3, the model's reading. -/
def Obligations.CryptoFrameResult : Prop :=
  ∀ (s : State) (w : Window) (p : Nat) (t : VarVal) (p1 : Nat), FrameAt s w p → readVar w p = .ok (t, p1) →
    (∀ q, VarIntsShort w 2 p1 q → exec .frmCrypto s = .next (frameFailed s .varintEof q)) ∧
    ∀ (off len : VarVal) (p2 p3 : Nat), readVar w p1 = .ok (off, p2) → readVar w p2 = .ok (len, p3) →
    (s.params.layout = .offsetRelative →
      (p3 + off.toNat + len.toNat ≤ w.lim →
        exec .frmCrypto s = .next (frameCommitted s { Frm.zero with
          kind := .crypto, typ := 0x06, f0 := off, f1 := len,
          data := { sel := w.sel, start := BitVec.ofNat 32 (p3 + off.toNat), len := BitVec.ofNat 32 len.toNat } } []
          (p3 + off.toNat + len.toNat))) ∧
      (w.lim < p3 + off.toNat + len.toNat → exec .frmCrypto s = .next (frameFailed s .dataEof p3))) ∧
    (s.params.layout = .immediate →
      (p3 + len.toNat ≤ w.lim →
        exec .frmCrypto s = .next (frameCommitted s { Frm.zero with
          kind := .crypto, typ := 0x06, f0 := off, f1 := len,
          data := { sel := w.sel, start := BitVec.ofNat 32 p3, len := BitVec.ofNat 32 len.toNat } } []
          (p3 + len.toNat))) ∧
      (w.lim < p3 + len.toNat → exec .frmCrypto s = .next (frameFailed s .dataEof p3)))

/-- Stream (R102, R205), under both layouts and for all eight types: `off` and `len` are read when their bits are set
and are 0 else; without the LEN bit the frame takes the rest of the window. A VarInt the type calls for that is short
raises `VARINT_EOF` where it starts. Bits 63:32 of `CUR` after a commit: log entry 3, the model's reading. -/
def Obligations.StreamFrameResult : Prop :=
  ∀ (o l fin : BitVec 1) (s : State) (w : Window) (p : Nat) (t : VarVal) (p1 : Nat),
    FrameAt s w p → readVar w p = .ok (t, p1) →
    (∀ q, VarIntsShort w (1 + o.toNat + l.toNat) p1 q →
      exec (.frmStream o l fin) s = .next (frameFailed s .varintEof q)) ∧
    ∀ (sid off len : VarVal) (p2 p3 p4 : Nat), readVar w p1 = .ok (sid, p2) →
    (o = 1 → readVar w p2 = .ok (off, p3)) → (o = 0 → off = 0 ∧ p3 = p2) →
    (l = 1 → readVar w p3 = .ok (len, p4)) → (l = 0 → len = 0 ∧ p4 = p3) →
    ∀ (skip size stop : Nat),
      skip = (if s.params.layout = .offsetRelative then off.toNat else 0) →
      size = (if l = 1 then len.toNat else w.lim - p4 - skip) →
      stop = (if l = 1 then p4 + skip + size else w.lim) →
      (p4 + skip + (if l = 1 then size else 0) ≤ w.lim →
        exec (.frmStream o l fin) s = .next (frameCommitted s { Frm.zero with
          kind := .stream, typ := 1#59 ++ o ++ l ++ fin, f0 := sid, f1 := off, f2 := len, fin := fin, offP := o,
          lenP := l,
          data := { sel := w.sel, start := BitVec.ofNat 32 (p4 + skip), len := BitVec.ofNat 32 size } } [] stop)) ∧
      (w.lim < p4 + skip + (if l = 1 then size else 0) →
        exec (.frmStream o l fin) s = .next (frameFailed s .dataEof p4))

/-- NewToken and both ConnectionClose forms (R196, R204, R216, R217): the bytes are named and not read, a length past
the window raises `DATA_EOF` at the first byte after it, and a VarInt that is short `VARINT_EOF` where it starts. Bits
63:32 of `CUR` after a commit: log entry 3, the model's reading. -/
def Obligations.NamedBytesFrames : Prop :=
  ∀ (s : State) (w : Window) (p : Nat) (t : VarVal) (p1 : Nat), FrameAt s w p → readVar w p = .ok (t, p1) →
    (∀ q, VarIntsShort w 1 p1 q → exec .frmNewToken s = .next (frameFailed s .varintEof q)) ∧
    (∀ q, VarIntsShort w 2 p1 q → exec .frmConnectionCloseApp s = .next (frameFailed s .varintEof q)) ∧
    (∀ q, VarIntsShort w 3 p1 q → exec .frmConnectionCloseQuic s = .next (frameFailed s .varintEof q)) ∧
    ∀ (a : VarVal) (p2 : Nat), readVar w p1 = .ok (a, p2) →
    (p2 + a.toNat ≤ w.lim →
      exec .frmNewToken s = .next (frameCommitted s { Frm.zero with
        kind := .newToken, typ := 0x07, f0 := a,
        data := { sel := w.sel, start := BitVec.ofNat 32 p2, len := BitVec.ofNat 32 a.toNat } } [] (p2 + a.toNat))) ∧
    (w.lim < p2 + a.toNat → exec .frmNewToken s = .next (frameFailed s .dataEof p2)) ∧
    (∀ (n : VarVal) (p3 : Nat), readVar w p2 = .ok (n, p3) →
      (p3 + n.toNat ≤ w.lim →
        exec .frmConnectionCloseApp s = .next (frameCommitted s { Frm.zero with
          kind := .connectionClose, typ := 0x1d, ftP := 0, f0 := a, f2 := n,
          data := { sel := w.sel, start := BitVec.ofNat 32 p3, len := BitVec.ofNat 32 n.toNat } } []
          (p3 + n.toNat))) ∧
      (w.lim < p3 + n.toNat → exec .frmConnectionCloseApp s = .next (frameFailed s .dataEof p3))) ∧
    (∀ (ft n : VarVal) (p3 p4 : Nat), readVar w p2 = .ok (ft, p3) → readVar w p3 = .ok (n, p4) →
      (p4 + n.toNat ≤ w.lim →
        exec .frmConnectionCloseQuic s = .next (frameCommitted s { Frm.zero with
          kind := .connectionClose, typ := 0x1c, ftP := 1, f0 := a, f1 := ft, f2 := n,
          data := { sel := w.sel, start := BitVec.ofNat 32 p4, len := BitVec.ofNat 32 n.toNat } } []
          (p4 + n.toNat))) ∧
      (w.lim < p4 + n.toNat → exec .frmConnectionCloseQuic s = .next (frameFailed s .dataEof p4)))

/-- NewConnectionId (R212): two VarInts, a connection ID of any length the codec accepts, and the 16 bytes of the token
in wire order; fewer than 16 bytes raise `FIXED_EOF`. A VarInt that is short raises `VARINT_EOF`, and a connection ID
that fails its own error (R128, R130), each where it starts. Bits 63:32 of `CUR` after a commit: log entry 3, the
model's reading. -/
def Obligations.NewConnectionIdResult : Prop :=
  ∀ (s : State) (w : Window) (p : Nat) (t : VarVal) (p1 : Nat), FrameAt s w p → readVar w p = .ok (t, p1) →
    (∀ q, VarIntsShort w 2 p1 q → exec .frmNewConnectionId s = .next (frameFailed s .varintEof q)) ∧
    ∀ (seq retire : VarVal) (p2 p3 : Nat), readVar w p1 = .ok (seq, p2) → readVar w p2 = .ok (retire, p3) →
    (∀ cause, CidFails w p3 cause → exec .frmNewConnectionId s = .next (frameFailed s cause p3)) ∧
    ∀ (cid : Cid) (p4 : Nat), decodeCid w p3 = .ok (cid, p4) →
    (∀ srt : List Byte, srt.length = 16 → w.holds p4 srt → p4 + 16 ≤ w.lim →
      exec .frmNewConnectionId s = .next (frameCommitted s { Frm.zero with
        kind := .newConnectionId, typ := 0x18, f0 := seq, f1 := retire, cid := cid, srt := srt } [] (p4 + 16))) ∧
    (w.lim < p4 + 16 → exec .frmNewConnectionId s = .next (frameFailed s .fixedEof p4))

/-- PathChallenge and PathResponse (R214, R215): 8 bytes in wire order; fewer raise `FIXED_EOF` at the first. Bits 63:32
of `CUR` after a commit: log entry 3, the model's reading. -/
def Obligations.PathFramesResult : Prop :=
  ∀ (s : State) (w : Window) (p : Nat) (t : VarVal) (p1 : Nat), FrameAt s w p → readVar w p = .ok (t, p1) →
    (∀ d : List Byte, d.length = 8 → w.holds p1 d → p1 + 8 ≤ w.lim →
      exec .frmPathChallenge s =
        .next (frameCommitted s { Frm.zero with kind := .pathChallenge, typ := 0x1a, pdata := d } [] (p1 + 8)) ∧
      exec .frmPathResponse s =
        .next (frameCommitted s { Frm.zero with kind := .pathResponse, typ := 0x1b, pdata := d } [] (p1 + 8))) ∧
    (w.lim < p1 + 8 →
      exec .frmPathChallenge s = .next (frameFailed s .fixedEof p1) ∧
      exec .frmPathResponse s = .next (frameFailed s .fixedEof p1))

/-- An unknown type (R219): `PROTOCOL_VIOLATION/UNKNOWN_FRAME_TYPE` at the first byte of the type, once the type is
complete; every value above 0x1e selects that row. -/
def Obligations.UnknownFrameTypeResult : Prop :=
  (∀ t : VarVal, 0x1e < t.toNat → decodeFrameType t = .frmUnknown t) ∧
  (∀ (typ : VarVal) (s : State) (w : Window) (p : Nat) (t : VarVal) (p1 : Nat), FrameAt s w p →
    readVar w p = .ok (t, p1) → exec (.frmUnknown typ) s = .next (frameFailed s .unknownFrameType p))

/-- Non-restartable (R195, R221): a frame moves `FCUR` forward inside the window, any other outcome of `FSEQ_NEXT` leaves
it; a finished sequence stays as it finished; and no codec, single-frame or reserved command touches the sequence. -/
def Obligations.SequenceOnlyMovesForward : Prop :=
  (∀ s t : State, exec .fseqNext s = .next t →
    t.lane.fend = s.lane.fend ∧ t.lane.fbuf = s.lane.fbuf ∧
    (t.lane.fres = .frame → s.lane.fcur.toNat < t.lane.fcur.toNat ∧ t.lane.fcur.toNat ≤ s.lane.fend.toNat) ∧
    (t.lane.fres ≠ .frame → t.lane.fcur = s.lane.fcur) ∧
    (s.lane.fstate ≠ .active → t.lane.fstate = s.lane.fstate)) ∧
  (∀ (i : Instr) (s t : State),
    i ∈ [Instr.nop, .varintDec, .varintEnc, .cidDec, .pnDec, .frmOne] ∨ rowOf i ∈ [⟨.command, 0xFE, 0x0A⟩,
      ⟨.command, 0xFC, 0x0C⟩, ⟨.command, 0xF0, 0x10⟩, ⟨.command, 0xE0, 0x20⟩, ⟨.command, 0xC0, 0x40⟩,
      ⟨.command, 0x80, 0x80⟩] →
    exec i s = .next t →
    t.lane.fstate = s.lane.fstate ∧ t.lane.fbuf = s.lane.fbuf ∧ t.lane.fcur = s.lane.fcur ∧
      t.lane.fend = s.lane.fend)

/-- The sequence is finite (R195): from any position, one `FSEQ_NEXT` more than the bytes left is enough to leave
`ACTIVE`, by the end or by an error. -/
def Obligations.SequenceIsFinite : Prop :=
  ∀ (n : Nat) (s t : State), s.lane.fcur.toNat ≤ s.lane.fend.toNat → s.lane.fend.toNat - s.lane.fcur.toNat < n →
    fseqNextTimes n s = .next t → t.lane.fstate ≠ .active

/-! ### The host interface -/

/-- While `BUSY` every host write, to `REG` (with `CMD`) or to `IBUF`, changes nothing but `WDROP` (R69). -/
def Obligations.BusyWritesDropped : Prop :=
  ∀ (s : State) (rest : List Event), s.lane.issued = none → s.lane.st = .busy →
    (∀ (off : Nat) (v : Word), off % 8 = 0 → s.inbox = { lane := s.sel, act := .host (.regWrite off 64 v) } :: rest →
      step s = .next { s with inbox := rest, lane := { s.lane with wdrop := 1 } }) ∧
    (∀ (off : Nat) (v : Byte), off < s.params.ibufCap.val →
      s.inbox = { lane := s.sel, act := .host (.ibufWrite off 8 v) } :: rest →
      step s = .next { s with inbox := rest, lane := { s.lane with wdrop := 1 } })

/-- Command issue (R68, R110): a write to `CMD` while the lane is not `BUSY` issues the command of its low byte, which the
lane executes before any other host write to it. That it is the very next step of the block, before an event of another
lane, a response or a reset too, is log entry 1, a model choice. A lane that a model fault has stopped does not execute it
(R64). -/
def Obligations.CommandIssue : Prop :=
  ∀ (s : State) (v : Word) (rest : List Event), s.lane.issued = none → s.lane.st ≠ .busy →
    s.inbox = { lane := s.sel, act := .host (.regWrite 0x000 64 v) } :: rest →
    ∃ t, t = { s with inbox := rest, lane := { s.lane with cmd := some v } } ∧ step s = .next t ∧
      (s.lane.fault = none → step t = recordFault t (exec (decodeOpcode (v.extractLsb' 0 8)) t)) ∧
      (s.lane.fault ≠ none → t.lane.issued = none)

/-- Host writes while not `BUSY` (R22, R47, R67, and 93_implementation_defined.md I15 with log entry 3, the model's
reading, for bits 63:32 of `ILEN` and `CUR`, which hold what the host wrote): each plain register takes its bits, read-only and reserved offsets ignore the write, and
an `IBUF` write sets that byte, marks it written and changes no other byte. -/
def Obligations.HostWritesReachTheirRegister : Prop :=
  ∀ (s : State) (rest : List Event), s.lane.issued = none → s.lane.st ≠ .busy →
    (∀ v, s.inbox = { lane := s.sel, act := .host (.regWrite 0x008 64 v) } :: rest →
      step s = .next { s with inbox := rest, lane := { s.lane with isServer := v.extractLsb' 0 1 } }) ∧
    (∀ v, s.inbox = { lane := s.sel, act := .host (.regWrite 0x010 64 v) } :: rest →
      step s = .next { s with inbox := rest, lane := { s.lane with ilen := v } }) ∧
    (∀ v, s.inbox = { lane := s.sel, act := .host (.regWrite 0x018 64 v) } :: rest →
      step s = .next { s with inbox := rest, lane := { s.lane with cur := v } }) ∧
    (∀ v, s.inbox = { lane := s.sel, act := .host (.regWrite 0x020 64 v) } :: rest →
      step s = .next { s with inbox := rest, lane := { s.lane with arg0 := v } }) ∧
    (∀ v, s.inbox = { lane := s.sel, act := .host (.regWrite 0x028 64 v) } :: rest →
      step s = .next { s with inbox := rest, lane := { s.lane with arg1 := v } }) ∧
    (∀ off v, off % 8 = 0 → 0x030 ≤ off → s.inbox = { lane := s.sel, act := .host (.regWrite off 64 v) } :: rest →
      step s = .next { s with inbox := rest }) ∧
    (∀ off v, off < s.params.ibufCap.val → s.inbox = { lane := s.sel, act := .host (.ibufWrite off 8 v) } :: rest →
      ∃ m, step s = .next { s with inbox := rest, lane := { s.lane with ibuf := m } } ∧
        Mem.read m off = some v ∧ ∀ a, a ≠ off → Mem.read m a = Mem.read s.lane.ibuf a)

/-- Refused accesses (R11, R66, R70), each under its own name, and what the step makes of one: its mark joins those
before it, nothing of a lane changes, and the run goes on (log entry 6, the model's reading; that it returns nothing is
log entry 15). That an undefined write is refused even while the lane is `BUSY`, where R69 drops every host write, is log
entry 6, a model choice. -/
def Obligations.RefusedAccesses : Prop :=
  ∀ s : State,
    (∀ off width v, width ≠ 64 → hostAccess (.regRead off width) s = .refused (.regWidth width) ∧
      hostAccess (.regWrite off width v) s = .refused (.regWidth width)) ∧
    (∀ off v, off % 8 ≠ 0 → hostAccess (.regRead off 64) s = .refused (.regOffset off) ∧
      hostAccess (.regWrite off 64 v) s = .refused (.regOffset off)) ∧
    (∀ off width v, width ≠ 8 → hostAccess (.ibufRead off width) s = .refused (.bufWidth width) ∧
      hostAccess (.ibufWrite off width v) s = .refused (.bufWidth width) ∧
      hostAccess (.pbufRead off width) s = .refused (.bufWidth width)) ∧
    (∀ off v, s.params.ibufCap.val ≤ off → hostAccess (.ibufRead off 8) s = .refused (.bufRange off) ∧
      hostAccess (.ibufWrite off 8 v) s = .refused (.bufRange off)) ∧
    (∀ off, s.params.pbufCap.val ≤ off → hostAccess (.pbufRead off 8) s = .refused (.bufRange off)) ∧
    (∀ off width v, hostAccess (.pbufWrite off width v) s = .refused .pbufWrite) ∧
    (∀ idx word v, hostAccess (.ackrWrite idx word v) s = .refused .ackrWrite) ∧
    (∀ idx word width, width ≠ 64 → hostAccess (.ackrRead idx word width) s = .refused (.ackrWidth width)) ∧
    (∀ idx word n, s.params.ackCap = some n → n ≤ idx →
      hostAccess (.ackrRead idx word 64) s = .refused (.ackrRange idx)) ∧
    (∀ a r rest, hostAccess a s = .refused r → s.lane.issued = none →
      s.inbox = { lane := s.sel, act := .host a } :: rest →
      step s = .next { s with inbox := rest, reply := none, refusals := s.refusals ++ [(s.sel, r)] })

/-- Host reads have no side effect and are allowed in every state (R67): whatever is read, the lanes and the parameters
are unchanged. What a read of a register, of a written `IBUF` byte, of a plaintext byte or of an Ack result returns is
what it holds (R45, R66). That a refused read changes no lane is log entry 6, the model's reading. -/
def Obligations.HostReadsChangeNothing : Prop :=
  (∀ (s t : State) (a : Access) (rest : List Event), s.lane.issued = none →
    s.inbox = { lane := s.sel, act := .host a } :: rest →
    ((∃ off w, a = .regRead off w) ∨ (∃ off w, a = .ibufRead off w) ∨ (∃ off w, a = .pbufRead off w) ∨
      ∃ idx word w, a = .ackrRead idx word w) →
    step s = .next t →
    t.lane = s.lane ∧ t.parked = s.parked ∧ t.sel = s.sel ∧ t.params = s.params ∧ t.inbox = rest) ∧
  (∀ (s : State) (off : Nat), off % 8 = 0 →
    hostAccess (.regRead off 64) s = .next { s with reply := some (readReg s.lane off) }) ∧
  (∀ (s : State) (off : Nat) (b : Byte), off < s.params.ibufCap.val → Mem.read s.lane.ibuf off = some b →
    hostAccess (.ibufRead off 8) s = .next { s with reply := some (b.setWidth 64) }) ∧
  (∀ (s : State) (off : Nat) (b : Byte), off < s.params.pbufCap.val → off < s.lane.pbufLen.toNat →
    Mem.read s.lane.pbuf off = some b →
    hostAccess (.pbufRead off 8) s = .next { s with reply := some (b.setWidth 64) }) ∧
  (∀ (s : State) (idx : Nat) (r : AckRange), (∀ n, s.params.ackCap = some n → idx < n) →
    idx < s.lane.frm.nranges.toNat → s.lane.ackr[idx]? = some r →
    hostAccess (.ackrRead idx .gap 64) s = .next { s with reply := some (r.gap.setWidth 64) } ∧
    hostAccess (.ackrRead idx .rlen 64) s = .next { s with reply := some (r.rlen.setWidth 64) })

/-- The register views (R23, R24, R26, R37, R45, R47, R242, R270): the fields of `STATUS` and `ERR` stand at their bits
and reserved bits read 0; the reserved offsets from 0x1D0 up read 0; the codes are the numbers of R24, R26, R33, R40, R74,
R240 and R242; every register of one field reads that field at its offset of R45; and every register reads 0 after
reset. That `ILEN` and `CUR` read all 64 bits, where R45 gives them bits 31:0 and R47 has reserved fields read 0, is
93_implementation_defined.md I15 and log entry 3, the model's reading. -/
def Obligations.RegisterViews : Prop :=
  (∀ l : Lane,
    (readReg l 0x030).extractLsb' 0 2 = BitVec.ofNat 2 l.st.code ∧
    (readReg l 0x030).extractLsb' 2 2 = BitVec.ofNat 2 l.fstate.code ∧
    (readReg l 0x030).extractLsb' 4 2 = BitVec.ofNat 2 l.fres.code ∧
    (readReg l 0x030).extractLsb' 6 2 = 0 ∧ (readReg l 0x030).extractLsb' 8 1 = l.wdrop ∧
    (readReg l 0x030).extractLsb' 9 7 = 0 ∧ (readReg l 0x030).extractLsb' 16 8 = l.lastCmd ∧
    (readReg l 0x030).extractLsb' 24 40 = 0) ∧
  (∀ (l : Lane) (cause : ErrCause) (pos : Off) (buf : BufSel), l.err = .raised cause pos buf →
    (readReg l 0x038).extractLsb' 0 4 = BitVec.ofNat 4 cause.kind ∧ (readReg l 0x038).extractLsb' 4 4 = 0 ∧
    (readReg l 0x038).extractLsb' 8 8 = BitVec.ofNat 8 cause.sub ∧ (readReg l 0x038).extractLsb' 16 32 = pos ∧
    (readReg l 0x038).extractLsb' 48 3 = BitVec.ofNat 3 buf.code ∧ (readReg l 0x038).extractLsb' 51 13 = 0) ∧
  (∀ l : Lane, l.err = .clear → readReg l 0x038 = 0) ∧
  (∀ off : Nat, readReg Lane.reset off = 0) ∧
  (∀ (l : Lane) (off : Nat), 0x1D0 ≤ off → readReg l off = 0) ∧
  (∀ l : Lane,
    readReg l 0x000 = l.lastCmd.setWidth 64 ∧ readReg l 0x008 = l.isServer.setWidth 64 ∧ readReg l 0x010 = l.ilen ∧
    readReg l 0x018 = l.cur ∧ readReg l 0x020 = l.arg0 ∧ readReg l 0x028 = l.arg1 ∧ readReg l 0x040 = l.rval ∧
    readReg l 0x048 = l.rcid.len.setWidth 64 ∧ readReg l 0x068 = l.olen.setWidth 64 ∧
    readReg l 0x088 = l.pkt.version.setWidth 64 ∧ readReg l 0x090 = l.pkt.pn.setWidth 64 ∧
    readReg l 0x098 = l.pkt.length.setWidth 64 ∧ readReg l 0x0A0 = l.pkt.dcid.len.setWidth 64 ∧
    readReg l 0x0C0 = l.pkt.scid.len.setWidth 64 ∧ readReg l 0x0E8 ++ readReg l 0x0F0 = l.pkt.tag ∧
    readReg l 0x100 = l.pkt.hdrEnd.setWidth 64 ∧ readReg l 0x108 = BitVec.ofNat 64 l.pay.sel.code ∧
    readReg l 0x118 = l.pbufLen.setWidth 64 ∧ readReg l 0x120 = BitVec.ofNat 64 l.fbuf.code ∧
    readReg l 0x128 = l.fcur.setWidth 64 ∧ readReg l 0x130 = l.fend.setWidth 64 ∧
    readReg l 0x140 = l.frm.typ.setWidth 64 ∧ readReg l 0x148 = l.frm.f0.setWidth 64 ∧
    readReg l 0x150 = l.frm.f1.setWidth 64 ∧ readReg l 0x158 = l.frm.f2.setWidth 64 ∧
    readReg l 0x160 = l.frm.f3.setWidth 64 ∧ readReg l 0x168 = l.frm.f4.setWidth 64 ∧
    readReg l 0x170 = l.frm.f5.setWidth 64 ∧ readReg l 0x178 = l.frm.f6.setWidth 64 ∧
    readReg l 0x180 = BitVec.ofNat 64 l.frm.data.sel.code ∧ readReg l 0x190 = l.frm.cid.len.setWidth 64 ∧
    readReg l 0x1C8 = l.frm.nranges.setWidth 64) ∧
  [BufSel.none, .ibuf, .pbuf].map BufSel.code = [0, 1, 2] ∧
  [St.idle, .busy, .done, .error].map St.code = [0, 1, 2, 3] ∧
  [FState.inactive, .active, .ended, .failed].map FState.code = [0, 1, 2, 3] ∧
  [FRes.none, .frame, .ended, .error].map FRes.code = [0, 1, 2, 3] ∧
  [Epoch.initial, .zeroRtt, .handshake, .oneRtt].map Epoch.code = [0, 1, 2, 3] ∧
  [PktKind.none, .vn, .initial, .zeroRtt, .handshake, .retry, .oneRtt].map PktKind.code = [0, 1, 2, 3, 4, 5, 6] ∧
  [FrmKind.none, .padding, .ping, .ack, .resetStream, .stopSending, .crypto, .newToken, .stream, .maxData, .maxStreamData,
    .maxStreams, .dataBlocked, .streamDataBlocked, .streamsBlocked, .newConnectionId, .retireConnectionId, .pathChallenge,
    .pathResponse, .connectionClose, .handshakeDone].map FrmKind.code = List.range 21 ∧
  [ErrCause.varintEof, .cidLenEof, .cidTooLong, .cidEof, .pnEof, .hdrEof, .versionEof, .tokenTooLong, .retryTooShort,
    .vnTrailer, .fixedEof, .dataEof].map (fun c => (c.kind, c.sub)) = (List.range 12).map (fun n => (1, n + 1)) ∧
  [ErrCause.unknownFrameType, .decryptFailed, .ackRanges, .plaintext, .unknownCmd, .badArg, .wrongState, .badCursor].map
    (fun c => (c.kind, c.sub)) = [(2, 1), (3, 1), (4, 1), (4, 2), (5, 1), (5, 2), (5, 3), (5, 4)]

/-- The packed registers (R45, R46): byte `j` of register `k` of a byte string is byte `8k + j` of the string from the
top, 0 past its end; a start stands in bits 31:0 and a length in bits 63:32; and the fields of `PKT_INFO`, `FRM_INFO`
and `CREQ` stand at their bits, with their reserved bits reading 0 (R47). -/
def Obligations.PackedRegisters : Prop :=
  (∀ (bs : List Byte) (k j : Nat), j < 8 →
    (packedWord bs k).extractLsb' (56 - 8 * j) 8 = (bs[8 * k + j]?).getD 0) ∧
  (∀ l : Lane,
    readReg l 0x050 = packedWord l.rcid.b 0 ∧ readReg l 0x058 = packedWord l.rcid.b 1 ∧
    readReg l 0x060 = packedWord l.rcid.b 2 ∧ readReg l 0x070 = packedWord l.obuf 0 ∧
    readReg l 0x0A8 = packedWord l.pkt.dcid.b 0 ∧ readReg l 0x0B0 = packedWord l.pkt.dcid.b 1 ∧
    readReg l 0x0B8 = packedWord l.pkt.dcid.b 2 ∧ readReg l 0x0C8 = packedWord l.pkt.scid.b 0 ∧
    readReg l 0x0D0 = packedWord l.pkt.scid.b 1 ∧ readReg l 0x0D8 = packedWord l.pkt.scid.b 2 ∧
    readReg l 0x198 = packedWord l.frm.cid.b 0 ∧ readReg l 0x1A0 = packedWord l.frm.cid.b 1 ∧
    readReg l 0x1A8 = packedWord l.frm.cid.b 2 ∧ readReg l 0x1B0 = packedWord l.frm.srt 0 ∧
    readReg l 0x1B8 = packedWord l.frm.srt 1 ∧ readReg l 0x1C0 = packedWord l.frm.pdata 0) ∧
  (∀ (l : Lane) (off : Nat) (start len : Off),
    (off, start, len) ∈ [(0x0E0, l.pkt.token.start, l.pkt.token.len), (0x0F8, l.pkt.vnlist.start, l.pkt.vnlist.len),
      (0x110, l.pay.start, l.pay.len), (0x188, l.frm.data.start, l.frm.data.len)] →
    (readReg l off).extractLsb' 0 32 = start ∧ (readReg l off).extractLsb' 32 32 = len) ∧
  (∀ l : Lane,
    (readReg l 0x080).extractLsb' 0 3 = BitVec.ofNat 3 l.pkt.kind.code ∧
    (readReg l 0x080).extractLsb' 3 1 = l.pkt.form ∧ (readReg l 0x080).extractLsb' 4 1 = l.pkt.spin ∧
    (readReg l 0x080).extractLsb' 5 1 = l.pkt.keyPhase ∧ (readReg l 0x080).extractLsb' 8 3 = l.pkt.pnLen ∧
    (readReg l 0x080).extractLsb' 16 8 = l.pkt.byte0 ∧
    (readReg l 0x080).extractLsb' 6 2 = 0 ∧ (readReg l 0x080).extractLsb' 11 5 = 0 ∧
    (readReg l 0x080).extractLsb' 24 40 = 0 ∧
    (readReg l 0x138).extractLsb' 0 5 = BitVec.ofNat 5 l.frm.kind.code ∧
    (readReg l 0x138).extractLsb' 8 1 = l.frm.fin ∧ (readReg l 0x138).extractLsb' 9 1 = l.frm.offP ∧
    (readReg l 0x138).extractLsb' 10 1 = l.frm.lenP ∧ (readReg l 0x138).extractLsb' 11 1 = l.frm.ecnP ∧
    (readReg l 0x138).extractLsb' 12 1 = l.frm.ftP ∧
    (readReg l 0x138).extractLsb' 5 3 = 0 ∧ (readReg l 0x138).extractLsb' 13 51 = 0 ∧
    (readReg l 0x078).extractLsb' 0 8 = l.creqId ∧ (readReg l 0x078).extractLsb' 8 1 = l.creqOut ∧
    (readReg l 0x078).extractLsb' 9 55 = 0)

/-! ### The machine -/

/-- A step runs the decoded command (R11, R64, R68, R71, R120): the command issued to the lane in focus is executed and
nothing is added around it; a model fault it reaches is recorded on that lane, which executes nothing further and
completes no request. With none to execute the environment's oldest event happens on the lane it names, which comes into
focus; with no event the block waits. Model choices: the order of events (log entry 1), what a stopped lane shows (log
entry 5), and that an event for a lane the block does not have only leaves its refusal mark (log entry 13). -/
def Obligations.StepRunsDecodedCommand : Prop :=
  ∀ s : State,
    (∀ w, s.lane.fault = none → s.lane.cmd = some w →
      (∀ t, exec (decodeOpcode (w.extractLsb' 0 8)) s = .next t → step s = .next t) ∧
      (∀ f, exec (decodeOpcode (w.extractLsb' 0 8)) s = .fault f →
        step s = .next { s with lane := { s.lane with
          cmd := none, lastCmd := w.extractLsb' 0 8, fault := some f } }) ∧
      (∀ r, exec (decodeOpcode (w.extractLsb' 0 8)) s ≠ .refused r)) ∧
    (∀ f, s.lane.fault = some f →
      (s.inbox = [] → step s = .next s) ∧
      (∀ r rest, s.inbox = { lane := s.sel, act := .crypto r } :: rest → step s = .next { s with inbox := rest })) ∧
    (∀ e rest, s.lane.issued = none → s.inbox = e :: rest →
      (e.lane = s.sel → step s = deliverAction e.act { s with inbox := rest }) ∧
      (∀ l, e.lane ≠ s.sel → findLane s.parked e.lane = some l →
        step s = deliverAction e.act { s with
          inbox := rest, sel := e.lane, lane := l, parked := parkLane (dropLane s.parked e.lane) s.sel s.lane }) ∧
      (s.laneAt e.lane = none → step s = .next { s with
        inbox := rest, reply := none, refusals := s.refusals ++ [(e.lane, .noSuchLane e.lane)] })) ∧
    (s.lane.issued = none → s.inbox = [] → step s = .next s)

/-- A reset of a lane (R270, R271): every state of that lane takes its reset value, an outstanding request is abandoned,
and a response to it that arrives next is dropped. A model fault recorded on the lane is never cleared (R11; over a
reset, log entry 5, the model's reading). -/
def Obligations.ResetAbandonsRequest : Prop :=
  ∀ (s : State) (r : CryptoResp) (rest : List Event), s.lane.issued = none →
    s.inbox = { lane := s.sel, act := .reset } :: { lane := s.sel, act := .crypto r } :: rest →
    ∃ t, t = { s with
        lane := { Lane.reset with fault := s.lane.fault }, inbox := { lane := s.sel, act := .crypto r } :: rest } ∧
      step s = .next t ∧ step t = .next { t with inbox := rest }

/-- Lanes are independent (R11, R20, R64, R70, R252, R279): every step answers a next state, since a model fault stops its
own lane and no other and a refused access leaves its mark (that it changes no lane: log entry 6, the model's reading). A
step changes no lane but the one it belongs to, keeps the lanes numbered as they are, and changes no parameter; a model
fault recorded on a lane is never cleared (also by a reset of the lane: log entry 5, the model's reading), and no refusal
mark is. -/
def Obligations.LanesIsolated : Prop :=
  (∀ s : State, ∃ t, step s = .next t) ∧
  ∀ s t : State, LanesInv s → step s = .next t →
    LanesInv t ∧ t.params = s.params ∧ t.parked.length = s.parked.length ∧
    (∀ k, k ≠ nextLane s → t.laneAt k = s.laneAt k) ∧
    (∀ k l f, s.laneAt k = some l → l.fault = some f → ∃ l', t.laneAt k = some l' ∧ l'.fault = some f) ∧
    (∃ more, t.refusals = s.refusals ++ more)

/-- Every step keeps the buffers in canonical form, inside their capacities, and the plaintext written (R44, R62, R67).
That a refused access changes no buffer is log entry 6, the model's reading. -/
def Obligations.MemoryInvariantKept : Prop :=
  ∀ s t : State, EveryLane (MemoryInv s.params) s → step s = .next t → EveryLane (MemoryInv t.params) t

/-- Every step keeps the Crypto protocol: `BUSY` exactly while a request is outstanding, with no result visible and no
command pending, and `ERR` set exactly when `ST` is `ERROR` (R25, R26, R69, R167, R173, R248, R273). That the request record
is present exactly while the request is outstanding is log entry 11, a model choice; that a refused access changes no lane
is log entry 6, the model's reading. -/
def Obligations.ProtocolInvariantKept : Prop :=
  ∀ s t : State, EveryLane ProtocolInv s → step s = .next t → EveryLane ProtocolInv t

/-- Every step keeps the frame sequence inside its buffer (R37, R195). That a refused access changes no lane is log entry
6, the model's reading. -/
def Obligations.SequenceInvariantKept : Prop :=
  ∀ s t : State, EveryLane (SequenceInv s.params) s → step s = .next t → EveryLane (SequenceInv t.params) t

/-- Every step keeps the result records in form (R29, R31, R35, R39, R42). That a refused access changes no lane is log
entry 6, the model's reading. -/
def Obligations.RecordInvariantKept : Prop :=
  ∀ s t : State, EveryLane (RecordInv s.params) s → step s = .next t → EveryLane (RecordInv t.params) t

/-- The invariants hold right after reset (R270), for every choice of the parameters, and the block has `N_LANES` lanes
(R5, R20). -/
def Obligations.ResetMeetsInvariants : Prop :=
  ∀ p : Params, p.wf = true →
    EveryLane (MemoryInv p) (State.resetWith p) ∧ EveryLane ProtocolInv (State.resetWith p) ∧
    EveryLane (SequenceInv p) (State.resetWith p) ∧ EveryLane (RecordInv p) (State.resetWith p) ∧
    LanesInv (State.resetWith p) ∧ (State.resetWith p).parked.length + 1 = p.nLanes ∧
    (∀ k, k < p.nLanes → (State.resetWith p).laneAt k = some Lane.reset)

/-- On windows the host has written, no instruction reaches the model fault, and none is refused (R64, R250): every
instruction answers a next state. -/
def Obligations.WrittenWindowsNeverFault : Prop :=
  ∀ (i : Instr) (s : State), MemoryInv s.params s.lane → SequenceInv s.params s.lane →
    (hostWindow s).written (low32 s.lane.cur) →
    (s.lane.fbuf = .ibuf → (sequenceWindow s).written s.lane.fcur.toNat) →
    ∃ t, exec i s = .next t
end

