-- ==== Sys2Proof/Laws/Operands.lean ====
section
/-! SUPPORT. What each reading sub-procedure can do, said once: what it answers, how far it moves, and that it faults
only on an unwritten byte of the window. -/

namespace Sys2Proof.Machine

/-! ### Sequencing -/

theorem parse_bind_ok {α β : Type} {x : Parse α} {f : α → Parse β} {b : β} :
    x >>= f = .ok b ↔ ∃ a, x = .ok a ∧ f a = .ok b := by
  cases x <;> simp [bind, Except.bind]

theorem parse_bind_error {α β : Type} {x : Parse α} {f : α → Parse β} {e : Stop} :
    x >>= f = .error e ↔ x = .error e ∨ ∃ a, x = .ok a ∧ f a = .error e := by
  cases x <;> simp [bind, Except.bind]

@[simp] theorem parse_bind_raise {α β : Type} (c : ErrCause) (q : Nat) (f : α → Parse β) :
    ((raise c q : Parse α) >>= f) = raise c q := rfl

@[simp] theorem parse_ok_bind {α β : Type} (a : α) (f : α → Parse β) : ((.ok a : Parse α) >>= f) = f a := rfl

@[simp] theorem parse_error_bind {α β : Type} (e : Stop) (f : α → Parse β) :
    ((.error e : Parse α) >>= f) = .error e := rfl

@[simp] theorem raise_ne_ok {α : Type} (c : ErrCause) (p : Nat) (a : α) : (raise c p : Parse α) ≠ .ok a := by
  simp [raise]

@[simp] theorem raise_ne_fault {α : Type} (c : ErrCause) (p : Nat) (f : Fault) :
    (raise c p : Parse α) ≠ .error (.fault f) := by simp [raise]

theorem need_ok {w : Window} {p n q : Nat} {c : ErrCause} {u : Unit} :
    need w p n c q = .ok u ↔ n ≤ w.lim - p := by
  unfold need; split
  · simp; omega
  · simp; omega

theorem need_of_le {w : Window} {p n q : Nat} {c : ErrCause} (h : n ≤ w.lim - p) : need w p n c q = .ok () :=
  need_ok.2 h

theorem need_of_lt {w : Window} {p n q : Nat} {c : ErrCause} (h : w.lim - p < n) : need w p n c q = raise c q := by
  simp [need, h]

/-- `need` raises only its own cause. -/
theorem need_raise {w : Window} {p n q r : Nat} {c d : ErrCause} (h : need w p n c q = .error (.raised d r)) :
    d = c ∧ r = q := by
  unfold need at h
  split at h
  · simp only [raise, Except.error.injEq, Stop.raised.injEq] at h
    exact ⟨h.1.symm, h.2.symm⟩
  · simp at h

@[simp] theorem need_ne_fault (w : Window) (p n q : Nat) (c : ErrCause) (f : Fault) :
    need w p n c q ≠ .error (.fault f) := by unfold need; split <;> simp

/-! ### Bytes -/

theorem readByte_ok {w : Window} {a : Nat} {b : Byte} : readByte w a = .ok b ↔ Mem.read w.mem a = some b := by
  unfold readByte; split <;> simp_all

theorem readByte_fault {w : Window} {a : Nat} {f : Fault} :
    readByte w a = .error (.fault f) ↔ Mem.read w.mem a = none ∧ f = .unwrittenRead w.sel a := by
  unfold readByte
  cases h : Mem.read w.mem a <;> simp [eq_comm]

@[simp] theorem readByte_ne_raise (w : Window) (a : Nat) (c : ErrCause) (q : Nat) :
    readByte w a ≠ .error (.raised c q) := by
  unfold readByte; split <;> simp

theorem readByte_of_written {w : Window} {p a : Nat} (h : w.written p) (h1 : p ≤ a) (h2 : a < w.lim) (f : Fault) :
    readByte w a ≠ .error (.fault f) := by
  intro hf
  have := (readByte_fault.1 hf).1
  have := h a h1 h2
  simp_all

/-- `MemRead` answers exactly the bytes that stand there. -/
theorem memRead_ok {w : Window} {a n : Nat} {bs : List Byte} :
    memRead w a n = .ok bs ↔ bs.length = n ∧ w.holds a bs := by
  induction n generalizing a bs with
  | zero => cases bs <;> simp [memRead, Window.holds]
  | succ n ih =>
    simp only [memRead, parse_bind_ok, readByte_ok]
    constructor
    · rintro ⟨b, hb, bs', hbs, h⟩
      simp only [Except.ok.injEq] at h
      subst h
      obtain ⟨h1, h2⟩ := ih.1 hbs
      exact ⟨by simp [h1], hb, h2⟩
    · rintro ⟨h1, h2⟩
      cases bs with
      | nil => simp at h1
      | cons b bs => exact ⟨b, h2.1, bs, ih.2 ⟨by simpa using h1, h2.2⟩, rfl⟩

theorem memRead_of_written {w : Window} {p a n : Nat} (h : w.written p) (h1 : p ≤ a) (h2 : a + n ≤ w.lim)
    (f : Fault) : memRead w a n ≠ .error (.fault f) := by
  induction n generalizing a with
  | zero => simp [memRead]
  | succ n ih =>
    simp only [memRead, ne_eq, parse_bind_error, not_or, not_exists, not_and]
    refine ⟨readByte_of_written h h1 (by omega) f, fun b _ => ⟨ih (by omega) (by omega), by simp⟩⟩

/-- `MemRead` never raises. -/
@[simp] theorem memRead_ne_raise (w : Window) (a n : Nat) (c : ErrCause) (q : Nat) :
    memRead w a n ≠ .error (.raised c q) := by
  induction n generalizing a with
  | zero => simp [memRead]
  | succ n ih =>
    simp only [memRead, ne_eq, parse_bind_error, not_or, not_exists, not_and]
    refine ⟨?_, fun b _ => ⟨ih _, by simp⟩⟩
    unfold readByte; split <;> simp

/-! ### Numbers -/

theorem beNat_append (bs : List Byte) (b : Byte) : beNat (bs ++ [b]) = beNat bs * 256 + b.toNat := by
  simp [beNat]

theorem beNat_lt (bs : List Byte) : beNat bs < 256 ^ bs.length := by
  induction bs using List.reverseRecOn with
  | nil => simp [beNat]
  | append_singleton bs b ih =>
    rw [beNat_append, List.length_append, List.length_singleton, Nat.pow_succ]
    have := b.isLt
    omega

theorem foldl_be (bs : List Byte) (x : Nat) :
    bs.foldl (fun acc b => acc * 256 + b.toNat) x = x * 256 ^ bs.length + beNat bs := by
  induction bs using List.reverseRecOn with
  | nil => simp [beNat]
  | append_singleton bs b ih =>
    rw [List.foldl_append, ih, beNat_append]
    simp only [List.foldl_cons, List.foldl_nil, List.length_append, List.length_singleton, Nat.pow_succ]
    ring

theorem beNat_cons (b : Byte) (bs : List Byte) : beNat (b :: bs) = b.toNat * 256 ^ bs.length + beNat bs := by
  have h := foldl_be bs b.toNat
  simp only [beNat, List.foldl_cons, Nat.zero_mul, Nat.zero_add] at h ⊢
  exact h

theorem varintClass_lt (b0 : Byte) : varintClass b0 < 4 := (b0.extractLsb' 6 2).isLt

theorem varintSize_pos (b0 : Byte) : 1 ≤ varintSize b0 := Nat.one_le_two_pow

theorem varintSize_le (b0 : Byte) : varintSize b0 ≤ 8 :=
  (Nat.pow_le_pow_right (by decide) (by have := varintClass_lt b0; omega : varintClass b0 ≤ 3)).trans (by decide)

/-- A VarInt value is below 2^62 (R122). -/
theorem varintValue_lt (b0 : Byte) (rest : List Byte) (h : rest.length ≤ 7) :
    varintValue b0 rest < Config.varintBound := by
  rw [varintValue, beNat_cons]
  have h1 : (b0 &&& 0x3F#8).toNat < 64 := by
    rw [BitVec.toNat_and]
    exact Nat.lt_of_le_of_lt Nat.and_le_right (by decide)
  have h2 := beNat_lt rest
  have h3 : 256 ^ rest.length ≤ 256 ^ 7 := Nat.pow_le_pow_right (by decide) h
  have h4 : (b0 &&& 0x3F#8).toNat * 256 ^ rest.length ≤ 63 * 256 ^ rest.length :=
    Nat.mul_le_mul_right _ (by omega)
  have h5 : Config.varintBound = 64 * 256 ^ 7 := by decide
  omega

/-! ### The sub-procedures -/

/-- All that `DecodeVarInt` can answer (R122). -/
theorem decodeVarInt_ok {w : Window} {p v q : Nat} (h : decodeVarInt w p = .ok (v, q)) :
    ∃ b0 rest, w.holds p (b0 :: rest) ∧ rest.length + 1 = varintSize b0 ∧ q = p + varintSize b0 ∧ q ≤ w.lim ∧
      v = varintValue b0 rest := by
  simp only [decodeVarInt, parse_bind_ok, need_ok, readByte_ok, memRead_ok, Except.ok.injEq, Prod.mk.injEq] at h
  obtain ⟨-, h1, b0, h2, -, h3, rest, ⟨h4, h5⟩, h6, h7⟩ := h
  have := varintSize_pos b0
  exact ⟨b0, rest, ⟨h2, h5⟩, by omega, h7.symm, by omega, h6.symm⟩

theorem decodeVarInt_bounds {w : Window} {p v q : Nat} (h : decodeVarInt w p = .ok (v, q)) :
    p < q ∧ q ≤ w.lim ∧ v < Config.varintBound := by
  obtain ⟨b0, rest, -, h2, h3, h4, h5⟩ := decodeVarInt_ok h
  have := varintSize_pos b0
  have := varintSize_le b0
  exact ⟨by omega, h4, h5 ▸ varintValue_lt b0 rest (by omega)⟩

/-- `DecodeVarInt` on a window that holds a whole VarInt. -/
theorem decodeVarInt_of_holds {w : Window} {p : Nat} {b0 : Byte} {rest : List Byte} (h : w.holds p (b0 :: rest))
    (h1 : rest.length + 1 = varintSize b0) (h2 : p + varintSize b0 ≤ w.lim) :
    decodeVarInt w p = .ok (varintValue b0 rest, p + varintSize b0) := by
  have := varintSize_pos b0
  simp only [decodeVarInt, parse_bind_ok, need_ok, readByte_ok, memRead_ok]
  exact ⟨(), by omega, b0, h.1, (), by omega, rest, ⟨by omega, h.2⟩, rfl⟩

theorem decodeVarInt_noFault {w : Window} {p0 p : Nat} (h : w.written p0) (h1 : p0 ≤ p) (f : Fault) :
    decodeVarInt w p ≠ .error (.fault f) := by
  simp only [decodeVarInt, ne_eq, parse_bind_error, need_ok, not_or, not_exists, not_and]
  refine ⟨need_ne_fault _ _ _ _ _ _, fun _ h2 => ⟨readByte_of_written h h1 (by omega) f, fun b0 _ => ⟨need_ne_fault _ _ _ _ _ _,
    fun _ h3 => ⟨memRead_of_written h (by omega) ?_ f, by simp⟩⟩⟩⟩
  have := varintSize_pos b0
  omega

theorem decodeVarInt_raise {w : Window} {p q : Nat} {c : ErrCause} (h : decodeVarInt w p = .error (.raised c q)) :
    c = .varintEof ∧ q = p := by
  simp only [decodeVarInt, parse_bind_error, memRead_ne_raise, readByte_ne_raise, reduceCtorEq, false_or, and_false,
    exists_false, or_false] at h
  rcases h with h | ⟨-, -, b0, -, h⟩ <;> exact need_raise h

/-- A VarInt that does not fit the window raises where it starts (R122). -/
theorem decodeVarInt_short {w : Window} {p : Nat} (h : VarIntShort w p) : decodeVarInt w p = raise .varintEof p := by
  unfold decodeVarInt
  rcases h with h | ⟨b0, h1, h2, h3⟩
  · rw [need_of_lt (by omega), parse_bind_raise]
  · have hs : varintSize b0 = 2 ^ (b0.extractLsb' 6 2).toNat := rfl
    rw [need_of_le (by omega), parse_ok_bind, readByte_ok.2 h2, parse_ok_bind, need_of_lt (by omega), parse_bind_raise]

theorem readVar_short {w : Window} {p : Nat} (h : VarIntShort w p) : readVar w p = raise .varintEof p := by
  unfold readVar
  rw [decodeVarInt_short h, parse_bind_raise]

theorem readVar_raise {w : Window} {p q : Nat} {c : ErrCause} (h : readVar w p = .error (.raised c q)) :
    c = .varintEof ∧ q = p := by
  simp only [readVar, parse_bind_error, reduceCtorEq, and_false, exists_false, or_false] at h
  exact decodeVarInt_raise h

theorem readVar_ok {w : Window} {p q : Nat} {v : VarVal} (h : readVar w p = .ok (v, q)) :
    decodeVarInt w p = .ok (v.toNat, q) := by
  simp only [readVar, parse_bind_ok, Except.ok.injEq, Prod.mk.injEq, Prod.exists] at h
  obtain ⟨n, q', h1, h2, h3⟩ := h
  have := (decodeVarInt_bounds h1).2.2
  rw [h1, ← h2, ← h3, BitVec.toNat_ofNat, Nat.mod_eq_of_lt]
  exact this

theorem readVar_bounds {w : Window} {p q : Nat} {v : VarVal} (h : readVar w p = .ok (v, q)) : p < q ∧ q ≤ w.lim :=
  let h := decodeVarInt_bounds (readVar_ok h)
  ⟨h.1, h.2.1⟩

theorem readVar_noFault {w : Window} {p0 p : Nat} (h : w.written p0) (h1 : p0 ≤ p) (f : Fault) :
    readVar w p ≠ .error (.fault f) := by
  simp only [readVar, ne_eq, parse_bind_error, not_or, not_exists, not_and]
  exact ⟨decodeVarInt_noFault h h1 f, by simp⟩

theorem padBytes_length {n : Nat} {bs : List Byte} (h : bs.length ≤ n) : (padBytes n bs).length = n := by
  simp [padBytes]; omega

/-- The register form of at most 20 bytes keeps R29. -/
theorem Cid.ofBytes_inv {bs : List Byte} (h : bs.length ≤ 20) : CidInv (Cid.ofBytes bs) := by
  have h1 : (Cid.ofBytes bs).len.toNat = bs.length := by
    simp only [Cid.ofBytes, BitVec.toNat_ofNat]; omega
  refine ⟨by omega, padBytes_length h, ?_⟩
  rw [h1]
  simp [Cid.ofBytes, padBytes, Config.maxCidLen]

theorem Cid.zero_inv : CidInv Cid.zero := ⟨by decide, by decide, by decide⟩

/-- A ConnectionId that fails raises at its length byte (R128, R130). -/
theorem decodeCid_fails {w : Window} {p : Nat} {c : ErrCause} (h : CidFails w p c) : decodeCid w p = raise c p := by
  unfold decodeCid
  rcases h with ⟨h, rfl⟩ | ⟨len, h1, h2, h3⟩
  · rw [need_of_lt (by omega), parse_bind_raise]
  · rw [need_of_le (by omega), parse_ok_bind, readByte_ok.2 h2, parse_ok_bind]
    rcases h3 with ⟨h, rfl⟩ | ⟨h, h', rfl⟩
    · rw [if_pos (by simpa [Config.maxCidLen] using h)]
    · rw [if_neg (by simp [Config.maxCidLen]; omega), need_of_lt (by omega), parse_bind_raise]

/-- All that `DecodeCid` can answer (R128). -/
theorem decodeCid_ok {w : Window} {p q : Nat} {c : Cid} (h : decodeCid w p = .ok (c, q)) :
    ∃ len bs, w.holds p (len :: bs) ∧ bs.length = len.toNat ∧ len.toNat ≤ 20 ∧ q = p + 1 + len.toNat ∧ q ≤ w.lim ∧
      c = Cid.ofBytes bs := by
  simp only [decodeCid, parse_bind_ok, need_ok, readByte_ok] at h
  obtain ⟨-, h1, len, h2, h3⟩ := h
  split at h3
  · simp at h3
  · rename_i h4
    simp only [parse_bind_ok, need_ok, memRead_ok, Except.ok.injEq, Prod.mk.injEq] at h3
    obtain ⟨-, h5, bs, ⟨h6, h7⟩, h8, h9⟩ := h3
    simp only [Config.maxCidLen] at h4
    exact ⟨len, bs, ⟨h2, h7⟩, h6, by omega, h9.symm, by omega, h8.symm⟩

theorem decodeCid_bounds {w : Window} {p q : Nat} {c : Cid} (h : decodeCid w p = .ok (c, q)) :
    p < q ∧ q ≤ w.lim ∧ CidInv c := by
  obtain ⟨len, bs, -, h2, h3, h4, h5, h6⟩ := decodeCid_ok h
  exact ⟨by omega, h5, h6 ▸ Cid.ofBytes_inv (by omega)⟩

/-- `DecodeCid` on a window that holds a whole ConnectionId. -/
theorem decodeCid_of_holds {w : Window} {p : Nat} {len : Byte} {bs : List Byte} (h : w.holds p (len :: bs))
    (h1 : bs.length = len.toNat) (h2 : len.toNat ≤ 20) (h3 : p + 1 + len.toNat ≤ w.lim) :
    decodeCid w p = .ok (Cid.ofBytes bs, p + 1 + len.toNat) := by
  simp only [decodeCid, parse_bind_ok, need_ok, readByte_ok]
  refine ⟨(), by omega, len, h.1, ?_⟩
  rw [if_neg (by simp only [Config.maxCidLen]; omega)]
  simp only [parse_bind_ok, need_ok, memRead_ok]
  exact ⟨(), by omega, bs, ⟨h1, h.2⟩, rfl⟩

theorem decodeCid_noFault {w : Window} {p0 p : Nat} (h : w.written p0) (h1 : p0 ≤ p) (f : Fault) :
    decodeCid w p ≠ .error (.fault f) := by
  simp only [decodeCid, ne_eq, parse_bind_error, need_ok, not_or, not_exists, not_and]
  refine ⟨need_ne_fault _ _ _ _ _ _, fun _ h2 => ⟨readByte_of_written h h1 (by omega) f, fun len _ => ?_⟩⟩
  split
  · simp
  · simp only [parse_bind_error, need_ok, not_or, not_exists, not_and]
    exact ⟨need_ne_fault _ _ _ _ _ _, fun _ h3 => ⟨memRead_of_written h (by omega) (by omega) f, by simp⟩⟩

theorem decodeCid_raise {w : Window} {p q : Nat} {c : ErrCause} (h : decodeCid w p = .error (.raised c q)) :
    (c = .cidLenEof ∨ c = .cidTooLong ∨ c = .cidEof) ∧ (q = p ∨ q = p + 1) := by
  simp only [decodeCid, parse_bind_error, readByte_ne_raise, false_or] at h
  rcases h with h | ⟨-, -, len, -, h⟩
  · have := need_raise h
    exact ⟨.inl this.1, .inl this.2⟩
  · split at h
    · simp only [raise, Except.error.injEq, Stop.raised.injEq] at h
      exact ⟨.inr (.inl h.1.symm), .inl h.2.symm⟩
    · simp only [parse_bind_error, memRead_ne_raise, reduceCtorEq, and_false, exists_false, or_false] at h
      have := need_raise h
      exact ⟨.inr (.inr this.1), by omega⟩

/-- All that `DecodePn` can answer (R131). -/
theorem decodePn_ok {w : Window} {p q k : Nat} {v : BitVec 32} (h : decodePn w p k = .ok (v, q)) :
    ∃ bs, w.holds p bs ∧ bs.length = k ∧ v = BitVec.ofNat 32 (beNat bs) ∧ q = p + k ∧ k ≤ w.lim - p := by
  simp only [decodePn, parse_bind_ok, need_ok, memRead_ok, Except.ok.injEq, Prod.mk.injEq] at h
  obtain ⟨-, h1, bs, ⟨h2, h3⟩, h4, h5⟩ := h
  exact ⟨bs, h3, h2, h4.symm, h5.symm, h1⟩

theorem decodePn_noFault {w : Window} {p0 p k : Nat} (h : w.written p0) (h1 : p0 ≤ p) (f : Fault) :
    decodePn w p k ≠ .error (.fault f) := by
  simp only [decodePn, ne_eq, parse_bind_error, need_ok, not_or, not_exists, not_and]
  refine ⟨need_ne_fault _ _ _ _ _ _, fun _ h2 => ⟨?_, by simp⟩⟩
  by_cases h3 : k = 0
  · subst h3; simp [memRead]
  · exact memRead_of_written h h1 (by omega) f

theorem decodePn_raise {w : Window} {p k q : Nat} {c : ErrCause} (h : decodePn w p k = .error (.raised c q)) :
    c = .pnEof ∧ q = p := by
  simp only [decodePn, parse_bind_error, memRead_ne_raise, reduceCtorEq, and_false, exists_false, or_false] at h
  exact need_raise h

/-- All that `Take` can answer (R196). -/
theorem takeSlice_ok {w : Window} {p n q : Nat} {x : Slice} (h : takeSlice w p n = .ok (x, q)) :
    x = sliceOf w p n ∧ q = p + n ∧ n ≤ w.lim - p := by
  simp only [takeSlice, parse_bind_ok, need_ok, Except.ok.injEq, Prod.mk.injEq] at h
  obtain ⟨-, h1, h2, h3⟩ := h
  exact ⟨h2.symm, h3.symm, h1⟩

theorem takeSlice_raise {w : Window} {p n q : Nat} {c : ErrCause} (h : takeSlice w p n = .error (.raised c q)) :
    c = .dataEof ∧ q = p := by
  simp only [takeSlice, parse_bind_error, reduceCtorEq, and_false, exists_false, or_false] at h
  exact need_raise h

@[simp] theorem takeSlice_ne_fault (w : Window) (p n : Nat) (f : Fault) : takeSlice w p n ≠ .error (.fault f) := by
  simp [takeSlice, parse_bind_error]

/-- All that `Fixed` can answer (R196). -/
theorem readFixed_ok {w : Window} {p n q : Nat} {bs : List Byte} (h : readFixed w p n = .ok (bs, q)) :
    w.holds p bs ∧ bs.length = n ∧ q = p + n ∧ n ≤ w.lim - p := by
  simp only [readFixed, parse_bind_ok, need_ok, memRead_ok, Except.ok.injEq, Prod.mk.injEq] at h
  obtain ⟨-, h1, bs', ⟨h2, h3⟩, h4, h5⟩ := h
  subst h4
  exact ⟨h3, h2, h5.symm, h1⟩

theorem readFixed_raise {w : Window} {p n q : Nat} {c : ErrCause} (h : readFixed w p n = .error (.raised c q)) :
    c = .fixedEof ∧ q = p := by
  simp only [readFixed, parse_bind_error, memRead_ne_raise, reduceCtorEq, and_false, exists_false, or_false] at h
  exact need_raise h

theorem readFixed_noFault {w : Window} {p0 p n : Nat} (h : w.written p0) (h1 : p0 ≤ p) (hn : 0 < n) (f : Fault) :
    readFixed w p n ≠ .error (.fault f) := by
  simp only [readFixed, ne_eq, parse_bind_error, need_ok, not_or, not_exists, not_and]
  exact ⟨need_ne_fault _ _ _ _ _ _, fun _ h2 => ⟨memRead_of_written h h1 (by omega) f, by simp⟩⟩

theorem low32_lt (w : Word) : low32 w < 4294967296 := Nat.mod_lt _ (by decide)

/-- All that the precheck can answer (R250). -/
theorem ibufWindow_ok {pr : Params} {l : Lane} {w : Window} {p : Nat} (h : ibufWindow pr l = .ok (w, p)) :
    low32 l.ilen ≤ pr.ibufCap.val ∧ low32 l.cur ≤ low32 l.ilen ∧
      w = { sel := .ibuf, mem := l.ibuf, lim := low32 l.ilen } ∧ p = low32 l.cur := by
  unfold ibufWindow at h
  split at h
  · simp at h
  · simp only [Except.ok.injEq, Prod.mk.injEq] at h
    exact ⟨by omega, by omega, h.1.symm, h.2.symm⟩

theorem ibufWindow_of_ok {pr : Params} {l : Lane} (h : low32 l.ilen ≤ pr.ibufCap.val)
    (h1 : low32 l.cur ≤ low32 l.ilen) :
    ibufWindow pr l = .ok ({ sel := .ibuf, mem := l.ibuf, lim := low32 l.ilen }, low32 l.cur) := by
  rw [ibufWindow, if_neg (by omega)]

theorem ibufWindow_of_bad {pr : Params} {l : Lane} (h : ¬ (low32 l.ilen ≤ pr.ibufCap.val ∧ low32 l.cur ≤ low32 l.ilen)) :
    ibufWindow pr l = raise .badCursor (low32 l.cur) := by
  rw [ibufWindow, if_pos (by omega)]

@[simp] theorem ibufWindow_ne_fault (pr : Params) (l : Lane) (f : Fault) : ibufWindow pr l ≠ .error (.fault f) := by
  unfold ibufWindow; split <;> simp

/-- All that a command step can answer (R120): its rule's lane, or error entry; nothing else of the state changes. -/
theorem runCommand_next {c : Cmd} {op : Byte} {rule : Params → Lane → Parse Lane} {s t : State}
    (h : runCommand c op rule s = .next t) :
    ∃ l, t = { s with lane := l } ∧ (rule s.params (s.lane.accept op) = .ok l ∨
      ∃ e p, rule s.params (s.lane.accept op) = .error (.raised e p) ∧ l = errorEntry c e p (s.lane.accept op)) := by
  unfold runCommand at h
  split at h
  · rename_i l hl
    cases h
    exact ⟨l, rfl, .inl hl⟩
  · rename_i e p he
    cases h
    exact ⟨_, rfl, .inr ⟨e, p, he, rfl⟩⟩
  · cases h

theorem runCommand_of_ok {c : Cmd} {op : Byte} {rule : Params → Lane → Parse Lane} {s : State} {l : Lane}
    (h : rule s.params (s.lane.accept op) = .ok l) : runCommand c op rule s = .next { s with lane := l } := by
  simp [runCommand, h]

theorem runCommand_of_raise {c : Cmd} {op : Byte} {rule : Params → Lane → Parse Lane} {s : State} {e : ErrCause}
    {p : Nat} (h : rule s.params (s.lane.accept op) = raise e p) :
    runCommand c op rule s = .next { s with lane := errorEntry c e p (s.lane.accept op) } := by
  rw [raise] at h
  simp [runCommand, h]

end Sys2Proof.Machine
end

