-- ==== Sys2Proof/Laws/Frames.lean ====
section
/-! SUPPORT. What a frame rule can do, said once for all rows: the record it answers is in form, it moves forward inside
the window, its pairs fit `ACKR`, and it faults only on an unwritten byte. -/

namespace Sys2Proof.Machine

/-- What holds of every frame a rule answers. -/
structure FrameFits (pr : Params) (w : Window) (p : Nat) (out : FrameOut) : Prop where
  forward : p ≤ out.pos
  inside : out.pos ≤ w.lim
  counted : out.frm.nranges.toNat ≤ out.ranges.length
  capped : ∀ n, pr.ackCap = some n → out.ranges.length ≤ n
  cid : CidInv out.frm.cid
  srt : out.frm.srt.length = 16
  pdata : out.frm.pdata.length = 8

/-- A frame without pairs whose CID, token and path data are in form. -/
theorem plainFrame_fits {pr : Params} {w : Window} {p q : Nat} {f : Frm} (h : p ≤ q) (h1 : q ≤ w.lim)
    (h2 : f.nranges = 0) (h3 : CidInv f.cid) (h4 : f.srt.length = 16) (h5 : f.pdata.length = 8) :
    FrameFits pr w p (plainFrame f q) :=
  ⟨h, h1, by simp [plainFrame, h2], by simp [plainFrame], h3, h4, h5⟩

/-- The record a frame rule starts from is in form. -/
theorem frameStart_form (t : VarVal) :
    (frameStart t).nranges = 0 ∧ CidInv (frameStart t).cid ∧ (frameStart t).srt.length = 16 ∧
      (frameStart t).pdata.length = 8 :=
  ⟨rfl, Cid.zero_inv, rfl, rfl⟩

/-- All that the pairs of an Ack frame can be (R199). -/
theorem ackPairs_ok {cap : Option Nat} {w : Window} {fuel left i p q : Nat} {rs : List AckRange}
    (h : ackPairs cap w fuel left i p = .ok (rs, q)) (hp : p ≤ w.lim) :
    rs.length = left ∧ p + 2 * left ≤ q ∧ q ≤ w.lim ∧ (∀ n, cap = some n → left ≠ 0 → i + left ≤ n) := by
  induction fuel generalizing left i p rs with
  | zero =>
    unfold ackPairs at h
    split at h
    · simp only [Except.ok.injEq, Prod.mk.injEq] at h
      obtain ⟨rfl, rfl⟩ := h
      subst_vars
      simp [hp]
    · simp at h
  | succ fuel ih =>
    unfold ackPairs at h
    split at h
    · simp only [Except.ok.injEq, Prod.mk.injEq] at h
      obtain ⟨rfl, rfl⟩ := h
      subst_vars
      simp [hp]
    · rename_i hl
      simp only [parse_bind_ok, Prod.exists] at h
      obtain ⟨gap, p1, h1, rlen, p2, h2, h3⟩ := h
      split at h3
      · simp at h3
      · rename_i hc
        simp only [parse_bind_ok, Prod.exists, Except.ok.injEq, Prod.mk.injEq] at h3
        obtain ⟨rs', p3, h4, rfl, rfl⟩ := h3
        have b1 := readVar_bounds h1
        have b2 := readVar_bounds h2
        obtain ⟨e1, e2, e3, e4⟩ := ih h4 b2.2
        refine ⟨by simp [e1]; omega, by omega, e3, fun n hn _ => ?_⟩
        have : i < n := by simpa [pastAckCap, hn] using hc
        by_cases hl' : left - 1 = 0
        · omega
        · have := e4 n hn hl'
          omega

theorem ackPairs_noFault {cap : Option Nat} {w : Window} {p0 fuel left i p : Nat} (h : w.written p0) (h1 : p0 ≤ p)
    (f : Fault) : ackPairs cap w fuel left i p ≠ .error (.fault f) := by
  induction fuel generalizing left i p with
  | zero => unfold ackPairs; split <;> simp
  | succ fuel ih =>
    unfold ackPairs
    split
    · simp
    · simp only [ne_eq, parse_bind_error, not_or, not_exists, not_and, Prod.forall]
      refine ⟨readVar_noFault h h1 f, fun gap p1 e1 => ?_⟩
      have b1 := readVar_bounds e1
      refine ⟨readVar_noFault h (by omega) f, fun rlen p2 e2 => ?_⟩
      have b2 := readVar_bounds e2
      split
      · simp
      · simp only [parse_bind_error, not_or, not_exists, not_and, Prod.forall]
        exact ⟨ih (by omega), by simp⟩

/-- All that the common part of an Ack frame can answer (R199). -/
theorem ackCommon_ok {pr : Params} {w : Window} {f : Frm} {p : Nat} {out : FrameOut}
    (h : ackCommon pr w f p = .ok out) (hf : CidInv f.cid ∧ f.srt.length = 16 ∧ f.pdata.length = 8) :
    FrameFits pr w p out := by
  simp only [ackCommon, parse_bind_ok, Prod.exists, Except.ok.injEq] at h
  obtain ⟨a, p1, h1, b, p2, h2, c, p3, h3, d, p4, h4, rs, p5, h5, rfl⟩ := h
  have b1 := readVar_bounds h1
  have b2 := readVar_bounds h2
  have b3 := readVar_bounds h3
  have b4 := readVar_bounds h4
  obtain ⟨e1, e2, e3, e4⟩ := ackPairs_ok h5 b4.2
  refine ⟨by simp only; omega, e3, ?_, fun n hn => ?_, hf.1, hf.2.1, hf.2.2⟩
  · simp only [BitVec.toNat_ofNat, e1]
    exact Nat.mod_le _ _
  · simp only [e1]
    by_cases hl : c.toNat = 0
    · omega
    · have := e4 n hn hl
      omega

theorem ackCommon_noFault {pr : Params} {w : Window} {f : Frm} {p0 p : Nat} (h : w.written p0) (h1 : p0 ≤ p)
    (e : Fault) : ackCommon pr w f p ≠ .error (.fault e) := by
  simp only [ackCommon, ne_eq, parse_bind_error, not_or, not_exists, not_and, Prod.forall]
  refine ⟨readVar_noFault h h1 e, fun _ p1 e1 => ?_⟩
  have b1 := readVar_bounds e1
  refine ⟨readVar_noFault h (by omega) e, fun _ p2 e2 => ?_⟩
  have b2 := readVar_bounds e2
  refine ⟨readVar_noFault h (by omega) e, fun _ p3 e3 => ?_⟩
  have b3 := readVar_bounds e3
  refine ⟨readVar_noFault h (by omega) e, fun _ p4 e4 => ?_⟩
  have b4 := readVar_bounds e4
  exact ⟨ackPairs_noFault h (by omega) e, by simp⟩

/-- All that placed data can be (R203). -/
theorem placedData_ok {pr : Params} {w : Window} {off len p q : Nat} {x : Slice}
    (h : placedData pr w off len p = .ok (x, q)) (hp : p ≤ w.lim) : p ≤ q ∧ q ≤ w.lim := by
  unfold placedData at h
  split at h
  · simp only [parse_bind_ok, need_ok, Except.ok.injEq, Prod.mk.injEq] at h
    obtain ⟨-, h1, -, h2⟩ := h
    omega
  · obtain ⟨-, h1, h2⟩ := takeSlice_ok h
    omega

@[simp] theorem placedData_ne_fault (pr : Params) (w : Window) (off len p : Nat) (f : Fault) :
    placedData pr w off len p ≠ .error (.fault f) := by
  unfold placedData; split <;> simp [parse_bind_error]

/-- All that data without a length can be (R205). -/
theorem restData_ok {pr : Params} {w : Window} {off p q : Nat} {x : Slice}
    (h : restData pr w off p = .ok (x, q)) : q = w.lim := by
  unfold restData at h
  split at h
  · simp only [parse_bind_ok, Except.ok.injEq, Prod.mk.injEq] at h
    obtain ⟨-, -, -, h2⟩ := h
    exact h2.symm
  · simp only [Except.ok.injEq, Prod.mk.injEq] at h
    exact h.2.symm

@[simp] theorem restData_ne_fault (pr : Params) (w : Window) (off p : Nat) (f : Fault) :
    restData pr w off p ≠ .error (.fault f) := by
  unfold restData; split <;> simp [parse_bind_error]

/-- All that the data of a Stream frame can be (R205). -/
theorem streamData_ok {pr : Params} {l : BitVec 1} {w : Window} {off len p q : Nat} {x : Slice}
    (h : streamData pr l w off len p = .ok (x, q)) (hp : p ≤ w.lim) : p ≤ q ∧ q ≤ w.lim := by
  unfold streamData at h
  split at h
  · exact placedData_ok h hp
  · have := restData_ok h
    omega

@[simp] theorem streamData_ne_fault (pr : Params) (l : BitVec 1) (w : Window) (off len p : Nat) (f : Fault) :
    streamData pr l w off len p ≠ .error (.fault f) := by
  unfold streamData; split <;> simp

/-- All that an optional field can be (R205). -/
theorem optVar_ok {b : BitVec 1} {w : Window} {p q : Nat} {v : VarVal} (h : optVar b w p = .ok (v, q))
    (hp : p ≤ w.lim) : p ≤ q ∧ q ≤ w.lim := by
  unfold optVar at h
  split at h
  · have := readVar_bounds h
    omega
  · simp only [Except.ok.injEq, Prod.mk.injEq] at h
    omega

theorem optVar_noFault {b : BitVec 1} {w : Window} {p0 p : Nat} (h : w.written p0) (h1 : p0 ≤ p) (f : Fault) :
    optVar b w p ≠ .error (.fault f) := by
  unfold optVar
  split
  · exact readVar_noFault h h1 f
  · simp

theorem oneField_ok {pr : Params} {k : FrmKind} {w : Window} {f : Frm} {p : Nat} {out : FrameOut}
    (h : oneField k w f p = .ok out)
    (hf : f.nranges = 0 ∧ CidInv f.cid ∧ f.srt.length = 16 ∧ f.pdata.length = 8) : FrameFits pr w p out := by
  simp only [oneField, parse_bind_ok, Prod.exists, Except.ok.injEq] at h
  obtain ⟨a, p1, h1, rfl⟩ := h
  have b1 := readVar_bounds h1
  exact plainFrame_fits (by omega) b1.2 hf.1 hf.2.1 hf.2.2.1 hf.2.2.2

theorem oneField_noFault {k : FrmKind} {w : Window} {f : Frm} {p0 p : Nat} (h : w.written p0) (h1 : p0 ≤ p)
    (e : Fault) : oneField k w f p ≠ .error (.fault e) := by
  simp only [oneField, ne_eq, parse_bind_error, not_or, not_exists, not_and]
  exact ⟨readVar_noFault h h1 e, by simp⟩

theorem twoFields_ok {pr : Params} {k : FrmKind} {w : Window} {f : Frm} {p : Nat} {out : FrameOut}
    (h : twoFields k w f p = .ok out)
    (hf : f.nranges = 0 ∧ CidInv f.cid ∧ f.srt.length = 16 ∧ f.pdata.length = 8) : FrameFits pr w p out := by
  simp only [twoFields, parse_bind_ok, Prod.exists, Except.ok.injEq] at h
  obtain ⟨a, p1, h1, b, p2, h2, rfl⟩ := h
  have b1 := readVar_bounds h1
  have b2 := readVar_bounds h2
  exact plainFrame_fits (by omega) b2.2 hf.1 hf.2.1 hf.2.2.1 hf.2.2.2

theorem twoFields_noFault {k : FrmKind} {w : Window} {f : Frm} {p0 p : Nat} (h : w.written p0) (h1 : p0 ≤ p)
    (e : Fault) : twoFields k w f p ≠ .error (.fault e) := by
  simp only [twoFields, ne_eq, parse_bind_error, not_or, not_exists, not_and, Prod.forall]
  refine ⟨readVar_noFault h h1 e, fun _ p1 e1 => ?_⟩
  have b1 := readVar_bounds e1
  exact ⟨readVar_noFault h (by omega) e, by simp⟩

theorem ruleStream_ok {pr : Params} {o l fin : BitVec 1} {w : Window} {t0 : Nat} {f : Frm} {p : Nat} {out : FrameOut}
    (h : ruleStream o l fin pr w t0 f p = .ok out)
    (hf : f.nranges = 0 ∧ CidInv f.cid ∧ f.srt.length = 16 ∧ f.pdata.length = 8) : FrameFits pr w p out := by
  simp only [ruleStream, parse_bind_ok, Prod.exists, Except.ok.injEq] at h
  obtain ⟨a, p1, h1, b, p2, h2, c, p3, h3, x, p4, h4, rfl⟩ := h
  have b1 := readVar_bounds h1
  have b2 := optVar_ok h2 b1.2
  have b3 := optVar_ok h3 b2.2
  have b4 := streamData_ok h4 b3.2
  exact plainFrame_fits (by omega) b4.2 hf.1 hf.2.1 hf.2.2.1 hf.2.2.2

theorem ruleStream_noFault {pr : Params} {o l fin : BitVec 1} {w : Window} {t0 : Nat} {f : Frm} {p0 p : Nat}
    (h : w.written p0) (h1 : p0 ≤ p) (e : Fault) : ruleStream o l fin pr w t0 f p ≠ .error (.fault e) := by
  simp only [ruleStream, ne_eq, parse_bind_error, not_or, not_exists, not_and, Prod.forall]
  refine ⟨readVar_noFault h h1 e, fun _ p1 e1 => ?_⟩
  have b1 := readVar_bounds e1
  refine ⟨optVar_noFault h (by omega) e, fun _ p2 e2 => ?_⟩
  have b2 := optVar_ok e2 b1.2
  exact ⟨optVar_noFault h (by omega) e, by simp⟩

/-- What every frame rule can answer, from the record it starts with (R190, R191). -/
theorem frameRule_ok {i : Instr} {pr : Params} {w : Window} {t0 p : Nat} {t : VarVal} {out : FrameOut}
    (h : frameRule i pr w t0 (frameStart t) p = .ok out) (hp : p ≤ w.lim) : FrameFits pr w p out := by
  have hf := frameStart_form t
  have plain : ∀ {q : Nat} {f : Frm}, .ok (plainFrame f q) = (.ok out : Parse FrameOut) → p ≤ q → q ≤ w.lim →
      f.nranges = 0 → CidInv f.cid → f.srt.length = 16 → f.pdata.length = 8 → FrameFits pr w p out := by
    intro q f h1 h2 h3 h4 h5 h6 h7
    cases h1
    exact plainFrame_fits h2 h3 h4 h5 h6 h7
  cases i
  case frmPadding => exact plain h (by omega) hp hf.1 hf.2.1 hf.2.2.1 hf.2.2.2
  case frmPing => exact plain h (by omega) hp hf.1 hf.2.1 hf.2.2.1 hf.2.2.2
  case frmHandshakeDone => exact plain h (by omega) hp hf.1 hf.2.1 hf.2.2.1 hf.2.2.2
  case frmAck => exact ackCommon_ok h hf.2
  case frmAckEcn =>
    simp only [frameRule, ruleAckEcn, parse_bind_ok, Prod.exists, Except.ok.injEq] at h
    obtain ⟨out', h0, a, p1, h1, b, p2, h2, c, p3, h3, rfl⟩ := h
    have fits := ackCommon_ok h0 hf.2
    have b1 := readVar_bounds h1
    have b2 := readVar_bounds h2
    have b3 := readVar_bounds h3
    exact ⟨by have := fits.forward; simp only; omega, b3.2, fits.counted, fits.capped, fits.cid, fits.srt, fits.pdata⟩
  case frmResetStream =>
    simp only [frameRule, ruleResetStream, parse_bind_ok, Prod.exists] at h
    obtain ⟨a, p1, h1, b, p2, h2, c, p3, h3, h⟩ := h
    have b1 := readVar_bounds h1
    have b2 := readVar_bounds h2
    have b3 := readVar_bounds h3
    exact plain h (by omega) b3.2 hf.1 hf.2.1 hf.2.2.1 hf.2.2.2
  case frmStopSending => exact twoFields_ok h hf
  case frmCrypto =>
    simp only [frameRule, ruleCrypto, parse_bind_ok, Prod.exists] at h
    obtain ⟨a, p1, h1, b, p2, h2, x, p3, h3, h⟩ := h
    have b1 := readVar_bounds h1
    have b2 := readVar_bounds h2
    have b3 := placedData_ok h3 b2.2
    exact plain h (by omega) b3.2 hf.1 hf.2.1 hf.2.2.1 hf.2.2.2
  case frmNewToken =>
    simp only [frameRule, ruleNewToken, parse_bind_ok, Prod.exists] at h
    obtain ⟨a, p1, h1, x, p2, h2, h⟩ := h
    have b1 := readVar_bounds h1
    obtain ⟨-, b2, b3⟩ := takeSlice_ok h2
    exact plain h (by omega) (by omega) hf.1 hf.2.1 hf.2.2.1 hf.2.2.2
  case frmStream => exact ruleStream_ok (t0 := t0) h hf
  case frmMaxData => exact oneField_ok h hf
  case frmMaxStreamData => exact twoFields_ok h hf
  case frmMaxStreams => exact oneField_ok h hf
  case frmDataBlocked => exact oneField_ok h hf
  case frmStreamDataBlocked => exact twoFields_ok h hf
  case frmStreamsBlocked => exact oneField_ok h hf
  case frmNewConnectionId =>
    simp only [frameRule, ruleNewConnectionId, parse_bind_ok, Prod.exists] at h
    obtain ⟨a, p1, h1, b, p2, h2, c, p3, h3, d, p4, h4, h⟩ := h
    have b1 := readVar_bounds h1
    have b2 := readVar_bounds h2
    have b3 := decodeCid_bounds h3
    obtain ⟨-, b4, b5, b6⟩ := readFixed_ok h4
    exact plain h (by omega) (by omega) hf.1 b3.2.2 b4 hf.2.2.2
  case frmRetireConnectionId => exact oneField_ok h hf
  case frmPathChallenge =>
    simp only [frameRule, rulePathChallenge, parse_bind_ok, Prod.exists] at h
    obtain ⟨d, p1, h1, h⟩ := h
    obtain ⟨-, b1, b2, b3⟩ := readFixed_ok h1
    exact plain h (by omega) (by omega) hf.1 hf.2.1 hf.2.2.1 b1
  case frmPathResponse =>
    simp only [frameRule, rulePathResponse, parse_bind_ok, Prod.exists] at h
    obtain ⟨d, p1, h1, h⟩ := h
    obtain ⟨-, b1, b2, b3⟩ := readFixed_ok h1
    exact plain h (by omega) (by omega) hf.1 hf.2.1 hf.2.2.1 b1
  case frmConnectionCloseQuic =>
    simp only [frameRule, ruleConnectionCloseQuic, parse_bind_ok, Prod.exists] at h
    obtain ⟨a, p1, h1, b, p2, h2, c, p3, h3, x, p4, h4, h⟩ := h
    have b1 := readVar_bounds h1
    have b2 := readVar_bounds h2
    have b3 := readVar_bounds h3
    obtain ⟨-, b4, b5⟩ := takeSlice_ok h4
    exact plain h (by omega) (by omega) hf.1 hf.2.1 hf.2.2.1 hf.2.2.2
  case frmConnectionCloseApp =>
    simp only [frameRule, ruleConnectionCloseApp, parse_bind_ok, Prod.exists] at h
    obtain ⟨a, p1, h1, c, p3, h3, x, p4, h4, h⟩ := h
    have b1 := readVar_bounds h1
    have b3 := readVar_bounds h3
    obtain ⟨-, b4, b5⟩ := takeSlice_ok h4
    exact plain h (by omega) (by omega) hf.1 hf.2.1 hf.2.2.1 hf.2.2.2
  all_goals simp [frameRule, ruleUnknown] at h

/-- No frame rule faults on a written window (R64). -/
theorem frameRule_noFault {i : Instr} {pr : Params} {w : Window} {t0 p0 p : Nat} {f : Frm} (h : w.written p0)
    (h1 : p0 ≤ p) (e : Fault) : frameRule i pr w t0 f p ≠ .error (.fault e) := by
  cases i
  case frmAck => exact ackCommon_noFault h h1 e
  case frmAckEcn =>
    simp only [frameRule, ruleAckEcn, ne_eq, parse_bind_error, not_or, not_exists, not_and, Prod.forall]
    refine ⟨ackCommon_noFault h h1 e, fun out e0 => ?_⟩
    have b0 : p ≤ out.pos := by
      simp only [ackCommon, parse_bind_ok, Prod.exists, Except.ok.injEq] at e0
      obtain ⟨a, p1, h1, b, p2, h2, c, p3, h3, d, p4, h4, rs, p5, h5, rfl⟩ := e0
      have b1 := readVar_bounds h1
      have b2 := readVar_bounds h2
      have b3 := readVar_bounds h3
      have b4 := readVar_bounds h4
      have := ackPairs_ok h5 b4.2
      simp only
      omega
    refine ⟨readVar_noFault h (by omega) e, fun _ p1 e1 => ?_⟩
    have b1 := readVar_bounds e1
    refine ⟨readVar_noFault h (by omega) e, fun _ p2 e2 => ?_⟩
    have b2 := readVar_bounds e2
    exact ⟨readVar_noFault h (by omega) e, by simp⟩
  case frmResetStream =>
    simp only [frameRule, ruleResetStream, ne_eq, parse_bind_error, not_or, not_exists, not_and, Prod.forall]
    refine ⟨readVar_noFault h h1 e, fun _ p1 e1 => ?_⟩
    have b1 := readVar_bounds e1
    refine ⟨readVar_noFault h (by omega) e, fun _ p2 e2 => ?_⟩
    have b2 := readVar_bounds e2
    exact ⟨readVar_noFault h (by omega) e, by simp⟩
  case frmStopSending => exact twoFields_noFault h h1 e
  case frmCrypto =>
    simp only [frameRule, ruleCrypto, ne_eq, parse_bind_error, not_or, not_exists, not_and, Prod.forall]
    refine ⟨readVar_noFault h h1 e, fun _ p1 e1 => ?_⟩
    have b1 := readVar_bounds e1
    exact ⟨readVar_noFault h (by omega) e, by simp⟩
  case frmNewToken =>
    simp only [frameRule, ruleNewToken, ne_eq, parse_bind_error, not_or, not_exists, not_and, Prod.forall]
    exact ⟨readVar_noFault h h1 e, by simp⟩
  case frmStream => exact ruleStream_noFault (t0 := t0) h h1 e
  case frmMaxData => exact oneField_noFault h h1 e
  case frmMaxStreamData => exact twoFields_noFault h h1 e
  case frmMaxStreams => exact oneField_noFault h h1 e
  case frmDataBlocked => exact oneField_noFault h h1 e
  case frmStreamDataBlocked => exact twoFields_noFault h h1 e
  case frmStreamsBlocked => exact oneField_noFault h h1 e
  case frmNewConnectionId =>
    simp only [frameRule, ruleNewConnectionId, ne_eq, parse_bind_error, not_or, not_exists, not_and, Prod.forall]
    refine ⟨readVar_noFault h h1 e, fun _ p1 e1 => ?_⟩
    have b1 := readVar_bounds e1
    refine ⟨readVar_noFault h (by omega) e, fun _ p2 e2 => ?_⟩
    have b2 := readVar_bounds e2
    refine ⟨decodeCid_noFault h (by omega) e, fun _ p3 e3 => ?_⟩
    have b3 := decodeCid_bounds e3
    exact ⟨readFixed_noFault h (by omega) (by omega) e, by simp⟩
  case frmRetireConnectionId => exact oneField_noFault h h1 e
  case frmPathChallenge =>
    simp only [frameRule, rulePathChallenge, ne_eq, parse_bind_error, not_or, not_exists, not_and]
    exact ⟨readFixed_noFault h h1 (by omega) e, by simp⟩
  case frmPathResponse =>
    simp only [frameRule, rulePathResponse, ne_eq, parse_bind_error, not_or, not_exists, not_and]
    exact ⟨readFixed_noFault h h1 (by omega) e, by simp⟩
  case frmConnectionCloseQuic =>
    simp only [frameRule, ruleConnectionCloseQuic, ne_eq, parse_bind_error, not_or, not_exists, not_and, Prod.forall]
    refine ⟨readVar_noFault h h1 e, fun _ p1 e1 => ?_⟩
    have b1 := readVar_bounds e1
    refine ⟨readVar_noFault h (by omega) e, fun _ p2 e2 => ?_⟩
    have b2 := readVar_bounds e2
    exact ⟨readVar_noFault h (by omega) e, by simp⟩
  case frmConnectionCloseApp =>
    simp only [frameRule, ruleConnectionCloseApp, ne_eq, parse_bind_error, not_or, not_exists, not_and, Prod.forall]
    refine ⟨readVar_noFault h h1 e, fun _ p1 e1 => ?_⟩
    have b1 := readVar_bounds e1
    exact ⟨readVar_noFault h (by omega) e, by simp⟩
  all_goals simp [frameRule, rulePadding, rulePing, ruleHandshakeDone, ruleUnknown]

/-- The causes a frame rule can raise on the fields after the type (R196 to R218). -/
def fieldCauses : List ErrCause :=
  [.varintEof, .cidLenEof, .cidTooLong, .cidEof, .fixedEof, .dataEof, .ackRanges]

theorem readVar_fieldCause {w : Window} {p q : Nat} {c : ErrCause} (h : readVar w p = .error (.raised c q)) :
    c ∈ fieldCauses := by
  rw [(readVar_raise h).1]; decide

theorem decodeCid_fieldCause {w : Window} {p q : Nat} {c : ErrCause} (h : decodeCid w p = .error (.raised c q)) :
    c ∈ fieldCauses := by
  rcases (decodeCid_raise h).1 with rfl | rfl | rfl <;> decide

theorem need_fieldCause {w : Window} {p n q r : Nat} {c : ErrCause} (h : need w p n .dataEof q = .error (.raised c r)) :
    c ∈ fieldCauses := by
  rw [(need_raise h).1]; decide

theorem takeSlice_fieldCause {w : Window} {p n q : Nat} {c : ErrCause}
    (h : takeSlice w p n = .error (.raised c q)) : c ∈ fieldCauses := by
  rw [(takeSlice_raise h).1]; decide

theorem readFixed_fieldCause {w : Window} {p n q : Nat} {c : ErrCause}
    (h : readFixed w p n = .error (.raised c q)) : c ∈ fieldCauses := by
  rw [(readFixed_raise h).1]; decide

theorem placedData_fieldCause {pr : Params} {w : Window} {off len p q : Nat} {c : ErrCause}
    (h : placedData pr w off len p = .error (.raised c q)) : c ∈ fieldCauses := by
  unfold placedData at h
  split at h
  · simp only [parse_bind_error, reduceCtorEq, and_false, exists_false, or_false] at h
    exact need_fieldCause h
  · exact takeSlice_fieldCause h

theorem streamData_fieldCause {pr : Params} {l : BitVec 1} {w : Window} {off len p q : Nat} {c : ErrCause}
    (h : streamData pr l w off len p = .error (.raised c q)) : c ∈ fieldCauses := by
  unfold streamData restData at h
  split at h
  · exact placedData_fieldCause h
  · split at h
    · simp only [parse_bind_error, reduceCtorEq, and_false, exists_false, or_false] at h
      exact need_fieldCause h
    · simp at h

theorem optVar_fieldCause {b : BitVec 1} {w : Window} {p q : Nat} {c : ErrCause}
    (h : optVar b w p = .error (.raised c q)) : c ∈ fieldCauses := by
  unfold optVar at h
  split at h
  · exact readVar_fieldCause h
  · simp at h

theorem ackPairs_fieldCause {cap : Option Nat} {w : Window} {fuel left i p q : Nat} {c : ErrCause}
    (h : ackPairs cap w fuel left i p = .error (.raised c q)) : c ∈ fieldCauses := by
  induction fuel generalizing left i p with
  | zero =>
    unfold ackPairs at h
    split at h
    · simp at h
    · simp only [raise, Except.error.injEq, Stop.raised.injEq] at h
      rw [← h.1]; decide
  | succ fuel ih =>
    unfold ackPairs at h
    split at h
    · simp at h
    · simp only [parse_bind_error, Prod.exists] at h
      rcases h with h | ⟨_, _, -, h | ⟨_, _, -, h⟩⟩
      · exact readVar_fieldCause h
      · exact readVar_fieldCause h
      · split at h
        · simp only [raise, Except.error.injEq, Stop.raised.injEq] at h
          rw [← h.1]; decide
        · simp only [parse_bind_error, reduceCtorEq, and_false, exists_false, or_false] at h
          exact ih h

theorem ackCommon_fieldCause {pr : Params} {w : Window} {f : Frm} {p q : Nat} {c : ErrCause}
    (h : ackCommon pr w f p = .error (.raised c q)) : c ∈ fieldCauses := by
  simp only [ackCommon, parse_bind_error, Prod.exists, reduceCtorEq, and_false, exists_false, or_false] at h
  rcases h with h | ⟨_, _, -, h | ⟨_, _, -, h | ⟨_, _, -, h | ⟨_, _, -, h⟩⟩⟩⟩
  · exact readVar_fieldCause h
  · exact readVar_fieldCause h
  · exact readVar_fieldCause h
  · exact readVar_fieldCause h
  · exact ackPairs_fieldCause h

theorem oneField_fieldCause {k : FrmKind} {w : Window} {f : Frm} {p q : Nat} {c : ErrCause}
    (h : oneField k w f p = .error (.raised c q)) : c ∈ fieldCauses := by
  simp only [oneField, parse_bind_error, reduceCtorEq, and_false, exists_false, or_false] at h
  exact readVar_fieldCause h

theorem twoFields_fieldCause {k : FrmKind} {w : Window} {f : Frm} {p q : Nat} {c : ErrCause}
    (h : twoFields k w f p = .error (.raised c q)) : c ∈ fieldCauses := by
  simp only [twoFields, parse_bind_error, Prod.exists, reduceCtorEq, and_false, exists_false, or_false] at h
  rcases h with h | ⟨_, _, -, h⟩ <;> exact readVar_fieldCause h

/-- What every frame rule can raise: a shortage on its fields, `ACK_RANGES`, or, for the rule of an unknown type only,
`UNKNOWN_FRAME_TYPE` (R219). -/
theorem frameRule_raise {i : Instr} {pr : Params} {w : Window} {t0 p q : Nat} {f : Frm} {c : ErrCause}
    (h : frameRule i pr w t0 f p = .error (.raised c q)) :
    c ∈ fieldCauses ∨ (c = .unknownFrameType ∧ q = t0 ∧ (spaceOf i = .frame → ∃ t, i = .frmUnknown t)) := by
  have unknown : frameRule i = ruleUnknown → c = .unknownFrameType ∧ q = t0 := by
    intro hi
    rw [hi] at h
    simp only [ruleUnknown, raise, Except.error.injEq, Stop.raised.injEq] at h
    exact ⟨h.1.symm, h.2.symm⟩
  cases i
  case frmAck => exact .inl (ackCommon_fieldCause h)
  case frmAckEcn =>
    simp only [frameRule, ruleAckEcn, parse_bind_error, Prod.exists, reduceCtorEq, and_false, exists_false,
      or_false] at h
    rcases h with h | ⟨_, -, h | ⟨_, _, -, h | ⟨_, _, -, h⟩⟩⟩
    · exact .inl (ackCommon_fieldCause h)
    all_goals exact .inl (readVar_fieldCause h)
  case frmResetStream =>
    simp only [frameRule, ruleResetStream, parse_bind_error, Prod.exists, reduceCtorEq, and_false, exists_false,
      or_false] at h
    rcases h with h | ⟨_, _, -, h | ⟨_, _, -, h⟩⟩ <;> exact .inl (readVar_fieldCause h)
  case frmStopSending => exact .inl (twoFields_fieldCause h)
  case frmCrypto =>
    simp only [frameRule, ruleCrypto, parse_bind_error, Prod.exists, reduceCtorEq, and_false, exists_false,
      or_false] at h
    rcases h with h | ⟨_, _, -, h | ⟨_, _, -, h⟩⟩
    · exact .inl (readVar_fieldCause h)
    · exact .inl (readVar_fieldCause h)
    · exact .inl (placedData_fieldCause h)
  case frmNewToken =>
    simp only [frameRule, ruleNewToken, parse_bind_error, Prod.exists, reduceCtorEq, and_false, exists_false,
      or_false] at h
    rcases h with h | ⟨_, _, -, h⟩
    · exact .inl (readVar_fieldCause h)
    · exact .inl (takeSlice_fieldCause h)
  case frmStream =>
    simp only [frameRule, ruleStream, parse_bind_error, Prod.exists, reduceCtorEq, and_false, exists_false,
      or_false] at h
    rcases h with h | ⟨_, _, -, h | ⟨_, _, -, h | ⟨_, _, -, h⟩⟩⟩
    · exact .inl (readVar_fieldCause h)
    · exact .inl (optVar_fieldCause h)
    · exact .inl (optVar_fieldCause h)
    · exact .inl (streamData_fieldCause h)
  case frmMaxData => exact .inl (oneField_fieldCause h)
  case frmMaxStreamData => exact .inl (twoFields_fieldCause h)
  case frmMaxStreams => exact .inl (oneField_fieldCause h)
  case frmDataBlocked => exact .inl (oneField_fieldCause h)
  case frmStreamDataBlocked => exact .inl (twoFields_fieldCause h)
  case frmStreamsBlocked => exact .inl (oneField_fieldCause h)
  case frmRetireConnectionId => exact .inl (oneField_fieldCause h)
  case frmNewConnectionId =>
    simp only [frameRule, ruleNewConnectionId, parse_bind_error, Prod.exists, reduceCtorEq, and_false, exists_false,
      or_false] at h
    rcases h with h | ⟨_, _, -, h | ⟨_, _, -, h | ⟨_, _, -, h⟩⟩⟩
    · exact .inl (readVar_fieldCause h)
    · exact .inl (readVar_fieldCause h)
    · exact .inl (decodeCid_fieldCause h)
    · exact .inl (readFixed_fieldCause h)
  case frmPathChallenge =>
    simp only [frameRule, rulePathChallenge, parse_bind_error, reduceCtorEq, and_false, exists_false, or_false] at h
    exact .inl (readFixed_fieldCause h)
  case frmPathResponse =>
    simp only [frameRule, rulePathResponse, parse_bind_error, reduceCtorEq, and_false, exists_false, or_false] at h
    exact .inl (readFixed_fieldCause h)
  case frmConnectionCloseQuic =>
    simp only [frameRule, ruleConnectionCloseQuic, parse_bind_error, Prod.exists, reduceCtorEq, and_false,
      exists_false, or_false] at h
    rcases h with h | ⟨_, _, -, h | ⟨_, _, -, h | ⟨_, _, -, h⟩⟩⟩
    · exact .inl (readVar_fieldCause h)
    · exact .inl (readVar_fieldCause h)
    · exact .inl (readVar_fieldCause h)
    · exact .inl (takeSlice_fieldCause h)
  case frmConnectionCloseApp =>
    simp only [frameRule, ruleConnectionCloseApp, parse_bind_error, Prod.exists, reduceCtorEq, and_false,
      exists_false, or_false] at h
    rcases h with h | ⟨_, _, -, h | ⟨_, _, -, h⟩⟩
    · exact .inl (readVar_fieldCause h)
    · exact .inl (readVar_fieldCause h)
    · exact .inl (takeSlice_fieldCause h)
  case frmUnknown t => exact .inr ⟨(unknown rfl).1, (unknown rfl).2, fun _ => ⟨t, rfl⟩⟩
  all_goals first
    | exact .inr ⟨(unknown rfl).1, (unknown rfl).2, fun h => absurd h (by simp [spaceOf])⟩
    | simp [frameRule, rulePadding, rulePing, ruleHandshakeDone] at h

/-- The row of a decoded type is a frame row, and that of an unknown type only for a type above 0x1e (R101, R219). -/
theorem decodeFrameType_row (t : VarVal) :
    spaceOf (decodeFrameType t) = .frame ∧ ∀ u, decodeFrameType t = .frmUnknown u → 0x1e < t.toNat := by
  have known : ∀ n < 0x1f, spaceOf (decodeFrameType (BitVec.ofNat 62 n)) = .frame ∧
      rowOf (decodeFrameType (BitVec.ofNat 62 n)) ≠ rowOf (.frmUnknown 0) := by decide +kernel
  by_cases ht : t.toNat < 0x1f
  · have h := known t.toNat ht
    simp only [BitVec.ofNat_toNat, BitVec.setWidth_eq] at h
    exact ⟨h.1, fun u hu => absurd (congrArg rowOf hu) h.2⟩
  · refine ⟨?_, fun _ _ => by omega⟩
    unfold decodeFrameType
    split <;> first | omega | rfl

/-- What `ParseFrame` can raise (R190, R219): a cause of a field, or the unknown type it has read. -/
theorem parseFrame_raise {pr : Params} {w : Window} {p q : Nat} {c : ErrCause}
    (h : parseFrame pr w p = .error (.raised c q)) :
    c ∈ fieldCauses ∨ (c = .unknownFrameType ∧ q = p ∧ ∃ t p1, readVar w p = .ok (t, p1) ∧ 0x1e < t.toNat) := by
  simp only [parseFrame, parse_bind_error, Prod.exists] at h
  rcases h with h | ⟨t, p1, ht, h⟩
  · exact .inl (readVar_fieldCause h)
  · obtain ⟨hs, hu⟩ := decodeFrameType_row t
    refine (frameRule_raise h).imp id fun h => ⟨h.1, h.2.1, t, p1, ht, ?_⟩
    obtain ⟨u, h⟩ := h.2.2 hs
    exact hu u h

/-- What a row's `ParseFrame` can raise (R190). -/
theorem parseRow_raise {i : Instr} {pr : Params} {w : Window} {p q : Nat} {c : ErrCause}
    (h : parseRow i (frameRule i) pr w p = .error (.raised c q)) :
    c ∈ fieldCauses ∨ (c = .unknownFrameType ∧ q = p ∧ (spaceOf i = .frame → ∃ t, i = .frmUnknown t)) := by
  simp only [parseRow, parse_bind_error, Prod.exists] at h
  rcases h with h | ⟨_, _, -, h⟩
  · exact .inl (readVar_fieldCause h)
  · exact frameRule_raise h

/-- What `ParseFrame` on a row's window can answer (R190): at least the type is consumed. -/
theorem parseRow_ok {i : Instr} {pr : Params} {w : Window} {p : Nat} {out : FrameOut}
    (h : parseRow i (frameRule i) pr w p = .ok out) : FrameFits pr w p out ∧ p < out.pos := by
  simp only [parseRow, parse_bind_ok, Prod.exists] at h
  obtain ⟨t, p1, h1, h2⟩ := h
  have b1 := readVar_bounds h1
  have fits := frameRule_ok h2 b1.2
  have := fits.forward
  exact ⟨⟨by omega, fits.inside, fits.counted, fits.capped, fits.cid, fits.srt, fits.pdata⟩, by omega⟩

/-- What `ParseFrame` can answer (R190). -/
theorem parseFrame_ok {pr : Params} {w : Window} {p : Nat} {out : FrameOut}
    (h : parseFrame pr w p = .ok out) : FrameFits pr w p out ∧ p < out.pos := by
  simp only [parseFrame, parse_bind_ok, Prod.exists] at h
  obtain ⟨t, p1, h1, h2⟩ := h
  have b1 := readVar_bounds h1
  have fits := frameRule_ok h2 b1.2
  have := fits.forward
  exact ⟨⟨by omega, fits.inside, fits.counted, fits.capped, fits.cid, fits.srt, fits.pdata⟩, by omega⟩

theorem parseFrame_noFault {pr : Params} {w : Window} {p : Nat} (h : w.written p) (e : Fault) :
    parseFrame pr w p ≠ .error (.fault e) := by
  simp only [parseFrame, ne_eq, parse_bind_error, not_or, not_exists, not_and, Prod.forall]
  refine ⟨readVar_noFault h (Nat.le_refl _) e, fun _ p1 e1 => ?_⟩
  have b1 := readVar_bounds e1
  exact frameRule_noFault h (by omega) e

theorem parseRow_noFault {i : Instr} {pr : Params} {w : Window} {p : Nat} (h : w.written p) (e : Fault) :
    parseRow i (frameRule i) pr w p ≠ .error (.fault e) := by
  simp only [parseRow, ne_eq, parse_bind_error, not_or, not_exists, not_and, Prod.forall]
  refine ⟨readVar_noFault h (Nat.le_refl _) e, fun _ p1 e1 => ?_⟩
  have b1 := readVar_bounds e1
  exact frameRule_noFault h (by omega) e

end Sys2Proof.Machine
end

