-- ==== Sys2Proof/Laws/State.lean ====
section
/-! SUPPORT. One lemma per field for each update of a lane, so that no proof unfolds one. -/

namespace Sys2Proof.Machine

/-! ### `Lane.accept` -/

@[simp] theorem Lane.accept_isServer (l : Lane) (op : Byte) : (l.accept op).isServer = l.isServer := rfl
@[simp] theorem Lane.accept_ilen (l : Lane) (op : Byte) : (l.accept op).ilen = l.ilen := rfl
@[simp] theorem Lane.accept_cur (l : Lane) (op : Byte) : (l.accept op).cur = l.cur := rfl
@[simp] theorem Lane.accept_arg0 (l : Lane) (op : Byte) : (l.accept op).arg0 = l.arg0 := rfl
@[simp] theorem Lane.accept_arg1 (l : Lane) (op : Byte) : (l.accept op).arg1 = l.arg1 := rfl
@[simp] theorem Lane.accept_cmd (l : Lane) (op : Byte) : (l.accept op).cmd = none := rfl
@[simp] theorem Lane.accept_st (l : Lane) (op : Byte) : (l.accept op).st = l.st := rfl
@[simp] theorem Lane.accept_fstate (l : Lane) (op : Byte) : (l.accept op).fstate = l.fstate := rfl
@[simp] theorem Lane.accept_fres (l : Lane) (op : Byte) : (l.accept op).fres = l.fres := rfl
@[simp] theorem Lane.accept_wdrop (l : Lane) (op : Byte) : (l.accept op).wdrop = l.wdrop := rfl
@[simp] theorem Lane.accept_lastCmd (l : Lane) (op : Byte) : (l.accept op).lastCmd = op := rfl
@[simp] theorem Lane.accept_err (l : Lane) (op : Byte) : (l.accept op).err = l.err := rfl
@[simp] theorem Lane.accept_rval (l : Lane) (op : Byte) : (l.accept op).rval = l.rval := rfl
@[simp] theorem Lane.accept_rcid (l : Lane) (op : Byte) : (l.accept op).rcid = l.rcid := rfl
@[simp] theorem Lane.accept_olen (l : Lane) (op : Byte) : (l.accept op).olen = l.olen := rfl
@[simp] theorem Lane.accept_obuf (l : Lane) (op : Byte) : (l.accept op).obuf = l.obuf := rfl
@[simp] theorem Lane.accept_pkt (l : Lane) (op : Byte) : (l.accept op).pkt = l.pkt := rfl
@[simp] theorem Lane.accept_pay (l : Lane) (op : Byte) : (l.accept op).pay = l.pay := rfl
@[simp] theorem Lane.accept_pbufLen (l : Lane) (op : Byte) : (l.accept op).pbufLen = l.pbufLen := rfl
@[simp] theorem Lane.accept_fbuf (l : Lane) (op : Byte) : (l.accept op).fbuf = l.fbuf := rfl
@[simp] theorem Lane.accept_fcur (l : Lane) (op : Byte) : (l.accept op).fcur = l.fcur := rfl
@[simp] theorem Lane.accept_fend (l : Lane) (op : Byte) : (l.accept op).fend = l.fend := rfl
@[simp] theorem Lane.accept_frm (l : Lane) (op : Byte) : (l.accept op).frm = l.frm := rfl
@[simp] theorem Lane.accept_ackr (l : Lane) (op : Byte) : (l.accept op).ackr = l.ackr := rfl
@[simp] theorem Lane.accept_pend (l : Lane) (op : Byte) : (l.accept op).pend = l.pend := rfl
@[simp] theorem Lane.accept_pendLim (l : Lane) (op : Byte) : (l.accept op).pendLim = l.pendLim := rfl
@[simp] theorem Lane.accept_creqId (l : Lane) (op : Byte) : (l.accept op).creqId = l.creqId := rfl
@[simp] theorem Lane.accept_creqOut (l : Lane) (op : Byte) : (l.accept op).creqOut = l.creqOut := rfl
@[simp] theorem Lane.accept_creq (l : Lane) (op : Byte) : (l.accept op).creq = l.creq := rfl
@[simp] theorem Lane.accept_ibuf (l : Lane) (op : Byte) : (l.accept op).ibuf = l.ibuf := rfl
@[simp] theorem Lane.accept_pbuf (l : Lane) (op : Byte) : (l.accept op).pbuf = l.pbuf := rfl
@[simp] theorem Lane.accept_fault (l : Lane) (op : Byte) : (l.accept op).fault = l.fault := rfl

/-! ### `Lane.commit` -/

@[simp] theorem Lane.commit_isServer (l : Lane) : (l.commit).isServer = l.isServer := rfl
@[simp] theorem Lane.commit_ilen (l : Lane) : (l.commit).ilen = l.ilen := rfl
@[simp] theorem Lane.commit_cur (l : Lane) : (l.commit).cur = l.cur := rfl
@[simp] theorem Lane.commit_arg0 (l : Lane) : (l.commit).arg0 = l.arg0 := rfl
@[simp] theorem Lane.commit_arg1 (l : Lane) : (l.commit).arg1 = l.arg1 := rfl
@[simp] theorem Lane.commit_cmd (l : Lane) : (l.commit).cmd = l.cmd := rfl
@[simp] theorem Lane.commit_st (l : Lane) : (l.commit).st = .done := rfl
@[simp] theorem Lane.commit_fstate (l : Lane) : (l.commit).fstate = l.fstate := rfl
@[simp] theorem Lane.commit_fres (l : Lane) : (l.commit).fres = l.fres := rfl
@[simp] theorem Lane.commit_wdrop (l : Lane) : (l.commit).wdrop = l.wdrop := rfl
@[simp] theorem Lane.commit_lastCmd (l : Lane) : (l.commit).lastCmd = l.lastCmd := rfl
@[simp] theorem Lane.commit_err (l : Lane) : (l.commit).err = .clear := rfl
@[simp] theorem Lane.commit_rval (l : Lane) : (l.commit).rval = l.rval := rfl
@[simp] theorem Lane.commit_rcid (l : Lane) : (l.commit).rcid = l.rcid := rfl
@[simp] theorem Lane.commit_olen (l : Lane) : (l.commit).olen = l.olen := rfl
@[simp] theorem Lane.commit_obuf (l : Lane) : (l.commit).obuf = l.obuf := rfl
@[simp] theorem Lane.commit_pkt (l : Lane) : (l.commit).pkt = l.pkt := rfl
@[simp] theorem Lane.commit_pay (l : Lane) : (l.commit).pay = l.pay := rfl
@[simp] theorem Lane.commit_pbufLen (l : Lane) : (l.commit).pbufLen = l.pbufLen := rfl
@[simp] theorem Lane.commit_fbuf (l : Lane) : (l.commit).fbuf = l.fbuf := rfl
@[simp] theorem Lane.commit_fcur (l : Lane) : (l.commit).fcur = l.fcur := rfl
@[simp] theorem Lane.commit_fend (l : Lane) : (l.commit).fend = l.fend := rfl
@[simp] theorem Lane.commit_frm (l : Lane) : (l.commit).frm = l.frm := rfl
@[simp] theorem Lane.commit_ackr (l : Lane) : (l.commit).ackr = l.ackr := rfl
@[simp] theorem Lane.commit_pend (l : Lane) : (l.commit).pend = l.pend := rfl
@[simp] theorem Lane.commit_pendLim (l : Lane) : (l.commit).pendLim = l.pendLim := rfl
@[simp] theorem Lane.commit_creqId (l : Lane) : (l.commit).creqId = l.creqId := rfl
@[simp] theorem Lane.commit_creqOut (l : Lane) : (l.commit).creqOut = l.creqOut := rfl
@[simp] theorem Lane.commit_creq (l : Lane) : (l.commit).creq = l.creq := rfl
@[simp] theorem Lane.commit_ibuf (l : Lane) : (l.commit).ibuf = l.ibuf := rfl
@[simp] theorem Lane.commit_pbuf (l : Lane) : (l.commit).pbuf = l.pbuf := rfl
@[simp] theorem Lane.commit_fault (l : Lane) : (l.commit).fault = l.fault := rfl

/-! ### `Lane.noSequence` -/

@[simp] theorem Lane.noSequence_isServer (l : Lane) : (l.noSequence).isServer = l.isServer := rfl
@[simp] theorem Lane.noSequence_ilen (l : Lane) : (l.noSequence).ilen = l.ilen := rfl
@[simp] theorem Lane.noSequence_cur (l : Lane) : (l.noSequence).cur = l.cur := rfl
@[simp] theorem Lane.noSequence_arg0 (l : Lane) : (l.noSequence).arg0 = l.arg0 := rfl
@[simp] theorem Lane.noSequence_arg1 (l : Lane) : (l.noSequence).arg1 = l.arg1 := rfl
@[simp] theorem Lane.noSequence_cmd (l : Lane) : (l.noSequence).cmd = l.cmd := rfl
@[simp] theorem Lane.noSequence_st (l : Lane) : (l.noSequence).st = l.st := rfl
@[simp] theorem Lane.noSequence_fstate (l : Lane) : (l.noSequence).fstate = .inactive := rfl
@[simp] theorem Lane.noSequence_fres (l : Lane) : (l.noSequence).fres = l.fres := rfl
@[simp] theorem Lane.noSequence_wdrop (l : Lane) : (l.noSequence).wdrop = l.wdrop := rfl
@[simp] theorem Lane.noSequence_lastCmd (l : Lane) : (l.noSequence).lastCmd = l.lastCmd := rfl
@[simp] theorem Lane.noSequence_err (l : Lane) : (l.noSequence).err = l.err := rfl
@[simp] theorem Lane.noSequence_rval (l : Lane) : (l.noSequence).rval = l.rval := rfl
@[simp] theorem Lane.noSequence_rcid (l : Lane) : (l.noSequence).rcid = l.rcid := rfl
@[simp] theorem Lane.noSequence_olen (l : Lane) : (l.noSequence).olen = l.olen := rfl
@[simp] theorem Lane.noSequence_obuf (l : Lane) : (l.noSequence).obuf = l.obuf := rfl
@[simp] theorem Lane.noSequence_pkt (l : Lane) : (l.noSequence).pkt = l.pkt := rfl
@[simp] theorem Lane.noSequence_pay (l : Lane) : (l.noSequence).pay = l.pay := rfl
@[simp] theorem Lane.noSequence_pbufLen (l : Lane) : (l.noSequence).pbufLen = l.pbufLen := rfl
@[simp] theorem Lane.noSequence_fbuf (l : Lane) : (l.noSequence).fbuf = .none := rfl
@[simp] theorem Lane.noSequence_fcur (l : Lane) : (l.noSequence).fcur = 0 := rfl
@[simp] theorem Lane.noSequence_fend (l : Lane) : (l.noSequence).fend = 0 := rfl
@[simp] theorem Lane.noSequence_frm (l : Lane) : (l.noSequence).frm = l.frm := rfl
@[simp] theorem Lane.noSequence_ackr (l : Lane) : (l.noSequence).ackr = l.ackr := rfl
@[simp] theorem Lane.noSequence_pend (l : Lane) : (l.noSequence).pend = l.pend := rfl
@[simp] theorem Lane.noSequence_pendLim (l : Lane) : (l.noSequence).pendLim = l.pendLim := rfl
@[simp] theorem Lane.noSequence_creqId (l : Lane) : (l.noSequence).creqId = l.creqId := rfl
@[simp] theorem Lane.noSequence_creqOut (l : Lane) : (l.noSequence).creqOut = l.creqOut := rfl
@[simp] theorem Lane.noSequence_creq (l : Lane) : (l.noSequence).creq = l.creq := rfl
@[simp] theorem Lane.noSequence_ibuf (l : Lane) : (l.noSequence).ibuf = l.ibuf := rfl
@[simp] theorem Lane.noSequence_pbuf (l : Lane) : (l.noSequence).pbuf = l.pbuf := rfl
@[simp] theorem Lane.noSequence_fault (l : Lane) : (l.noSequence).fault = l.fault := rfl

/-! ### `Lane.noPacket` -/

@[simp] theorem Lane.noPacket_isServer (l : Lane) : (l.noPacket).isServer = l.isServer := rfl
@[simp] theorem Lane.noPacket_ilen (l : Lane) : (l.noPacket).ilen = l.ilen := rfl
@[simp] theorem Lane.noPacket_cur (l : Lane) : (l.noPacket).cur = l.cur := rfl
@[simp] theorem Lane.noPacket_arg0 (l : Lane) : (l.noPacket).arg0 = l.arg0 := rfl
@[simp] theorem Lane.noPacket_arg1 (l : Lane) : (l.noPacket).arg1 = l.arg1 := rfl
@[simp] theorem Lane.noPacket_cmd (l : Lane) : (l.noPacket).cmd = l.cmd := rfl
@[simp] theorem Lane.noPacket_st (l : Lane) : (l.noPacket).st = l.st := rfl
@[simp] theorem Lane.noPacket_fstate (l : Lane) : (l.noPacket).fstate = l.fstate := rfl
@[simp] theorem Lane.noPacket_fres (l : Lane) : (l.noPacket).fres = l.fres := rfl
@[simp] theorem Lane.noPacket_wdrop (l : Lane) : (l.noPacket).wdrop = l.wdrop := rfl
@[simp] theorem Lane.noPacket_lastCmd (l : Lane) : (l.noPacket).lastCmd = l.lastCmd := rfl
@[simp] theorem Lane.noPacket_err (l : Lane) : (l.noPacket).err = l.err := rfl
@[simp] theorem Lane.noPacket_rval (l : Lane) : (l.noPacket).rval = l.rval := rfl
@[simp] theorem Lane.noPacket_rcid (l : Lane) : (l.noPacket).rcid = l.rcid := rfl
@[simp] theorem Lane.noPacket_olen (l : Lane) : (l.noPacket).olen = l.olen := rfl
@[simp] theorem Lane.noPacket_obuf (l : Lane) : (l.noPacket).obuf = l.obuf := rfl
@[simp] theorem Lane.noPacket_pkt (l : Lane) : (l.noPacket).pkt = Pkt.zero := rfl
@[simp] theorem Lane.noPacket_pay (l : Lane) : (l.noPacket).pay = Slice.zero := rfl
@[simp] theorem Lane.noPacket_pbufLen (l : Lane) : (l.noPacket).pbufLen = 0 := rfl
@[simp] theorem Lane.noPacket_fbuf (l : Lane) : (l.noPacket).fbuf = l.fbuf := rfl
@[simp] theorem Lane.noPacket_fcur (l : Lane) : (l.noPacket).fcur = l.fcur := rfl
@[simp] theorem Lane.noPacket_fend (l : Lane) : (l.noPacket).fend = l.fend := rfl
@[simp] theorem Lane.noPacket_frm (l : Lane) : (l.noPacket).frm = l.frm := rfl
@[simp] theorem Lane.noPacket_ackr (l : Lane) : (l.noPacket).ackr = l.ackr := rfl
@[simp] theorem Lane.noPacket_pend (l : Lane) : (l.noPacket).pend = l.pend := rfl
@[simp] theorem Lane.noPacket_pendLim (l : Lane) : (l.noPacket).pendLim = l.pendLim := rfl
@[simp] theorem Lane.noPacket_creqId (l : Lane) : (l.noPacket).creqId = l.creqId := rfl
@[simp] theorem Lane.noPacket_creqOut (l : Lane) : (l.noPacket).creqOut = l.creqOut := rfl
@[simp] theorem Lane.noPacket_creq (l : Lane) : (l.noPacket).creq = l.creq := rfl
@[simp] theorem Lane.noPacket_ibuf (l : Lane) : (l.noPacket).ibuf = l.ibuf := rfl
@[simp] theorem Lane.noPacket_pbuf (l : Lane) : (l.noPacket).pbuf = l.pbuf := rfl
@[simp] theorem Lane.noPacket_fault (l : Lane) : (l.noPacket).fault = l.fault := rfl

/-! ### `Lane.stopped`, `Lane.issued` and `recordFault` -/

@[simp] theorem Lane.stopped_isServer (f : Fault) (l : Lane) : (l.stopped f).isServer = l.isServer := rfl
@[simp] theorem Lane.stopped_ilen (f : Fault) (l : Lane) : (l.stopped f).ilen = l.ilen := rfl
@[simp] theorem Lane.stopped_cur (f : Fault) (l : Lane) : (l.stopped f).cur = l.cur := rfl
@[simp] theorem Lane.stopped_arg0 (f : Fault) (l : Lane) : (l.stopped f).arg0 = l.arg0 := rfl
@[simp] theorem Lane.stopped_arg1 (f : Fault) (l : Lane) : (l.stopped f).arg1 = l.arg1 := rfl
@[simp] theorem Lane.stopped_st (f : Fault) (l : Lane) : (l.stopped f).st = l.st := rfl
@[simp] theorem Lane.stopped_fstate (f : Fault) (l : Lane) : (l.stopped f).fstate = l.fstate := rfl
@[simp] theorem Lane.stopped_fres (f : Fault) (l : Lane) : (l.stopped f).fres = l.fres := rfl
@[simp] theorem Lane.stopped_wdrop (f : Fault) (l : Lane) : (l.stopped f).wdrop = l.wdrop := rfl
@[simp] theorem Lane.stopped_err (f : Fault) (l : Lane) : (l.stopped f).err = l.err := rfl
@[simp] theorem Lane.stopped_rval (f : Fault) (l : Lane) : (l.stopped f).rval = l.rval := rfl
@[simp] theorem Lane.stopped_rcid (f : Fault) (l : Lane) : (l.stopped f).rcid = l.rcid := rfl
@[simp] theorem Lane.stopped_olen (f : Fault) (l : Lane) : (l.stopped f).olen = l.olen := rfl
@[simp] theorem Lane.stopped_obuf (f : Fault) (l : Lane) : (l.stopped f).obuf = l.obuf := rfl
@[simp] theorem Lane.stopped_pkt (f : Fault) (l : Lane) : (l.stopped f).pkt = l.pkt := rfl
@[simp] theorem Lane.stopped_pay (f : Fault) (l : Lane) : (l.stopped f).pay = l.pay := rfl
@[simp] theorem Lane.stopped_pbufLen (f : Fault) (l : Lane) : (l.stopped f).pbufLen = l.pbufLen := rfl
@[simp] theorem Lane.stopped_fbuf (f : Fault) (l : Lane) : (l.stopped f).fbuf = l.fbuf := rfl
@[simp] theorem Lane.stopped_fcur (f : Fault) (l : Lane) : (l.stopped f).fcur = l.fcur := rfl
@[simp] theorem Lane.stopped_fend (f : Fault) (l : Lane) : (l.stopped f).fend = l.fend := rfl
@[simp] theorem Lane.stopped_frm (f : Fault) (l : Lane) : (l.stopped f).frm = l.frm := rfl
@[simp] theorem Lane.stopped_ackr (f : Fault) (l : Lane) : (l.stopped f).ackr = l.ackr := rfl
@[simp] theorem Lane.stopped_pend (f : Fault) (l : Lane) : (l.stopped f).pend = l.pend := rfl
@[simp] theorem Lane.stopped_pendLim (f : Fault) (l : Lane) : (l.stopped f).pendLim = l.pendLim := rfl
@[simp] theorem Lane.stopped_creqId (f : Fault) (l : Lane) : (l.stopped f).creqId = l.creqId := rfl
@[simp] theorem Lane.stopped_creqOut (f : Fault) (l : Lane) : (l.stopped f).creqOut = l.creqOut := rfl
@[simp] theorem Lane.stopped_creq (f : Fault) (l : Lane) : (l.stopped f).creq = l.creq := rfl
@[simp] theorem Lane.stopped_ibuf (f : Fault) (l : Lane) : (l.stopped f).ibuf = l.ibuf := rfl
@[simp] theorem Lane.stopped_pbuf (f : Fault) (l : Lane) : (l.stopped f).pbuf = l.pbuf := rfl
@[simp] theorem Lane.stopped_cmd (f : Fault) (l : Lane) : (l.stopped f).cmd = none := rfl
@[simp] theorem Lane.stopped_lastCmd (f : Fault) (l : Lane) : (l.stopped f).lastCmd = l.issuedOpcode := rfl
@[simp] theorem Lane.stopped_fault (f : Fault) (l : Lane) : (l.stopped f).fault = some f := rfl
@[simp] theorem Lane.stopped_issued (f : Fault) (l : Lane) : (l.stopped f).issued = none := rfl

theorem Lane.issued_none {l : Lane} (h : l.cmd = none) : l.issued = none := by
  unfold Lane.issued; split <;> simp [h]

theorem Lane.issued_of_fault {l : Lane} {f : Fault} (h : l.fault = some f) : l.issued = none := by
  simp [Lane.issued, h]

/-- A lane has a command to execute exactly when one is issued and no model fault has stopped it (R64, R68). -/
theorem Lane.issued_some {l : Lane} {w : Word} : l.issued = some w ↔ l.fault = none ∧ l.cmd = some w := by
  unfold Lane.issued; split <;> simp [*]

theorem Lane.issuedOpcode_some {l : Lane} {w : Word} (h : l.cmd = some w) : l.issuedOpcode = w.extractLsb' 0 8 := by
  simp [Lane.issuedOpcode, h]

/-- All that a block step can make of a lane step (R11): its next state, or the lane in focus stopped by its fault. -/
theorem recordFault_next {s t : State} {o : Host.Outcome State Fault Refusal} (h : recordFault s o = .next t) :
    o = .next t ∨ ∃ f, o = .fault f ∧ t = { s with lane := s.lane.stopped f } := by
  cases o with
  | next x => exact .inl h
  | fault f => cases h; exact .inr ⟨f, rfl, rfl⟩
  | refused r => cases h

/-! ### Error entry (R245): what it leaves alone, whatever the command -/

@[simp] theorem errorEntry_isServer (c : Cmd) (e : ErrCause) (p : Nat) (l : Lane) : (errorEntry c e p l).isServer = l.isServer := by
  cases c <;> first | rfl | (by_cases h : e = .wrongState <;> simp [errorEntry, clearResults, h])
@[simp] theorem errorEntry_ilen (c : Cmd) (e : ErrCause) (p : Nat) (l : Lane) : (errorEntry c e p l).ilen = l.ilen := by
  cases c <;> first | rfl | (by_cases h : e = .wrongState <;> simp [errorEntry, clearResults, h])
@[simp] theorem errorEntry_cur (c : Cmd) (e : ErrCause) (p : Nat) (l : Lane) : (errorEntry c e p l).cur = l.cur := by
  cases c <;> first | rfl | (by_cases h : e = .wrongState <;> simp [errorEntry, clearResults, h])
@[simp] theorem errorEntry_arg0 (c : Cmd) (e : ErrCause) (p : Nat) (l : Lane) : (errorEntry c e p l).arg0 = l.arg0 := by
  cases c <;> first | rfl | (by_cases h : e = .wrongState <;> simp [errorEntry, clearResults, h])
@[simp] theorem errorEntry_arg1 (c : Cmd) (e : ErrCause) (p : Nat) (l : Lane) : (errorEntry c e p l).arg1 = l.arg1 := by
  cases c <;> first | rfl | (by_cases h : e = .wrongState <;> simp [errorEntry, clearResults, h])
@[simp] theorem errorEntry_cmd (c : Cmd) (e : ErrCause) (p : Nat) (l : Lane) : (errorEntry c e p l).cmd = l.cmd := by
  cases c <;> first | rfl | (by_cases h : e = .wrongState <;> simp [errorEntry, clearResults, h])
@[simp] theorem errorEntry_wdrop (c : Cmd) (e : ErrCause) (p : Nat) (l : Lane) : (errorEntry c e p l).wdrop = l.wdrop := by
  cases c <;> first | rfl | (by_cases h : e = .wrongState <;> simp [errorEntry, clearResults, h])
@[simp] theorem errorEntry_lastCmd (c : Cmd) (e : ErrCause) (p : Nat) (l : Lane) : (errorEntry c e p l).lastCmd = l.lastCmd := by
  cases c <;> first | rfl | (by_cases h : e = .wrongState <;> simp [errorEntry, clearResults, h])
@[simp] theorem errorEntry_ackr (c : Cmd) (e : ErrCause) (p : Nat) (l : Lane) : (errorEntry c e p l).ackr = l.ackr := by
  cases c <;> first | rfl | (by_cases h : e = .wrongState <;> simp [errorEntry, clearResults, h])
@[simp] theorem errorEntry_pendLim (c : Cmd) (e : ErrCause) (p : Nat) (l : Lane) : (errorEntry c e p l).pendLim = l.pendLim := by
  cases c <;> first | rfl | (by_cases h : e = .wrongState <;> simp [errorEntry, clearResults, h])
@[simp] theorem errorEntry_creqId (c : Cmd) (e : ErrCause) (p : Nat) (l : Lane) : (errorEntry c e p l).creqId = l.creqId := by
  cases c <;> first | rfl | (by_cases h : e = .wrongState <;> simp [errorEntry, clearResults, h])
@[simp] theorem errorEntry_creqOut (c : Cmd) (e : ErrCause) (p : Nat) (l : Lane) : (errorEntry c e p l).creqOut = l.creqOut := by
  cases c <;> first | rfl | (by_cases h : e = .wrongState <;> simp [errorEntry, clearResults, h])
@[simp] theorem errorEntry_creq (c : Cmd) (e : ErrCause) (p : Nat) (l : Lane) : (errorEntry c e p l).creq = l.creq := by
  cases c <;> first | rfl | (by_cases h : e = .wrongState <;> simp [errorEntry, clearResults, h])
@[simp] theorem errorEntry_ibuf (c : Cmd) (e : ErrCause) (p : Nat) (l : Lane) : (errorEntry c e p l).ibuf = l.ibuf := by
  cases c <;> first | rfl | (by_cases h : e = .wrongState <;> simp [errorEntry, clearResults, h])
@[simp] theorem errorEntry_pbuf (c : Cmd) (e : ErrCause) (p : Nat) (l : Lane) : (errorEntry c e p l).pbuf = l.pbuf := by
  cases c <;> first | rfl | (by_cases h : e = .wrongState <;> simp [errorEntry, clearResults, h])
@[simp] theorem errorEntry_fault (c : Cmd) (e : ErrCause) (p : Nat) (l : Lane) : (errorEntry c e p l).fault = l.fault := by
  cases c <;> first | rfl | (by_cases h : e = .wrongState <;> simp [errorEntry, clearResults, h])
@[simp] theorem errorEntry_st (c : Cmd) (e : ErrCause) (p : Nat) (l : Lane) : (errorEntry c e p l).st = .error := rfl
@[simp] theorem errorEntry_err (c : Cmd) (e : ErrCause) (p : Nat) (l : Lane) :
    (errorEntry c e p l).err = .raised e (BitVec.ofNat 32 p) (posBufOf c e l) := rfl

end Sys2Proof.Machine
end

