-- ==== Sys2Proof/Laws/Packets.lean ====
section
/-! SUPPORT. What a header rule can do, said once for all rows, and what a response of the Crypto agent can do. -/

namespace Sys2Proof.Machine

/-- What holds of every header a rule answers for a window that starts at `p0`. -/
structure HeaderFits (w : Window) (p0 : Nat) (h : Header) : Prop where
  forward : p0 < h.pos
  inside : h.pos ≤ w.lim
  dcid : CidInv h.pkt.dcid
  scid : CidInv h.pkt.scid

/-- All that the common part of a long header can answer (R155). -/
theorem longHeader_ok {w : Window} {p0 p : Nat} {b0 : Byte} {ver : BitVec 32} {k : Pkt}
    (h : longHeader w p0 b0 ver = .ok (k, p)) :
    ∃ dcid scid p1, decodeCid w (p0 + 5) = .ok (dcid, p1) ∧ decodeCid w p1 = .ok (scid, p) ∧
      k = { Pkt.zero with form := 1, byte0 := b0, version := ver, dcid := dcid, scid := scid } := by
  simp only [longHeader, parse_bind_ok, Prod.exists, Except.ok.injEq, Prod.mk.injEq] at h
  obtain ⟨-, -, -, -, dcid, p1, h1, scid, p2, h2, h3, h4⟩ := h
  exact ⟨dcid, scid, p1, h1, h4 ▸ h2, h3.symm⟩

theorem longHeader_fits {w : Window} {p0 p : Nat} {b0 : Byte} {ver : BitVec 32} {k : Pkt}
    (h : longHeader w p0 b0 ver = .ok (k, p)) : p0 < p ∧ p ≤ w.lim ∧ CidInv k.dcid ∧ CidInv k.scid := by
  obtain ⟨dcid, scid, p1, h1, h2, rfl⟩ := longHeader_ok h
  have b1 := decodeCid_bounds h1
  have b2 := decodeCid_bounds h2
  exact ⟨by omega, b2.2.1, b1.2.2, b2.2.2⟩

theorem longHeader_noFault {w : Window} {p0 : Nat} {b0 : Byte} {ver : BitVec 32} (h : w.written p0) (f : Fault) :
    longHeader w p0 b0 ver ≠ .error (.fault f) := by
  simp only [longHeader, ne_eq, parse_bind_error, not_or, not_exists, not_and, Prod.forall]
  refine ⟨need_ne_fault _ _ _ _ _ _, fun _ _ => ⟨need_ne_fault _ _ _ _ _ _, fun _ _ => ⟨decodeCid_noFault h (by omega) f,
    fun _ p1 e1 => ?_⟩⟩⟩
  have b1 := decodeCid_bounds e1
  exact ⟨decodeCid_noFault h (by omega) f, by simp⟩

/-- All that the common tail can answer (R159 to R162). -/
theorem protectedTail_ok {k : Pkt} {kind : PktKind} {epoch : Epoch} {w : Window} {p : Nat} {h : Header}
    (hh : protectedTail k kind epoch w p = .ok h) :
    ∃ len p1 pn, readVar w p = .ok (len, p1) ∧ decodePn w p1 (pnWidthOf k.byte0) = .ok (pn, h.pos) ∧
      h.epoch = some epoch ∧
      h.pkt = { k with
        kind := kind, length := len, pn := pn, pnLen := BitVec.ofNat 3 (pnWidthOf k.byte0),
        hdrEnd := BitVec.ofNat 32 h.pos } := by
  simp only [protectedTail, parse_bind_ok, Prod.exists, Except.ok.injEq] at hh
  obtain ⟨len, p1, h1, pn, p2, h2, rfl⟩ := hh
  exact ⟨len, p1, pn, h1, h2, rfl, rfl⟩

theorem protectedTail_fits {k : Pkt} {kind : PktKind} {epoch : Epoch} {w : Window} {p : Nat} {h : Header}
    (hh : protectedTail k kind epoch w p = .ok h) :
    p < h.pos ∧ h.pos ≤ w.lim ∧ h.pkt.dcid = k.dcid ∧ h.pkt.scid = k.scid := by
  obtain ⟨len, p1, pn, h1, h2, -, h4⟩ := protectedTail_ok hh
  have b1 := readVar_bounds h1
  obtain ⟨-, -, -, -, b2, b3⟩ := decodePn_ok h2
  have b4 : 1 ≤ pnWidthOf k.byte0 := Nat.le_add_left _ _
  exact ⟨by omega, by omega, by rw [h4], by rw [h4]⟩

theorem protectedTail_noFault {k : Pkt} {kind : PktKind} {epoch : Epoch} {w : Window} {p0 p : Nat}
    (h : w.written p0) (h1 : p0 ≤ p) (f : Fault) : protectedTail k kind epoch w p ≠ .error (.fault f) := by
  simp only [protectedTail, ne_eq, parse_bind_error, not_or, not_exists, not_and, Prod.forall]
  refine ⟨readVar_noFault h h1 f, fun _ p1 e1 => ?_⟩
  have b1 := readVar_bounds e1
  exact ⟨decodePn_noFault h (by omega) f, by simp⟩

/-- What every header rule can answer (R155 to R165). -/
theorem headerRule_ok {i : Instr} {w : Window} {p0 : Nat} {h : Header} (hh : headerRule i w p0 = .ok h) :
    HeaderFits w p0 h := by
  cases i
  case pktOneRtt =>
    simp only [headerRule, ruleOneRtt, parse_bind_ok, Prod.exists, Except.ok.injEq] at hh
    obtain ⟨-, -, dcid, p1, h1, pn, p2, h2, rfl⟩ := hh
    have b1 := decodeCid_bounds h1
    obtain ⟨-, -, -, -, b2, b3⟩ := decodePn_ok h2
    exact ⟨by simp only; omega, by simp only; omega, b1.2.2, Cid.zero_inv⟩
  case pktVersionNegotiation =>
    simp only [headerRule, ruleVersionNegotiation, parse_bind_ok, Prod.exists] at hh
    obtain ⟨k, p, h1, h2⟩ := hh
    have b1 := longHeader_fits h1
    split at h2
    · simp at h2
    · cases h2
      exact ⟨by simp only; omega, Nat.le_refl _, b1.2.2.1, b1.2.2.2⟩
  case pktInitial =>
    simp only [headerRule, ruleInitial, parse_bind_ok, Prod.exists, need_ok] at hh
    obtain ⟨k, p, h1, tl, p1, h2, -, h3, h4⟩ := hh
    have b1 := longHeader_fits h1
    have b2 := decodeVarInt_bounds h2
    have b3 := protectedTail_fits h4
    exact ⟨by omega, b3.2.1, b3.2.2.1 ▸ b1.2.2.1, b3.2.2.2 ▸ b1.2.2.2⟩
  case pktZeroRtt =>
    simp only [headerRule, ruleZeroRtt, parse_bind_ok, Prod.exists] at hh
    obtain ⟨k, p, h1, h4⟩ := hh
    have b1 := longHeader_fits h1
    have b3 := protectedTail_fits h4
    exact ⟨by omega, b3.2.1, b3.2.2.1 ▸ b1.2.2.1, b3.2.2.2 ▸ b1.2.2.2⟩
  case pktHandshake =>
    simp only [headerRule, ruleHandshake, parse_bind_ok, Prod.exists] at hh
    obtain ⟨k, p, h1, h4⟩ := hh
    have b1 := longHeader_fits h1
    have b3 := protectedTail_fits h4
    exact ⟨by omega, b3.2.1, b3.2.2.1 ▸ b1.2.2.1, b3.2.2.2 ▸ b1.2.2.2⟩
  case pktRetry =>
    simp only [headerRule, ruleRetry, parse_bind_ok, Prod.exists, Except.ok.injEq] at hh
    obtain ⟨k, p, h1, -, -, tag, -, rfl⟩ := hh
    have b1 := longHeader_fits h1
    exact ⟨by simp only; omega, Nat.le_refl _, b1.2.2.1, b1.2.2.2⟩
  all_goals simp [headerRule] at hh

/-- No header rule faults on a written window (R64). -/
theorem headerRule_noFault {i : Instr} {w : Window} {p0 : Nat} (h : w.written p0) (f : Fault) :
    headerRule i w p0 ≠ .error (.fault f) := by
  cases i
  case pktOneRtt =>
    simp only [headerRule, ruleOneRtt, ne_eq, parse_bind_error, not_or, not_exists, not_and, Prod.forall]
    refine ⟨need_ne_fault _ _ _ _ _ _, fun _ _ => ⟨decodeCid_noFault h (by omega) f, fun _ p1 e1 => ?_⟩⟩
    have b1 := decodeCid_bounds e1
    exact ⟨decodePn_noFault h (by omega) f, by simp⟩
  case pktVersionNegotiation =>
    simp only [headerRule, ruleVersionNegotiation, ne_eq, parse_bind_error, not_or, not_exists, not_and, Prod.forall]
    refine ⟨longHeader_noFault h f, fun _ _ _ => ?_⟩
    split <;> simp
  case pktInitial =>
    simp only [headerRule, ruleInitial, ne_eq, parse_bind_error, not_or, not_exists, not_and, Prod.forall]
    refine ⟨longHeader_noFault h f, fun _ p e1 => ?_⟩
    have b1 := longHeader_fits e1
    refine ⟨decodeVarInt_noFault h (by omega) f, fun _ p1 e2 => ⟨need_ne_fault _ _ _ _ _ _, fun _ _ => ?_⟩⟩
    have b2 := decodeVarInt_bounds e2
    exact protectedTail_noFault h (by omega) f
  case pktZeroRtt =>
    simp only [headerRule, ruleZeroRtt, ne_eq, parse_bind_error, not_or, not_exists, not_and, Prod.forall]
    refine ⟨longHeader_noFault h f, fun _ p e1 => ?_⟩
    have b1 := longHeader_fits e1
    exact protectedTail_noFault h (by omega) f
  case pktHandshake =>
    simp only [headerRule, ruleHandshake, ne_eq, parse_bind_error, not_or, not_exists, not_and, Prod.forall]
    refine ⟨longHeader_noFault h f, fun _ p e1 => ?_⟩
    have b1 := longHeader_fits e1
    exact protectedTail_noFault h (by omega) f
  case pktRetry =>
    simp only [headerRule, ruleRetry, ne_eq, parse_bind_error, need_ok, not_or, not_exists, not_and, Prod.forall,
      Config.retryTagLen]
    refine ⟨longHeader_noFault h f, fun _ p e1 => ⟨need_ne_fault _ _ _ _ _ _, fun _ h2 => ⟨?_, by simp⟩⟩⟩
    have b1 := longHeader_fits e1
    exact memRead_of_written h (by omega) (by omega) f
  all_goals simp [headerRule]

/-- The causes a header rule can raise (R152 to R165). -/
def headerCauses : List ErrCause :=
  [.hdrEof, .versionEof, .cidLenEof, .cidTooLong, .cidEof, .varintEof, .pnEof, .tokenTooLong, .retryTooShort,
    .vnTrailer]

theorem need_headerCause {w : Window} {p n q r : Nat} {c d : ErrCause} (hc : c ∈ headerCauses)
    (h : need w p n c q = .error (.raised d r)) : d ∈ headerCauses := by
  rw [(need_raise h).1]; exact hc

theorem decodeCid_headerCause {w : Window} {p q : Nat} {c : ErrCause} (h : decodeCid w p = .error (.raised c q)) :
    c ∈ headerCauses := by
  rcases (decodeCid_raise h).1 with rfl | rfl | rfl <;> decide

theorem longHeader_raise {w : Window} {p0 q : Nat} {b0 : Byte} {ver : BitVec 32} {c : ErrCause}
    (h : longHeader w p0 b0 ver = .error (.raised c q)) : c ∈ headerCauses := by
  simp only [longHeader, parse_bind_error, Prod.exists, reduceCtorEq, and_false, exists_false, or_false] at h
  rcases h with h | ⟨-, -, h | ⟨-, -, h | ⟨_, _, -, h⟩⟩⟩
  · exact need_headerCause (by decide) h
  · exact need_headerCause (by decide) h
  · exact decodeCid_headerCause h
  · exact decodeCid_headerCause h

theorem protectedTail_raise {k : Pkt} {kind : PktKind} {epoch : Epoch} {w : Window} {p q : Nat} {c : ErrCause}
    (h : protectedTail k kind epoch w p = .error (.raised c q)) : c ∈ headerCauses := by
  simp only [protectedTail, parse_bind_error, Prod.exists, reduceCtorEq, and_false, exists_false, or_false] at h
  rcases h with h | ⟨_, _, -, h⟩
  · rw [(readVar_raise h).1]; decide
  · rw [(decodePn_raise h).1]; decide

/-- What every header rule can raise (R152 to R165). -/
theorem headerRule_raise {i : Instr} {w : Window} {p0 q : Nat} {c : ErrCause}
    (h : headerRule i w p0 = .error (.raised c q)) : c ∈ headerCauses := by
  cases i
  case pktOneRtt =>
    simp only [headerRule, ruleOneRtt, parse_bind_error, Prod.exists, reduceCtorEq, and_false, exists_false,
      or_false] at h
    rcases h with h | ⟨-, -, h | ⟨_, _, -, h⟩⟩
    · exact need_headerCause (by decide) h
    · exact decodeCid_headerCause h
    · rw [(decodePn_raise h).1]; decide
  case pktVersionNegotiation =>
    simp only [headerRule, ruleVersionNegotiation, parse_bind_error, Prod.exists] at h
    rcases h with h | ⟨_, _, -, h⟩
    · exact longHeader_raise h
    · split at h
      · simp only [raise, Except.error.injEq, Stop.raised.injEq] at h
        rw [← h.1]; decide
      · simp at h
  case pktInitial =>
    simp only [headerRule, ruleInitial, parse_bind_error, Prod.exists] at h
    rcases h with h | ⟨_, _, -, h | ⟨_, _, -, h | ⟨-, -, h⟩⟩⟩
    · exact longHeader_raise h
    · rw [(decodeVarInt_raise h).1]; decide
    · exact need_headerCause (by decide) h
    · exact protectedTail_raise h
  case pktZeroRtt =>
    simp only [headerRule, ruleZeroRtt, parse_bind_error, Prod.exists] at h
    rcases h with h | ⟨_, _, -, h⟩
    · exact longHeader_raise h
    · exact protectedTail_raise h
  case pktHandshake =>
    simp only [headerRule, ruleHandshake, parse_bind_error, Prod.exists] at h
    rcases h with h | ⟨_, _, -, h⟩
    · exact longHeader_raise h
    · exact protectedTail_raise h
  case pktRetry =>
    simp only [headerRule, ruleRetry, parse_bind_error, Prod.exists, memRead_ne_raise, reduceCtorEq, and_false,
      exists_false, or_false] at h
    rcases h with h | ⟨_, _, -, h⟩
    · exact longHeader_raise h
    · exact need_headerCause (by decide) h
  all_goals
    simp only [headerRule, raise, Except.error.injEq, Stop.raised.injEq] at h
    rw [← h.1]; decide

/-- What `ParseHeader` can raise (R152). -/
theorem parseHeader_raise {w : Window} {p0 q : Nat} {c : ErrCause}
    (h : parseHeader w p0 = .error (.raised c q)) : c ∈ headerCauses := by
  simp only [parseHeader, fetchHeader, parse_bind_error, readByte_ne_raise, false_or] at h
  rcases h with (h | ⟨-, -, b0, -, h⟩) | ⟨_, -, h⟩
  · exact need_headerCause (by decide) h
  · split at h
    · simp only [parse_bind_error, memRead_ne_raise, reduceCtorEq, and_false, exists_false, or_false] at h
      exact need_headerCause (by decide) h
    · simp at h
  · exact headerRule_raise h

theorem fetchHeader_noFault {w : Window} {p0 : Nat} (h : w.written p0) (f : Fault) :
    fetchHeader w p0 ≠ .error (.fault f) := by
  simp only [fetchHeader, ne_eq, parse_bind_error, need_ok, not_or, not_exists, not_and]
  refine ⟨need_ne_fault _ _ _ _ _ _, fun _ h1 => ⟨readByte_of_written h (Nat.le_refl _) (by omega) f, fun b0 _ => ?_⟩⟩
  split
  · simp only [parse_bind_error, need_ok, not_or, not_exists, not_and]
    exact ⟨need_ne_fault _ _ _ _ _ _, fun _ h2 => ⟨memRead_of_written h (by omega) (by omega) f, by simp⟩⟩
  · simp

/-- `ParseHeader` (R152): what it answers, some header row's rule answers. -/
theorem parseHeader_ok {w : Window} {p0 : Nat} {h : Header} (hh : parseHeader w p0 = .ok h) :
    ∃ i, headerRule i w p0 = .ok h := by
  simp only [parseHeader, parse_bind_ok] at hh
  obtain ⟨i, -, h1⟩ := hh
  exact ⟨i, h1⟩

theorem parseHeader_noFault {w : Window} {p0 : Nat} (h : w.written p0) (f : Fault) :
    parseHeader w p0 ≠ .error (.fault f) := by
  simp only [parseHeader, ne_eq, parse_bind_error, not_or, not_exists, not_and]
  exact ⟨fetchHeader_noFault h f, fun i _ => headerRule_noFault h f⟩

/-- All that a `PKT_PARSE` step can answer before error entry (R150). -/
theorem pktCommand_ok {rule : Window → Nat → Parse Header} {pr : Params} {l l' : Lane}
    (h : pktCommand rule pr l = .ok l') :
    ∃ w p0 hd, ibufWindow pr l = .ok (w, p0) ∧ rule w p0 = .ok hd ∧ l' = finishHeader hd p0 w.lim l := by
  simp only [pktCommand, parse_bind_ok, Prod.exists, Except.ok.injEq] at h
  obtain ⟨w, p0, h1, hd, h2, rfl⟩ := h
  exact ⟨w, p0, hd, h1, h2, rfl⟩

/-- All that a response can do to a lane (R170 to R172). -/
theorem cryptoResponse_cases (pr : Params) (r : CryptoResp) (l : Lane) :
    (cryptoResponse pr r l = l ∧ ¬ (l.fault = none ∧ l.st = .busy ∧ l.creqOut = 1 ∧ r.id = l.creqId)) ∨
    ((l.fault = none ∧ l.st = .busy ∧ l.creqOut = 1 ∧ r.id = l.creqId) ∧
      ((r.pt = none ∧ cryptoResponse pr r l = completeError .decryptFailed l) ∨
       (∃ pt, r.pt = some pt ∧ pr.pbufCap.val < pt.length ∧ cryptoResponse pr r l = completeError .plaintext l) ∨
       (∃ pt, r.pt = some pt ∧ pt.length ≤ pr.pbufCap.val ∧ cryptoResponse pr r l = completeOk pt l))) := by
  unfold cryptoResponse
  split
  · rename_i hb
    refine .inr ⟨hb, ?_⟩
    split
    · exact .inl ⟨by assumption, rfl⟩
    · rename_i pt hpt
      split
      · rename_i hle
        exact .inr (.inr ⟨pt, hpt, hle, rfl⟩)
      · rename_i hle
        exact .inr (.inl ⟨pt, hpt, by omega, rfl⟩)
  · rename_i hb
    exact .inl ⟨rfl, hb⟩

end Sys2Proof.Machine
end

