-- ==== Sys2Proof/Laws/Exec.lean ====
section
/-! SUPPORT. What an instruction's step can be, said once for all rows: `NOP`, `CLEAR`, or the command step of one of
the rules below. A proof about every instruction cites `exec_cases` and never opens `exec`. -/

namespace Sys2Proof.Machine

/-- The command, opcode and rule that the step of a row runs in a state (R120). -/
inductive CommandOf (s : State) : Instr → Cmd → Byte → (Params → Lane → Parse Lane) → Prop where
  | varintDec : CommandOf s .varintDec .varintDec 0x01 ruleVarintDec
  | varintEnc : CommandOf s .varintEnc .varintEnc 0x02 ruleVarintEnc
  | cidDec : CommandOf s .cidDec .cidDec 0x03 ruleCidDec
  | pnDec : CommandOf s .pnDec .pnDec 0x04 rulePnDec
  | pktParse : CommandOf s .pktParse .pktParse 0x05 (pktCommand parseHeader)
  | frmOne : CommandOf s .frmOne .frmOne 0x06 (frameCommand .one parseFrame)
  | fseqBegin : CommandOf s .fseqBegin .fseqBegin 0x07 ruleFseqBegin
  | fseqNext : CommandOf s .fseqNext .fseqNext 0x08 ruleFseqNext
  | reserved (i : Instr) (op : Byte) : spaceOf i = .command → CommandOf s i .reserved op ruleReserved
  | header (i : Instr) : spaceOf i = .header → CommandOf s i .pktParse 0x05 (pktCommand (headerRule i))
  | row (i : Instr) : spaceOf i = .frame →
      CommandOf s i (frameCmdOf s).cmd (frameCmdOf s).opcode (frameCommand (frameCmdOf s) (parseRow i (frameRule i)))

/-- The step of a header row is the `PKT_PARSE` step of its rule (R157). -/
theorem exec_header {i : Instr} (h : spaceOf i = .header) (s : State) :
    exec i s = runCommand .pktParse 0x05 (pktCommand (headerRule i)) s := by
  cases i
  case pktOneRtt => rfl
  case pktVersionNegotiation => rfl
  case pktInitial => rfl
  case pktZeroRtt => rfl
  case pktHandshake => rfl
  case pktRetry => rfl
  all_goals exact absurd h (by simp [spaceOf])

/-- The step of a frame row is the step of the frame command being executed, with the row's rule (R191). -/
theorem exec_row {i : Instr} (h : spaceOf i = .frame) (s : State) : exec i s = runRow i (frameRule i) s := by
  cases i
  case frmPadding => rfl
  case frmPing => rfl
  case frmAck => rfl
  case frmAckEcn => rfl
  case frmResetStream => rfl
  case frmStopSending => rfl
  case frmCrypto => rfl
  case frmNewToken => rfl
  case frmStream => rfl
  case frmMaxData => rfl
  case frmMaxStreamData => rfl
  case frmMaxStreams => rfl
  case frmDataBlocked => rfl
  case frmStreamDataBlocked => rfl
  case frmStreamsBlocked => rfl
  case frmNewConnectionId => rfl
  case frmRetireConnectionId => rfl
  case frmPathChallenge => rfl
  case frmPathResponse => rfl
  case frmConnectionCloseQuic => rfl
  case frmConnectionCloseApp => rfl
  case frmHandshakeDone => rfl
  case frmUnknown => rfl
  all_goals exact absurd h (by simp [spaceOf])

/-- All that the step of an instruction can be (R120, R121, R133). -/
theorem exec_cases (i : Instr) (s : State) :
    (i = .nop ∧ exec i s = .next { s with lane := s.lane.accept 0x00 }) ∨
    (i = .clear ∧ exec i s = .next { s with lane := clearLane (s.lane.accept 0x09) }) ∨
    ∃ c op rule, CommandOf s i c op rule ∧ exec i s = runCommand c op rule s := by
  by_cases hh : spaceOf i = .header
  · exact .inr (.inr ⟨_, _, _, .header i hh, exec_header hh s⟩)
  by_cases hf : spaceOf i = .frame
  · exact .inr (.inr ⟨_, _, _, .row i hf, exec_row hf s⟩)
  cases i
  case nop => exact .inl ⟨rfl, rfl⟩
  case clear => exact .inr (.inl ⟨rfl, rfl⟩)
  case varintDec => exact .inr (.inr ⟨_, _, _, .varintDec, rfl⟩)
  case varintEnc => exact .inr (.inr ⟨_, _, _, .varintEnc, rfl⟩)
  case cidDec => exact .inr (.inr ⟨_, _, _, .cidDec, rfl⟩)
  case pnDec => exact .inr (.inr ⟨_, _, _, .pnDec, rfl⟩)
  case pktParse => exact .inr (.inr ⟨_, _, _, .pktParse, rfl⟩)
  case frmOne => exact .inr (.inr ⟨_, _, _, .frmOne, rfl⟩)
  case fseqBegin => exact .inr (.inr ⟨_, _, _, .fseqBegin, rfl⟩)
  case fseqNext => exact .inr (.inr ⟨_, _, _, .fseqNext, rfl⟩)
  case reserved0A => exact .inr (.inr ⟨_, _, _, .reserved _ _ rfl, rfl⟩)
  case reserved0C => exact .inr (.inr ⟨_, _, _, .reserved _ _ rfl, rfl⟩)
  case reserved10 => exact .inr (.inr ⟨_, _, _, .reserved _ _ rfl, rfl⟩)
  case reserved20 => exact .inr (.inr ⟨_, _, _, .reserved _ _ rfl, rfl⟩)
  case reserved40 => exact .inr (.inr ⟨_, _, _, .reserved _ _ rfl, rfl⟩)
  case reserved80 => exact .inr (.inr ⟨_, _, _, .reserved _ _ rfl, rfl⟩)
  all_goals first
    | exact absurd rfl hh
    | exact absurd rfl hf

/-- All that the frame command step of a parser can commit (R192, R194). -/
theorem frameCommand_ok {d : FrameCmd} {parse : Params → Window → Nat → Parse FrameOut} {pr : Params} {l l' : Lane}
    (h : frameCommand d parse pr l = .ok l') :
    ∃ w p out, frameWindow d pr l = .ok (w, p) ∧ parse pr w p = .ok out ∧ l' = commitFrame d out l := by
  simp only [frameCommand, parse_bind_ok, Prod.exists, Except.ok.injEq] at h
  obtain ⟨w, p, h1, out, h2, rfl⟩ := h
  exact ⟨w, p, out, h1, h2, rfl⟩

/-- All that a frame command step can raise (R192, R194): a bad cursor, or what the parser raises. -/
theorem frameCommand_raise {d : FrameCmd} {parse : Params → Window → Nat → Parse FrameOut} {pr : Params} {l : Lane}
    {c : ErrCause} {q : Nat} (h : frameCommand d parse pr l = .error (.raised c q)) :
    (d = .one ∧ c = .badCursor) ∨ ∃ w p, parse pr w p = .error (.raised c q) := by
  simp only [frameCommand, parse_bind_error, Prod.exists, reduceCtorEq, and_false, exists_false, or_false] at h
  rcases h with h | ⟨w, p, -, h⟩
  · cases d
    · left
      simp only [frameWindow, ibufWindow] at h
      split at h
      · simp only [raise, Except.error.injEq, Stop.raised.injEq] at h
        exact ⟨rfl, h.1.symm⟩
      · simp at h
    · simp [frameWindow] at h
  · exact .inr ⟨w, p, h⟩

/-- All that `FSEQ_NEXT` can commit (R194): nothing of a finished sequence, the end, or one frame. -/
theorem ruleFseqNext_ok {pr : Params} {l l' : Lane} (h : ruleFseqNext pr l = .ok l') :
    ((l.fstate = .ended ∨ l.fstate = .failed) ∧ l' = sequenceEnd l) ∨
    (l.fstate = .active ∧ l.fcur = l.fend ∧ l' = { sequenceEnd l with fstate := .ended }) ∨
    (l.fstate = .active ∧ l.fcur ≠ l.fend ∧ frameCommand .next parseFrame pr l = .ok l') := by
  unfold ruleFseqNext at h
  split at h
  · simp at h
  · cases h; exact .inl ⟨.inl (by assumption), rfl⟩
  · cases h; exact .inl ⟨.inr (by assumption), rfl⟩
  · split at h
    · cases h; exact .inr (.inl ⟨by assumption, by assumption, rfl⟩)
    · exact .inr (.inr ⟨by assumption, by assumption, h⟩)

theorem bytesBE_length (v n : Nat) : (bytesBE v n).length = n := by
  induction n generalizing v with
  | zero => rfl
  | succ n ih => simp [bytesBE, ih]

theorem varintBytes_length (c v : Nat) : (varintBytes c v).length = 2 ^ c := by
  have h := bytesBE_length v (2 ^ c)
  unfold varintBytes
  split <;> simp_all

theorem varintLeastClass_lt (v : Nat) : varintLeastClass v < 4 := by
  unfold varintLeastClass; split_ifs <;> decide

/-- All that `EncodeVarInt` can answer (R126): at most 8 bytes. -/
theorem encodeVarInt_ok {v r : Nat} {bs : List Byte} (h : encodeVarInt v r = .ok bs) :
    ∃ c, c < 4 ∧ bs = varintBytes c v ∧ bs.length ≤ 8 := by
  have key : ∀ c < 4, (varintBytes c v).length ≤ 8 := by
    intro c hc
    rw [varintBytes_length]
    interval_cases c <;> decide
  unfold encodeVarInt at h
  split at h
  · simp at h
  · split at h
    · cases h
      exact ⟨_, varintLeastClass_lt v, rfl, key _ (varintLeastClass_lt v)⟩
    · split at h
      · split at h
        · cases h
          exact ⟨r - 1, by omega, rfl, key _ (by omega)⟩
        · simp at h
      · simp at h

/-- What a command that commits can make of its lane (R120): one case for each shape of commit. -/
inductive Committed (pr : Params) (l : Lane) : Lane → Prop where
  /-- `VARINT_DEC` and `PN_DEC` (R123, R132). -/
  | value (rval cur : Word) : Committed pr l { l.commit with rval := rval, cur := cur }
  /-- `VARINT_ENC` (R127). -/
  | encoded (bs : List Byte) : bs.length ≤ 8 →
      Committed pr l { l.commit with obuf := padBytes 8 bs, olen := BitVec.ofNat 4 bs.length }
  /-- `CID_DEC` (R129). -/
  | cid (c : Cid) (cur : Word) : CidInv c → Committed pr l { l.commit with rcid := c, cur := cur }
  /-- `PKT_PARSE` (R150). -/
  | header (h : Header) (w : Window) (p0 : Nat) : ibufWindow pr l = .ok (w, p0) → HeaderFits w p0 h →
      Committed pr l (finishHeader h p0 w.lim l)
  /-- `FRM_ONE`, and `FSEQ_NEXT` with a frame (R192, R194). -/
  | frame (d : FrameCmd) (w : Window) (p : Nat) (out : FrameOut) : frameWindow d pr l = .ok (w, p) →
      FrameFits pr w p out → p < out.pos → Committed pr l (commitFrame d out l)
  /-- `FSEQ_BEGIN` (R193). -/
  | begun : low32 l.ilen ≤ pr.ibufCap.val → low32 l.cur ≤ low32 l.ilen →
      Committed pr l { l.commit with
        fbuf := .ibuf, fcur := BitVec.ofNat 32 (low32 l.cur), fend := BitVec.ofNat 32 (low32 l.ilen),
        fstate := .active, frm := Frm.zero, fres := .none }
  /-- `FSEQ_NEXT` after the end or a failure (R194). -/
  | finished : l.fstate = .ended ∨ l.fstate = .failed → Committed pr l (sequenceEnd l)
  /-- `FSEQ_NEXT` at the end of its window (R194). -/
  | ended : l.fstate = .active → l.fcur = l.fend → Committed pr l { sequenceEnd l with fstate := .ended }

/-- All that a row's rule can commit. -/
theorem CommandOf.committed {s : State} {i : Instr} {c : Cmd} {op : Byte} {rule : Params → Lane → Parse Lane}
    (hc : CommandOf s i c op rule) {pr : Params} {l l' : Lane} (h : rule pr l = .ok l') : Committed pr l l' := by
  cases hc
  case varintDec =>
    simp only [ruleVarintDec, parse_bind_ok, Prod.exists, Except.ok.injEq] at h
    obtain ⟨w, p, h1, v, q, h2, rfl⟩ := h
    exact .value _ _
  case varintEnc =>
    simp only [ruleVarintEnc, parse_bind_ok, Except.ok.injEq] at h
    obtain ⟨bs, h1, rfl⟩ := h
    obtain ⟨-, -, -, h2⟩ := encodeVarInt_ok h1
    exact .encoded bs h2
  case cidDec =>
    simp only [ruleCidDec, parse_bind_ok, Prod.exists, Except.ok.injEq] at h
    obtain ⟨w, p, h1, v, q, h2, rfl⟩ := h
    exact .cid _ _ (decodeCid_bounds h2).2.2
  case pnDec =>
    simp only [rulePnDec, parse_bind_ok, Prod.exists] at h
    obtain ⟨w, p, h1, h⟩ := h
    split at h
    · simp at h
    · simp only [parse_bind_ok, Prod.exists, Except.ok.injEq] at h
      obtain ⟨v, q, h2, rfl⟩ := h
      exact .value _ _
  case pktParse =>
    obtain ⟨w, p0, hd, h1, h2, rfl⟩ := pktCommand_ok h
    obtain ⟨i, h2⟩ := parseHeader_ok h2
    exact .header _ _ _ h1 (headerRule_ok h2)
  case header =>
    obtain ⟨w, p0, hd, h1, h2, rfl⟩ := pktCommand_ok h
    exact .header _ _ _ h1 (headerRule_ok h2)
  case frmOne =>
    obtain ⟨w, p, out, h1, h2, rfl⟩ := frameCommand_ok h
    exact .frame _ _ _ _ h1 (parseFrame_ok h2).1 (parseFrame_ok h2).2
  case row =>
    obtain ⟨w, p, out, h1, h2, rfl⟩ := frameCommand_ok h
    exact .frame _ _ _ _ h1 (parseRow_ok h2).1 (parseRow_ok h2).2
  case fseqBegin =>
    simp only [ruleFseqBegin, parse_bind_ok, Prod.exists, Except.ok.injEq] at h
    obtain ⟨w, p, h1, rfl⟩ := h
    obtain ⟨h2, h3, rfl, rfl⟩ := ibufWindow_ok h1
    exact .begun h2 h3
  case fseqNext =>
    rcases ruleFseqNext_ok h with ⟨h1, rfl⟩ | ⟨h1, h2, rfl⟩ | ⟨h1, h2, h3⟩
    · exact .finished h1
    · exact .ended h1 h2
    · obtain ⟨w, p, out, h4, h5, rfl⟩ := frameCommand_ok h3
      exact .frame _ _ _ _ h4 (parseFrame_ok h5).1 (parseFrame_ok h5).2
  case reserved => simp [ruleReserved] at h

/-- All that an instruction can make of its lane: `NOP`, `CLEAR`, a commit, or error entry (R120, R245). -/
theorem exec_next {i : Instr} {s t : State} (h : exec i s = .next t) :
    t.lane = s.lane.accept 0x00 ∨ t.lane = clearLane (s.lane.accept 0x09) ∨
    ∃ c op rule, CommandOf s i c op rule ∧ (Committed s.params (s.lane.accept op) t.lane ∨
      ∃ e p, rule s.params (s.lane.accept op) = .error (.raised e p) ∧
        t.lane = errorEntry c e p (s.lane.accept op)) := by
  rcases exec_cases i s with ⟨-, e⟩ | ⟨-, e⟩ | ⟨c, op, rule, hc, e⟩
  · rw [e] at h; cases h; exact .inl rfl
  · rw [e] at h; cases h; exact .inr (.inl rfl)
  · rw [e] at h
    obtain ⟨l, rfl, h | ⟨ec, p, h1, h2⟩⟩ := runCommand_next h
    · exact .inr (.inr ⟨c, op, rule, hc, .inl (hc.committed h)⟩)
    · exact .inr (.inr ⟨c, op, rule, hc, .inr ⟨ec, p, h1, h2⟩⟩)

/-- No instruction is refused (R120): every step answers a next state or reaches the fault of R64. -/
theorem exec_not_refused (i : Instr) (s : State) (r : Refusal) : exec i s ≠ .refused r := by
  rcases exec_cases i s with ⟨-, h⟩ | ⟨-, h⟩ | ⟨c, op, rule, -, h⟩
  · rw [h]; simp
  · rw [h]; simp
  · rw [h]; unfold runCommand; split <;> simp

/-- The lane of the state after a step is the only part of it that can change (R20). -/
theorem exec_frame {i : Instr} {s t : State} (h : exec i s = .next t) : t = { s with lane := t.lane } := by
  rcases exec_cases i s with ⟨-, e⟩ | ⟨-, e⟩ | ⟨c, op, rule, -, e⟩
  · rw [e] at h; cases h; rfl
  · rw [e] at h; cases h; rfl
  · rw [e] at h
    obtain ⟨l, rfl, -⟩ := runCommand_next h
    rfl

/-- A commit leaves the mark of a model fault as it is (R11). -/
theorem Committed.fault {pr : Params} {l l' : Lane} (h : Committed pr l l') : l'.fault = l.fault := by
  cases h with
  | header h w p0 _ _ => unfold finishHeader; split <;> rfl
  | frame d w p out _ _ _ => cases d <;> rfl
  | _ => rfl

/-- No instruction changes the mark of a model fault (R11): the step that stops a lane sets it. -/
theorem exec_keeps_fault {i : Instr} {s t : State} (h : exec i s = .next t) : t.lane.fault = s.lane.fault := by
  rcases exec_next h with e | e | ⟨c, op, rule, -, hc | ⟨e, p, -, hl⟩⟩
  · rw [e]; rfl
  · rw [e]; rfl
  · rw [hc.fault]; rfl
  · rw [hl]; simp

end Sys2Proof.Machine
end

