-- ==== Sys2Proof/Laws/Memory.lean ====
section
/-! SUPPORT. The laws of memory: a read after a write, and the canonical form. -/

namespace Sys2Proof.Machine

theorem Mem.read_write (m : Mem) (a c : Nat) (b : Byte) :
    Mem.read (Mem.write m a b) c = if c = a then some b else Mem.read m c := by
  induction m with
  | nil => simp only [Mem.write, Mem.read, eq_comm]
  | cons x m ih =>
    obtain ⟨k, v⟩ := x
    simp only [Mem.write]
    split
    · simp only [Mem.read, eq_comm]
    · split
      · subst_vars
        simp only [Mem.read]
        by_cases h : c = k <;> simp [h, eq_comm]
      · simp only [Mem.read, ih]
        by_cases h : k = c
        · subst h; simp_all [eq_comm]
        · simp [h]

theorem Mem.read_write_same (m : Mem) (a : Nat) (b : Byte) : Mem.read (Mem.write m a b) a = some b := by
  simp [Mem.read_write]

theorem Mem.read_write_other (m : Mem) (a c : Nat) (b : Byte) (h : c ≠ a) :
    Mem.read (Mem.write m a b) c = Mem.read m c := by simp [Mem.read_write, h]

/-- A byte string written from `a` up: its bytes inside, the old ones outside. -/
theorem Mem.read_writeAll (bs : List Byte) (m : Mem) (a c : Nat) :
    Mem.read (Mem.writeAll m a bs) c = if h : a ≤ c ∧ c - a < bs.length then some bs[c - a] else Mem.read m c := by
  induction bs generalizing m a with
  | nil => simp [Mem.writeAll]
  | cons b bs ih =>
    rw [Mem.writeAll, ih, Mem.read_write]
    by_cases h1 : c = a
    · subst h1
      have h2 : ¬ (c + 1 ≤ c ∧ c - (c + 1) < bs.length) := by omega
      have h3 : c ≤ c ∧ c - c < (b :: bs).length := by simp
      rw [dif_neg h2, dif_pos h3, if_pos rfl]
      simp
    · by_cases h2 : a + 1 ≤ c ∧ c - (a + 1) < bs.length
      · have h3 : a ≤ c ∧ c - a < (b :: bs).length := by simp only [List.length_cons]; omega
        have h4 : c - a = c - (a + 1) + 1 := by omega
        rw [dif_pos h2, dif_pos h3]
        simp only [h4, List.getElem_cons_succ]
      · have h3 : ¬ (a ≤ c ∧ c - a < (b :: bs).length) := by simp only [List.length_cons]; omega
        rw [dif_neg h2, dif_neg h3, if_neg h1]

theorem Mem.wf_cons (x : Host.Cell) (m : Mem) :
    Mem.wf (x :: m) = true ↔ (∀ y ∈ m.head?, x.1 < y.1) ∧ Mem.wf m = true := by
  cases m with
  | nil => simp [Mem.wf]
  | cons y m => simp [Mem.wf]

/-- The head of a memory after a write is the new cell or the old head. -/
theorem Mem.head_write (m : Mem) (a : Nat) (b : Byte) :
    ∀ y ∈ (Mem.write m a b).head?, y.1 = a ∨ (∃ z ∈ m.head?, y.1 = z.1) := by
  cases m with
  | nil => simp [Mem.write]
  | cons x m =>
    obtain ⟨k, v⟩ := x
    simp only [Mem.write]
    split
    · simp
    · split <;> simp_all

/-- A write keeps the canonical form. -/
theorem Mem.wf_write (m : Mem) (a : Nat) (b : Byte) (h : Mem.wf m = true) : Mem.wf (Mem.write m a b) = true := by
  induction m with
  | nil => rfl
  | cons x m ih =>
    obtain ⟨k, v⟩ := x
    obtain ⟨h1, h2⟩ := (Mem.wf_cons _ _).1 h
    simp only [Mem.write]
    split
    · refine (Mem.wf_cons _ _).2 ⟨by simpa, h⟩
    · split
      · subst_vars
        exact (Mem.wf_cons _ _).2 ⟨h1, h2⟩
      · refine (Mem.wf_cons _ _).2 ⟨fun y hy => ?_, ih h2⟩
        rcases Mem.head_write m a b y hy with h3 | ⟨z, hz, h3⟩
        · simp only [h3]; omega
        · simpa [h3] using h1 z hz

theorem Mem.wf_writeAll (bs : List Byte) (m : Mem) (a : Nat) (h : Mem.wf m = true) :
    Mem.wf (Mem.writeAll m a bs) = true := by
  induction bs generalizing m a with
  | nil => exact h
  | cons b bs ih => exact ih _ _ (Mem.wf_write _ _ _ h)

/-- The addresses a write leaves listed are the old ones and the new one. -/
theorem Mem.mem_write (m : Mem) (a : Nat) (b : Byte) (c : Host.Cell) (h : c ∈ Mem.write m a b) : c.1 = a ∨ c ∈ m := by
  induction m with
  | nil => simp only [Mem.write, List.mem_singleton] at h; simp [h]
  | cons x m ih =>
    obtain ⟨k, v⟩ := x
    simp only [Mem.write] at h
    split at h
    · simp only [List.mem_cons] at h ⊢
      rcases h with rfl | h
      · exact .inl rfl
      · exact .inr h
    · split at h
      · simp only [List.mem_cons] at h ⊢
        rcases h with rfl | h
        · exact .inl rfl
        · exact .inr (.inr h)
      · simp only [List.mem_cons] at h ⊢
        rcases h with rfl | h
        · exact .inr (.inl rfl)
        · rcases ih h with h | h
          · exact .inl h
          · exact .inr (.inr h)

theorem Mem.mem_writeAll (bs : List Byte) (m : Mem) (a : Nat) (c : Host.Cell) (h : c ∈ Mem.writeAll m a bs) :
    c.1 < a + bs.length ∨ c ∈ m := by
  induction bs generalizing m a with
  | nil => exact .inr h
  | cons b bs ih =>
    rcases ih _ _ h with h1 | h1
    · simp only [List.length_cons]; omega
    · rcases Mem.mem_write _ _ _ _ h1 with h2 | h2
      · simp only [List.length_cons]; omega
      · exact .inr h2

end Sys2Proof.Machine
end

