-- ==== Sys2Proof/Laws/PerInstr.lean ====
section
/-! SUPPORT. The per-instruction family of the package: the selecting field of every instruction lies in the row of the
opcode table it stands for (R99, R101, R110). -/

/-- The instruction's field, under the mask of its row, is the row's pattern. -/
def Sys2Proof.Laws.RowMatch.Statement (i : Sys2Proof.Instr) : Prop :=
  Sys2Proof.fieldOf i &&& (Sys2Proof.rowOf i).mask = (Sys2Proof.rowOf i).pat

namespace Sys2Proof.Laws

theorem RowMatch.nop : RowMatch.Statement .nop := rfl

theorem RowMatch.varintDec : RowMatch.Statement .varintDec := rfl

theorem RowMatch.varintEnc : RowMatch.Statement .varintEnc := rfl

theorem RowMatch.cidDec : RowMatch.Statement .cidDec := rfl

theorem RowMatch.pnDec : RowMatch.Statement .pnDec := rfl

theorem RowMatch.pktParse : RowMatch.Statement .pktParse := rfl

theorem RowMatch.frmOne : RowMatch.Statement .frmOne := rfl

theorem RowMatch.fseqBegin : RowMatch.Statement .fseqBegin := rfl

theorem RowMatch.fseqNext : RowMatch.Statement .fseqNext := rfl

theorem RowMatch.clear : RowMatch.Statement .clear := rfl

theorem RowMatch.reserved0A (low : BitVec 1) : RowMatch.Statement (.reserved0A low) := by
  unfold RowMatch.Statement; revert low; decide

theorem RowMatch.reserved0C (low : BitVec 2) : RowMatch.Statement (.reserved0C low) := by
  unfold RowMatch.Statement; revert low; decide

theorem RowMatch.reserved10 (low : BitVec 4) : RowMatch.Statement (.reserved10 low) := by
  unfold RowMatch.Statement; revert low; decide

theorem RowMatch.reserved20 (low : BitVec 5) : RowMatch.Statement (.reserved20 low) := by
  unfold RowMatch.Statement; revert low; decide

theorem RowMatch.reserved40 (low : BitVec 6) : RowMatch.Statement (.reserved40 low) := by
  unfold RowMatch.Statement; revert low; decide

theorem RowMatch.reserved80 (low : BitVec 7) : RowMatch.Statement (.reserved80 low) := by
  unfold RowMatch.Statement; revert low; decide

theorem RowMatch.pktOneRtt (fixed spin : BitVec 1) (rsv : BitVec 2) (keyPhase : BitVec 1) (pnl : BitVec 2)
    : RowMatch.Statement (.pktOneRtt fixed spin rsv keyPhase pnl) := by
  show (shortHeaderByte fixed spin rsv keyPhase pnl).toNat &&& 0x80 = 0x00
  revert fixed spin rsv keyPhase pnl; decide

theorem RowMatch.pktVersionNegotiation (low : BitVec 7) : RowMatch.Statement (.pktVersionNegotiation low) := by
  unfold RowMatch.Statement; revert low; decide

theorem RowMatch.pktInitial (fixed : BitVec 1) (rsv pnl : BitVec 2) (ver : BitVec 32)
    : RowMatch.Statement (.pktInitial fixed rsv pnl ver) := by
  show (longHeaderByte fixed 0b00#2 rsv pnl).toNat &&& 0xB0 = 0x80
  revert fixed rsv pnl; decide

theorem RowMatch.pktZeroRtt (fixed : BitVec 1) (rsv pnl : BitVec 2) (ver : BitVec 32)
    : RowMatch.Statement (.pktZeroRtt fixed rsv pnl ver) := by
  show (longHeaderByte fixed 0b01#2 rsv pnl).toNat &&& 0xB0 = 0x90
  revert fixed rsv pnl; decide

theorem RowMatch.pktHandshake (fixed : BitVec 1) (rsv pnl : BitVec 2) (ver : BitVec 32)
    : RowMatch.Statement (.pktHandshake fixed rsv pnl ver) := by
  show (longHeaderByte fixed 0b10#2 rsv pnl).toNat &&& 0xB0 = 0xA0
  revert fixed rsv pnl; decide

theorem RowMatch.pktRetry (fixed : BitVec 1) (rsv pnl : BitVec 2) (ver : BitVec 32)
    : RowMatch.Statement (.pktRetry fixed rsv pnl ver) := by
  show (longHeaderByte fixed 0b11#2 rsv pnl).toNat &&& 0xB0 = 0xB0
  revert fixed rsv pnl; decide

theorem RowMatch.frmPadding : RowMatch.Statement .frmPadding := rfl

theorem RowMatch.frmPing : RowMatch.Statement .frmPing := rfl

theorem RowMatch.frmAck : RowMatch.Statement .frmAck := rfl

theorem RowMatch.frmAckEcn : RowMatch.Statement .frmAckEcn := rfl

theorem RowMatch.frmResetStream : RowMatch.Statement .frmResetStream := rfl

theorem RowMatch.frmStopSending : RowMatch.Statement .frmStopSending := rfl

theorem RowMatch.frmCrypto : RowMatch.Statement .frmCrypto := rfl

theorem RowMatch.frmNewToken : RowMatch.Statement .frmNewToken := rfl

theorem RowMatch.frmStream (off len fin : BitVec 1) : RowMatch.Statement (.frmStream off len fin) := by
  unfold RowMatch.Statement; revert off len fin; decide

theorem RowMatch.frmMaxData : RowMatch.Statement .frmMaxData := rfl

theorem RowMatch.frmMaxStreamData : RowMatch.Statement .frmMaxStreamData := rfl

theorem RowMatch.frmMaxStreams (low : BitVec 1) : RowMatch.Statement (.frmMaxStreams low) := by
  unfold RowMatch.Statement; revert low; decide

theorem RowMatch.frmDataBlocked : RowMatch.Statement .frmDataBlocked := rfl

theorem RowMatch.frmStreamDataBlocked : RowMatch.Statement .frmStreamDataBlocked := rfl

theorem RowMatch.frmStreamsBlocked (low : BitVec 1) : RowMatch.Statement (.frmStreamsBlocked low) := by
  unfold RowMatch.Statement; revert low; decide

theorem RowMatch.frmNewConnectionId : RowMatch.Statement .frmNewConnectionId := rfl

theorem RowMatch.frmRetireConnectionId : RowMatch.Statement .frmRetireConnectionId := rfl

theorem RowMatch.frmPathChallenge : RowMatch.Statement .frmPathChallenge := rfl

theorem RowMatch.frmPathResponse : RowMatch.Statement .frmPathResponse := rfl

theorem RowMatch.frmConnectionCloseQuic : RowMatch.Statement .frmConnectionCloseQuic := rfl

theorem RowMatch.frmConnectionCloseApp : RowMatch.Statement .frmConnectionCloseApp := rfl

theorem RowMatch.frmHandshakeDone : RowMatch.Statement .frmHandshakeDone := rfl

theorem RowMatch.frmUnknown (typ : VarVal) : RowMatch.Statement (.frmUnknown typ) := Nat.and_zero _

end Sys2Proof.Laws
end

