-- ==== Sys2Proof/Laws/Step.lean ====
section
/-! SUPPORT. What one step of the machine can do, said once: an issued command, nothing, or one event of the
environment on the lane it names. -/

namespace Sys2Proof.Machine

/-! ### Lanes -/

theorem dropLane_sub {ls : List (Nat × Lane)} {k : Nat} {x : Nat × Lane} (h : x ∈ dropLane ls k) : x ∈ ls := by
  induction ls with
  | nil => simp [dropLane] at h
  | cons y ls ih =>
    simp only [dropLane] at h
    split at h
    · exact List.mem_cons_of_mem _ h
    · simp only [List.mem_cons] at h ⊢
      exact h.imp id ih

theorem mem_parkLane {ls : List (Nat × Lane)} {k : Nat} {l : Lane} {x : Nat × Lane} :
    x ∈ parkLane ls k l ↔ x = (k, l) ∨ x ∈ ls := by
  induction ls with
  | nil => simp [parkLane]
  | cons y ls ih =>
    simp only [parkLane]
    split
    · simp
    · simp only [List.mem_cons, ih]
      exact or_left_comm

theorem findLane_mem {ls : List (Nat × Lane)} {k : Nat} {l : Lane} (h : findLane ls k = some l) : (k, l) ∈ ls := by
  induction ls with
  | nil => simp [findLane] at h
  | cons y ls ih =>
    simp only [findLane] at h
    split at h
    · cases h; subst_vars; exact List.mem_cons_self
    · exact List.mem_cons_of_mem _ (ih h)

theorem findLane_none {ls : List (Nat × Lane)} {k : Nat} (h : k ∉ ls.map Prod.fst) : findLane ls k = none := by
  induction ls with
  | nil => rfl
  | cons y ls ih =>
    simp only [List.map_cons, List.mem_cons, not_or] at h
    simp only [findLane]
    rw [if_neg (fun e => h.1 e.symm), ih h.2]

theorem findLane_drop {ls : List (Nat × Lane)} {k j : Nat} (h : j ≠ k) :
    findLane (dropLane ls k) j = findLane ls j := by
  induction ls with
  | nil => rfl
  | cons y ls ih =>
    simp only [dropLane, findLane]
    split
    · rename_i e
      rw [if_neg (fun e' => h (e'.symm.trans e))]
    · simp only [findLane, ih]

theorem findLane_park {ls : List (Nat × Lane)} {k j : Nat} {l : Lane} (h : k ∉ ls.map Prod.fst) :
    findLane (parkLane ls k l) j = if j = k then some l else findLane ls j := by
  induction ls with
  | nil => simp only [parkLane, findLane, eq_comm]
  | cons y ls ih =>
    simp only [List.map_cons, List.mem_cons, not_or] at h
    simp only [parkLane]
    split
    · simp only [findLane, eq_comm]
    · simp only [findLane, ih h.2]
      by_cases e : y.1 = j
      · rw [if_pos e, if_neg (fun e' => h.1 (e'.symm.trans e.symm)), if_pos e]
      · rw [if_neg e, if_neg e]

theorem length_park (ls : List (Nat × Lane)) (k : Nat) (l : Lane) : (parkLane ls k l).length = ls.length + 1 := by
  induction ls with
  | nil => rfl
  | cons y ls ih =>
    simp only [parkLane]
    split <;> simp [ih]

theorem length_drop {ls : List (Nat × Lane)} {k : Nat} {l : Lane} (h : findLane ls k = some l) :
    (dropLane ls k).length + 1 = ls.length := by
  induction ls with
  | nil => simp [findLane] at h
  | cons y ls ih =>
    simp only [findLane] at h
    simp only [dropLane]
    split
    · simp
    · rename_i e
      rw [if_neg e] at h
      simp [ih h]

theorem rising_drop {ls : List (Nat × Lane)} {k : Nat} (h : (ls.map Prod.fst).Pairwise (· < ·)) :
    ((dropLane ls k).map Prod.fst).Pairwise (· < ·) ∧ k ∉ (dropLane ls k).map Prod.fst := by
  induction ls with
  | nil => simp [dropLane]
  | cons y ls ih =>
    simp only [List.map_cons, List.pairwise_cons] at h
    simp only [dropLane]
    split
    · rename_i e
      refine ⟨h.2, fun hk => ?_⟩
      have := h.1 k hk
      omega
    · rename_i e
      obtain ⟨h1, h2⟩ := ih h.2
      simp only [List.map_cons, List.pairwise_cons, List.mem_cons, not_or]
      refine ⟨⟨fun a ha => ?_, h1⟩, fun e' => e e'.symm, h2⟩
      simp only [List.mem_map] at ha
      obtain ⟨x, hx, rfl⟩ := ha
      exact h.1 _ (List.mem_map_of_mem (dropLane_sub hx))

theorem rising_park {ls : List (Nat × Lane)} {k : Nat} {l : Lane} (h : (ls.map Prod.fst).Pairwise (· < ·))
    (hk : k ∉ ls.map Prod.fst) : ((parkLane ls k l).map Prod.fst).Pairwise (· < ·) := by
  induction ls with
  | nil => simp [parkLane]
  | cons y ls ih =>
    simp only [List.map_cons, List.pairwise_cons, List.mem_cons, not_or] at h hk
    simp only [parkLane]
    split
    · rename_i e
      simp only [List.map_cons, List.pairwise_cons, List.mem_cons, forall_eq_or_imp]
      exact ⟨⟨e, fun a ha => by have := h.1 a ha; omega⟩, h⟩
    · rename_i e
      simp only [List.map_cons, List.pairwise_cons]
      refine ⟨fun a ha => ?_, ih h.2 hk.2⟩
      simp only [List.mem_map, mem_parkLane] at ha
      obtain ⟨x, rfl | hx, rfl⟩ := ha
      · omega
      · exact h.1 _ (List.mem_map_of_mem hx)

/-- All that bringing a lane into focus can do: the same lanes, the named one in focus (R20). -/
theorem focus_some {k : Nat} {s s' : State} (h : focus k s = some s') :
    s'.sel = k ∧ s'.params = s.params ∧ s'.inbox = s.inbox ∧ s'.refusals = s.refusals ∧ s'.free = s.free ∧
      s.laneAt k = some s'.lane ∧ (k = s.sel ∧ s' = s ∨ k ≠ s.sel ∧ findLane s.parked k = some s'.lane ∧
        s'.parked = parkLane (dropLane s.parked k) s.sel s.lane) := by
  unfold focus at h
  split at h
  · rename_i e
    cases h
    exact ⟨e.symm, rfl, rfl, rfl, rfl, by simp [State.laneAt, e], .inl ⟨e, rfl⟩⟩
  · rename_i e
    split at h
    · simp at h
    · rename_i l hl
      cases h
      exact ⟨rfl, rfl, rfl, rfl, rfl, by simp [State.laneAt, e, hl], .inr ⟨e, hl, rfl⟩⟩

/-- Bringing a lane into focus keeps a property of every lane. -/
theorem focus_everyLane {P : Lane → Prop} {k : Nat} {s s' : State} (h : focus k s = some s') (hs : EveryLane P s) :
    EveryLane P s' := by
  obtain ⟨-, -, -, -, -, -, ⟨-, rfl⟩ | ⟨-, hl, hp⟩⟩ := focus_some h
  · exact hs
  · refine ⟨hs.2 _ (findLane_mem hl), fun x hx => ?_⟩
    rw [hp, mem_parkLane] at hx
    rcases hx with rfl | hx
    · exact hs.1
    · exact hs.2 _ (dropLane_sub hx)

/-- Bringing a lane into focus, when the one that had it has no command to execute, keeps the lanes as they are. -/
theorem focus_lanes {k : Nat} {s s' : State} (h : focus k s = some s') (hs : LanesInv s) (hc : s.lane.issued = none) :
    LanesInv s' ∧ s'.parked.length = s.parked.length ∧ ∀ j, s'.laneAt j = s.laneAt j := by
  obtain ⟨hsel, -, -, -, -, -, ⟨-, rfl⟩ | ⟨hk, hl, hp⟩⟩ := focus_some h
  · exact ⟨hs, rfl, fun _ => rfl⟩
  · obtain ⟨r1, r2⟩ := rising_drop (k := k) hs.rising
    have apart : s.sel ∉ (dropLane s.parked k).map Prod.fst := fun hm => by
      simp only [List.mem_map] at hm
      obtain ⟨x, hx, hx2⟩ := hm
      exact hs.apart (hx2 ▸ List.mem_map_of_mem (dropLane_sub hx))
    refine ⟨⟨hp ▸ rising_park r1 apart, ?_, fun x hx => ?_⟩, ?_, fun j => ?_⟩
    · rw [hp, hsel]
      intro hm
      simp only [List.mem_map, mem_parkLane] at hm
      obtain ⟨x, rfl | hx, hx2⟩ := hm
      · exact hk hx2.symm
      · exact r2 (List.mem_map.2 ⟨x, hx, hx2⟩)
    · rw [hp, mem_parkLane] at hx
      rcases hx with rfl | hx
      · exact hc
      · exact hs.idle _ (dropLane_sub hx)
    · rw [hp, length_park, length_drop hl]
    · simp only [State.laneAt, hsel, hp]
      by_cases e : j = k
      · subst e
        rw [if_pos rfl, if_neg hk, hl]
      · rw [if_neg e, findLane_park apart]
        by_cases e2 : j = s.sel
        · rw [if_pos e2, if_pos e2]
        · rw [if_neg e2, if_neg e2, findLane_drop e]

/-! ### Refusal marks -/

@[simp] theorem State.refuse_params (k : Nat) (r : Refusal) (s : State) : (s.refuse k r).params = s.params := rfl
@[simp] theorem State.refuse_sel (k : Nat) (r : Refusal) (s : State) : (s.refuse k r).sel = s.sel := rfl
@[simp] theorem State.refuse_lane (k : Nat) (r : Refusal) (s : State) : (s.refuse k r).lane = s.lane := rfl
@[simp] theorem State.refuse_parked (k : Nat) (r : Refusal) (s : State) : (s.refuse k r).parked = s.parked := rfl
@[simp] theorem State.refuse_inbox (k : Nat) (r : Refusal) (s : State) : (s.refuse k r).inbox = s.inbox := rfl
@[simp] theorem State.refuse_reply (k : Nat) (r : Refusal) (s : State) : (s.refuse k r).reply = none := rfl
@[simp] theorem State.refuse_refusals (k : Nat) (r : Refusal) (s : State) :
    (s.refuse k r).refusals = s.refusals ++ [(k, r)] := rfl
@[simp] theorem State.refuse_free (k : Nat) (r : Refusal) (s : State) : (s.refuse k r).free = s.free := rfl
@[simp] theorem State.refuse_laneAt (j k : Nat) (r : Refusal) (s : State) : (s.refuse k r).laneAt j = s.laneAt j := rfl

@[simp] theorem recordRefusal_next (s t : State) : recordRefusal s (.next t) = .next t := rfl
@[simp] theorem recordRefusal_refused (s : State) (r : Refusal) :
    recordRefusal s (.refused r) = .next (s.refuse s.sel r) := rfl

/-! ### Events -/

/-- A reset of the lane keeps the mark of a model fault and every other state is that of reset (R270). -/
@[simp] theorem Lane.restart_fault (l : Lane) : l.restart.fault = l.fault := rfl

theorem Lane.restart_issued (l : Lane) : l.restart.issued = none := Lane.issued_none rfl

theorem Lane.restart_running {l : Lane} (h : l.fault = none) : l.restart = Lane.reset := by
  simp only [Lane.restart, h]
  rfl

/-- What an event can do to the lane it names: nothing (a read, or a response that completes nothing), a write to a
register or to a byte of `IBUF` that has its effect or is dropped (R69), a response (R170 to R172), a reset (R270). -/
inductive Effect (pr : Params) (l : Lane) : Lane → Prop where
  | kept : Effect pr l l
  | reg (off : Nat) (v : Word) : Effect pr l (unlessBusy (fun x => writeReg x off v) l)
  | byte (off : Nat) (v : Byte) : off < pr.ibufCap.val →
      Effect pr l (unlessBusy (fun x => { x with ibuf := Mem.write x.ibuf off v }) l)
  | response (r : CryptoResp) : Effect pr l (cryptoResponse pr r l)
  | reset : Effect pr l l.restart

/-- No event clears the mark of a model fault (R11). -/
theorem Effect.fault {pr : Params} {l l' : Lane} (h : Effect pr l l') : l'.fault = l.fault := by
  cases h with
  | kept => rfl
  | reg off v => unfold unlessBusy writeReg; split <;> [rfl; (split <;> rfl)]
  | byte off v _ => unfold unlessBusy; split <;> rfl
  | response r =>
    rcases cryptoResponse_cases pr r l with ⟨h, -⟩ | ⟨-, ⟨-, h⟩ | ⟨_, -, -, h⟩ | ⟨_, -, -, h⟩⟩ <;> rw [h] <;> rfl
  | reset => rfl

/-- All that a host access can do (R66 to R70). -/
theorem hostAccess_next {a : Access} {s t : State} (h : hostAccess a s = .next t) :
    ∃ l r n, t = { s with lane := l, reply := r, free := n } ∧ Effect s.params s.lane l := by
  have keep : ∀ {v : Word}, hostRead v s = .next t →
      ∃ l r n, t = { s with lane := l, reply := r, free := n } ∧ Effect s.params s.lane l := by
    intro v hv; cases hv; exact ⟨s.lane, _, s.free, rfl, .kept⟩
  have keepFree : ∀ {v : Nat → Word}, hostReadFree v s = .next t →
      ∃ l r n, t = { s with lane := l, reply := r, free := n } ∧ Effect s.params s.lane l := by
    intro v hv; cases hv; exact ⟨s.lane, _, _, rfl, .kept⟩
  have ack : ∀ {i : Nat} {w : AckWord}, hostAccess.ackRead s i w = .next t →
      ∃ l r n, t = { s with lane := l, reply := r, free := n } ∧ Effect s.params s.lane l := by
    intro i w hv
    unfold hostAccess.ackRead at hv
    split at hv
    · split at hv
      · exact keep hv
      · exact keepFree hv
    · exact keepFree hv
  cases a with
  | regRead off width =>
    simp only [hostAccess] at h
    split at h
    · simp at h
    · split at h
      · simp at h
      · exact keep h
  | regWrite off width v =>
    simp only [hostAccess] at h
    split at h
    · simp at h
    · split at h
      · simp at h
      · cases h
        exact ⟨_, s.reply, s.free, rfl, .reg off v⟩
  | ibufRead off width =>
    simp only [hostAccess] at h
    split at h
    · simp at h
    · split at h
      · simp at h
      · split at h
        · exact keep h
        · exact keepFree h
  | ibufWrite off width v =>
    simp only [hostAccess] at h
    split at h
    · simp at h
    · split at h
      · simp at h
      · cases h
        exact ⟨_, s.reply, s.free, rfl, .byte off v (by omega)⟩
  | pbufRead off width =>
    simp only [hostAccess] at h
    split at h
    · simp at h
    · split at h
      · simp at h
      · split at h
        · split at h
          · exact keep h
          · exact keepFree h
        · exact keepFree h
  | pbufWrite off width v => simp [hostAccess] at h
  | ackrRead idx word width =>
    simp only [hostAccess] at h
    split at h
    · simp at h
    · split at h
      · exact ack h
      · split at h
        · simp at h
        · exact ack h
  | ackrWrite idx word v => simp [hostAccess] at h

/-- No host access is a model fault (R66 to R70). -/
theorem hostAccess_ne_fault (a : Access) (s : State) (f : Fault) : hostAccess a s ≠ .fault f := by
  unfold hostAccess hostAccess.ackRead
  cases a <;> simp only [hostRead, hostReadFree, hostWrite] <;> repeat' split
  all_goals simp

/-- All that an event's action can do (R71): its effect on the lane in focus, and at most one refusal mark more. -/
theorem deliverAction_next {a : Action} {s t : State} (h : deliverAction a s = .next t) :
    ∃ l r n more, t = { s with lane := l, reply := r, refusals := s.refusals ++ more, free := n } ∧
      Effect s.params s.lane l := by
  cases a with
  | host a =>
    simp only [deliverAction] at h
    cases ha : hostAccess a s with
    | next u =>
      rw [ha] at h
      cases h
      obtain ⟨l, r, n, ht, he⟩ := hostAccess_next ha
      exact ⟨l, r, n, [], by simpa using ht, he⟩
    | fault f => exact absurd ha (hostAccess_ne_fault a s f)
    | refused r =>
      rw [ha] at h
      cases h
      exact ⟨s.lane, none, s.free, _, rfl, .kept⟩
  | crypto r => cases h; exact ⟨_, s.reply, s.free, [], by simp, .response r⟩
  | reset => cases h; exact ⟨_, s.reply, s.free, [], by simp, .reset⟩

/-- Every action of the environment answers a next state: what is refused leaves a mark (R11, R70). -/
theorem deliverAction_total (a : Action) (s : State) : ∃ t, deliverAction a s = .next t := by
  cases a with
  | host a =>
    simp only [deliverAction]
    cases ha : hostAccess a s with
    | next u => exact ⟨u, rfl⟩
    | fault f => exact absurd ha (hostAccess_ne_fault a s f)
    | refused r => exact ⟨_, rfl⟩
  | crypto r => exact ⟨_, rfl⟩
  | reset => exact ⟨_, rfl⟩

/-- All that one step can do (R11, R64, R68, R71). -/
theorem step_next {s t : State} (h : step s = .next t) :
    (∃ w, s.lane.issued = some w ∧ (exec (decodeCommand w) s = .next t ∨
      ∃ f, exec (decodeCommand w) s = .fault f ∧ t = { s with lane := s.lane.stopped f })) ∨
    (s.lane.issued = none ∧ s.inbox = [] ∧ t = s) ∨
    (∃ e rest, s.lane.issued = none ∧ s.inbox = e :: rest ∧ focus e.lane { s with inbox := rest } = none ∧
      t = State.refuse e.lane (.noSuchLane e.lane) { s with inbox := rest }) ∨
    (∃ e rest s' l r n more, s.lane.issued = none ∧ s.inbox = e :: rest ∧
      focus e.lane { s with inbox := rest } = some s' ∧
      t = { s' with lane := l, reply := r, refusals := s'.refusals ++ more, free := n } ∧
      Effect s'.params s'.lane l) := by
  unfold step fetch at h
  cases hc : s.lane.issued with
  | some w =>
    rw [hc] at h
    exact .inl ⟨w, rfl, recordFault_next h⟩
  | none =>
    rw [hc] at h
    simp only [Option.map_none, waitStep] at h
    split at h
    · rename_i hi
      cases h
      exact .inr (.inl ⟨rfl, hi, rfl⟩)
    · rename_i e rest hi
      unfold deliver at h
      split at h
      · rename_i hf
        cases h
        exact .inr (.inr (.inl ⟨e, rest, rfl, hi, hf, rfl⟩))
      · rename_i s' hf
        obtain ⟨l, r, n, more, ht, he⟩ := deliverAction_next h
        exact .inr (.inr (.inr ⟨e, rest, s', l, r, n, more, rfl, hi, hf, ht, he⟩))

/-- A property of lanes that every issued instruction, the stop by a model fault and every effect of an event keep,
every step keeps of every lane. -/
theorem step_everyLane {P : Params → Lane → Prop}
    (hx : ∀ (w : Word) (s t : State), P s.params s.lane → s.lane.issued = some w →
      exec (decodeCommand w) s = .next t → P s.params t.lane)
    (hf : ∀ (pr : Params) (l : Lane) (w : Word) (f : Fault), P pr l → l.issued = some w → P pr (l.stopped f))
    (he : ∀ (pr : Params) (l l' : Lane), P pr l → Effect pr l l' → P pr l')
    {s t : State} (hs : EveryLane (P s.params) s) (h : step s = .next t) : EveryLane (P t.params) t := by
  rcases step_next h with ⟨w, hw, h | ⟨f, -, rfl⟩⟩ | ⟨-, -, rfl⟩ | ⟨e, rest, -, -, -, rfl⟩ |
    ⟨e, rest, s', l, r, n, more, -, -, hfo, rfl, hl⟩
  · have hp := hx _ _ _ hs.1 hw h
    rw [exec_frame h]
    exact ⟨hp, hs.2⟩
  · exact ⟨hf _ _ _ f hs.1 hw, hs.2⟩
  · exact hs
  · exact hs
  · have hs' : EveryLane (P s.params) s' := focus_everyLane hfo hs
    obtain ⟨-, hpar, -⟩ := focus_some hfo
    have hpar : s'.params = s.params := hpar
    simp only [hpar] at hl ⊢
    exact ⟨he _ _ _ hs'.1 hl, hs'.2⟩

/-- Every step answers a next state: a model fault stops its lane, a refused access leaves its mark, and the block goes
on (R11, R70, R252). -/
theorem step_total (s : State) : ∃ t, step s = .next t := by
  unfold step
  split
  · rename_i i _
    cases hx : exec i s with
    | next t => exact ⟨t, rfl⟩
    | fault f => exact ⟨_, rfl⟩
    | refused r => exact absurd hx (exec_not_refused i s r)
  · unfold waitStep
    split
    · exact ⟨s, rfl⟩
    · unfold deliver
      split
      · exact ⟨_, rfl⟩
      · exact deliverAction_total _ _

end Sys2Proof.Machine
end

