-- ==== Sys2Proof/Tests/Slice0.lean ====
section
/-! SUPPORT. The tests: refused ill-formed terms, words written out from the spec's encodings, single steps whose
expected results are vectors of 95_test_vectors.md (the name or the docstring gives the vector), and for every
obligation with hypotheses, states and operands that meet them. -/

namespace Sys2Proof.Tests
open Sys2Proof Sys2Proof.Machine

-- One theorem at a time: each kernel evaluation would otherwise hold a thread and its stack.
set_option Elab.async false

/-! ### Helpers -/

/-- `load 0: bs` from reset (R113): the bytes in `IBUF` from 0, `ILEN` their number, `CUR` 0. -/
def loaded (bs : List Byte) : State :=
  { State.reset with lane := { Lane.reset with
      ibuf := Mem.writeAll [] 0 bs, ilen := BitVec.ofNat 64 bs.length } }

/-- A state with its lane changed. -/
def State.with (s : State) (f : Lane → Lane) : State := { s with lane := f s.lane }

/-- The lane after `FSEQ_BEGIN` over the loaded bytes, at position `p`, with an `FSEQ_NEXT` issued. -/
def sequenced (bs : List Byte) (p : Nat) : State :=
  State.with (loaded bs) fun l =>
    { l with cmd := some 0x08, fbuf := .ibuf, fcur := BitVec.ofNat 32 p, fend := BitVec.ofNat 32 bs.length,
             fstate := .active, st := .done }

/-- What the lane shows after an instruction that answers a next state. -/
def ran {α : Type} (i : Instr) (s : State) (f : Lane → α) : Option α :=
  match exec i s with
  | .next t => some (f t.lane)
  | .fault _ => none
  | .refused _ => none

/-- What the state shows after a step that answers a next state. -/
def stepped {α : Type} (s : State) (f : State → α) : Option α :=
  match step s with
  | .next t => some (f t)
  | .fault _ => none
  | .refused _ => none

/-- The inbox holds one action on the lane in focus. -/
def pending (a : Action) (s : State) : State := { s with inbox := [{ lane := s.sel, act := a }] }

/-- The lane after `PKT_PARSE` on V-H-20, `[40 00 05 C0]`: `BUSY` with request 1 outstanding. -/
def busy : State :=
  State.with (loaded [0x40, 0x00, 0x05, 0xC0]) fun l =>
    let k := { Pkt.zero with kind := .oneRtt, byte0 := 0x40, pn := 5, pnLen := 1, hdrEnd := 3 }
    { l with
      st := .busy, lastCmd := 0x05, creqId := 1, creqOut := 1,
      pend := some { pkt := k, pay := ⟨.ibuf, 3, 1⟩ }, pendLim := 4,
      creq := some { id := 1, epoch := .oneRtt, dcid := Cid.zero, version := 0, isServer := 0, keyPhase := 0, pn := 5,
                     pnLen := 1, hdr := { sel := .ibuf, start := 0, len := 3 },
                     ct := { sel := .ibuf, start := 3, len := 1 } } }

/-- What the decoder reads from the bytes. -/
def reads (sp : Space) (bs : List Byte) : Option (Instr × List Byte) := (decode sp bs).toOption

/-- Why the decoder refuses the bytes. -/
def rejects (sp : Space) (bs : List Byte) : Option DecodeError :=
  match decode sp bs with
  | .ok _ => none
  | .error e => some e

/-! ### WellFormed: each check refuses an ill-formed term -/

theorem test_wellFormed_initial_version : (Instr.pktInitial 1 0 0 0).wellFormed = false := by decide +kernel
theorem test_wellFormed_zeroRtt_version : (Instr.pktZeroRtt 1 0 0 0).wellFormed = false := by decide +kernel
theorem test_wellFormed_handshake_version : (Instr.pktHandshake 1 0 0 0).wellFormed = false := by decide +kernel
theorem test_wellFormed_retry_version : (Instr.pktRetry 1 0 0 0).wellFormed = false := by decide +kernel
theorem test_wellFormed_unknown_known_type : (Instr.frmUnknown 0x1e).wellFormed = false := by decide +kernel

/-! ### Decoding: words written out from R110, R94, R95, R99 and R101 -/

theorem test_decode_nop : reads .command [0x00] = some (.nop, []) := by decide +kernel
theorem test_decode_varintDec : reads .command [0x01] = some (.varintDec, []) := by decide +kernel
theorem test_decode_varintEnc : reads .command [0x02] = some (.varintEnc, []) := by decide +kernel
theorem test_decode_cidDec : reads .command [0x03] = some (.cidDec, []) := by decide +kernel
theorem test_decode_pnDec : reads .command [0x04] = some (.pnDec, []) := by decide +kernel
theorem test_decode_pktParse : reads .command [0x05] = some (.pktParse, []) := by decide +kernel
theorem test_decode_frmOne : reads .command [0x06] = some (.frmOne, []) := by decide +kernel
theorem test_decode_fseqBegin : reads .command [0x07] = some (.fseqBegin, []) := by decide +kernel
theorem test_decode_fseqNext : reads .command [0x08] = some (.fseqNext, []) := by decide +kernel
theorem test_decode_clear : reads .command [0x09] = some (.clear, []) := by decide +kernel
/-- 0b0000101_1. -/
theorem test_decode_reserved0A : reads .command [0x0B] = some (.reserved0A 1, []) := by decide +kernel
/-- 0b000011_10. -/
theorem test_decode_reserved0C : reads .command [0x0E] = some (.reserved0C 2, []) := by decide +kernel
/-- 0b0001_0001. -/
theorem test_decode_reserved10 : reads .command [0x11] = some (.reserved10 1, []) := by decide +kernel
/-- 0b001_11111. -/
theorem test_decode_reserved20 : reads .command [0x3F] = some (.reserved20 31, []) := by decide +kernel
/-- 0b01_000000. -/
theorem test_decode_reserved40 : reads .command [0x40] = some (.reserved40 0, []) := by decide +kernel
/-- 0b1_1111111. -/
theorem test_decode_reserved80 : reads .command [0xFF] = some (.reserved80 127, []) := by decide +kernel
/-- 0b0_0_1_10_1_01: fixed 0, spin 1, reserved 10, key phase 1, width bits 01. -/
theorem test_decode_oneRtt : reads .header [0x35, 0x00] = some (.pktOneRtt 0 1 2 1 1, [0x00]) := by decide +kernel
/-- 0b1_0110011 and the version 0: the type bits 11 do not count. -/
theorem test_decode_versionNegotiation :
    reads .header [0xB3, 0, 0, 0, 0, 0x55] = some (.pktVersionNegotiation 0x33, [0x55]) := by decide +kernel
/-- 0b1_1_00_10_01 and the version 0x00000102. -/
theorem test_decode_initial : reads .header [0xC9, 0, 0, 1, 2] = some (.pktInitial 1 2 1 0x102, []) := by decide +kernel
/-- 0b1_0_01_00_11 and the version 1: the fixed bit is not checked. -/
theorem test_decode_zeroRtt : reads .header [0x93, 0, 0, 0, 1] = some (.pktZeroRtt 0 0 3 1, []) := by decide +kernel
/-- 0b1_1_10_01_00 and the version 0xFF000000. -/
theorem test_decode_handshake :
    reads .header [0xE4, 0xFF, 0, 0, 0] = some (.pktHandshake 1 1 0 0xFF000000, []) := by decide +kernel
/-- 0b1_1_11_00_10 and the version 1. -/
theorem test_decode_retry : reads .header [0xF2, 0, 0, 0, 1] = some (.pktRetry 1 0 2 1, []) := by decide +kernel
theorem test_decode_padding : reads .frame [0x00, 0x01] = some (.frmPadding, [0x01]) := by decide +kernel
/-- V-F-3: the type 1 in two bytes. -/
theorem test_decode_ping : reads .frame [0x40, 0x01] = some (.frmPing, []) := by decide +kernel
theorem test_decode_ack : reads .frame [0x02] = some (.frmAck, []) := by decide +kernel
theorem test_decode_ackEcn : reads .frame [0x03] = some (.frmAckEcn, []) := by decide +kernel
theorem test_decode_resetStream : reads .frame [0x04] = some (.frmResetStream, []) := by decide +kernel
theorem test_decode_stopSending : reads .frame [0x05] = some (.frmStopSending, []) := by decide +kernel
theorem test_decode_crypto : reads .frame [0x06] = some (.frmCrypto, []) := by decide +kernel
theorem test_decode_newToken : reads .frame [0x07] = some (.frmNewToken, []) := by decide +kernel
/-- 0b00001_0_1_1: no OFF, LEN, FIN. -/
theorem test_decode_stream_len_fin : reads .frame [0x0B] = some (.frmStream 0 1 1, []) := by decide +kernel
/-- 0b00001_1_0_0: OFF, no LEN, no FIN. -/
theorem test_decode_stream_off : reads .frame [0x0C] = some (.frmStream 1 0 0, []) := by decide +kernel
theorem test_decode_maxData : reads .frame [0x10] = some (.frmMaxData, []) := by decide +kernel
theorem test_decode_maxStreamData : reads .frame [0x11] = some (.frmMaxStreamData, []) := by decide +kernel
theorem test_decode_maxStreams : reads .frame [0x13] = some (.frmMaxStreams 1, []) := by decide +kernel
theorem test_decode_dataBlocked : reads .frame [0x14] = some (.frmDataBlocked, []) := by decide +kernel
theorem test_decode_streamDataBlocked : reads .frame [0x15] = some (.frmStreamDataBlocked, []) := by decide +kernel
theorem test_decode_streamsBlocked : reads .frame [0x16] = some (.frmStreamsBlocked 0, []) := by decide +kernel
theorem test_decode_newConnectionId : reads .frame [0x18] = some (.frmNewConnectionId, []) := by decide +kernel
theorem test_decode_retireConnectionId : reads .frame [0x19] = some (.frmRetireConnectionId, []) := by decide +kernel
theorem test_decode_pathChallenge : reads .frame [0x1A] = some (.frmPathChallenge, []) := by decide +kernel
theorem test_decode_pathResponse : reads .frame [0x1B] = some (.frmPathResponse, []) := by decide +kernel
theorem test_decode_connectionCloseQuic : reads .frame [0x1C] = some (.frmConnectionCloseQuic, []) := by decide +kernel
theorem test_decode_connectionCloseApp : reads .frame [0x1D] = some (.frmConnectionCloseApp, []) := by decide +kernel
theorem test_decode_handshakeDone : reads .frame [0x1E] = some (.frmHandshakeDone, []) := by decide +kernel
/-- V-F-53: the type 2^62 - 1. -/
theorem test_decode_unknown :
    reads .frame [0xFF, 0xFF, 0xFF, 0xFF, 0xFF, 0xFF, 0xFF, 0xFF] = some (.frmUnknown 0x3FFFFFFFFFFFFFFF, []) := by
  decide +kernel

theorem test_decode_refuses_no_opcode : rejects .command [] = some .noOpcode := by decide +kernel
theorem test_decode_refuses_no_header : rejects .header [] = some .noHeader := by decide +kernel
/-- V-H-27: three version bytes of four. -/
theorem test_decode_refuses_short_version : rejects .header [0xC0, 0, 0, 0] = some .shortVersion := by decide +kernel
/-- V-F-55: one byte of an eight-byte type. -/
theorem test_decode_refuses_short_type : rejects .frame [0xFF] = some .shortType := by decide +kernel

/-- The opcodes of R110 and the reserved ranges are the 256 bytes, each in the row its value says. -/
theorem test_every_opcode_encodes_back :
    ∀ n < 256, encode (decodeOpcode (BitVec.ofNat 8 n)) = [BitVec.ofNat 8 n] := by decide +kernel

/-- Table words: an opcode, and a frame type as the table numbers it. -/
theorem test_decodeTableWord_opcode : decodeTableWord 8 0x05 = some .pktParse := by decide +kernel
theorem test_decodeTableWord_frame : decodeTableWord 64 0x1A = some .frmPathChallenge := by decide +kernel

/-- `step` runs the placed word as the first command after reset. -/
theorem test_withFetchWord_opcode :
    stepped (State.reset.withFetchWord 8 0x07) (fun t => (t.lane.lastCmd, t.lane.fstate)) =
      some (0x07, FState.active) := by decide +kernel
theorem test_withFetchWord_frame :
    stepped (State.reset.withFetchWord 64 0x10) (fun t => (t.lane.frm.kind, t.lane.cur)) =
      some (FrmKind.maxData, 9) := by decide +kernel

/-! ### Codes -/

/-- The subcode table of R242, row by row: `KIND` and `SUB`. -/
theorem test_error_codes :
    [ErrCause.varintEof, .cidLenEof, .cidTooLong, .cidEof, .pnEof, .hdrEof, .versionEof, .tokenTooLong, .retryTooShort,
      .vnTrailer, .fixedEof, .dataEof, .unknownFrameType, .decryptFailed, .ackRanges, .plaintext, .unknownCmd, .badArg,
      .wrongState, .badCursor].map (fun c => (c.kind, c.sub)) =
    [(1, 1), (1, 2), (1, 3), (1, 4), (1, 5), (1, 6), (1, 7), (1, 8), (1, 9), (1, 10), (1, 11), (1, 12), (2, 1), (3, 1),
      (4, 1), (4, 2), (5, 1), (5, 2), (5, 3), (5, 4)] := by decide +kernel

/-! ### Codec and control commands -/

/-- V-K-1: `NOP` keeps `ST` and `ERR`. -/
theorem test_nop_keeps_error :
    ran .nop (State.with (loaded []) fun l => { l with st := .error, err := .raised .varintEof 0 .ibuf })
      (fun l => (statusWord l, errWord l.err)) = some (0x3, 0x1000000000101) := by decide +kernel

/-- V-VD-3. -/
theorem test_varintDec_four_bytes :
    ran .varintDec (loaded [0xA5, 0x12, 0x34, 0x56, 0x78]) (fun l => (l.rval, l.cur)) = some (0x25123456, 4) := by
  decide +kernel

/-- V-VD-8: seven of eight bytes. -/
theorem test_varintDec_short :
    ran .varintDec (loaded [0xC0, 0, 0, 0, 0, 0, 0]) (fun l => (l.err, l.rval)) =
      some (.raised .varintEof 0 .ibuf, 0) := by decide +kernel

/-- V-VE-9. -/
theorem test_varintEnc_minimal :
    ran .varintEnc (State.with (loaded []) fun l => { l with arg0 := 0x2534 }) (fun l => (l.obuf, l.olen)) =
      some ([0x65, 0x34, 0, 0, 0, 0, 0, 0], 2) := by decide +kernel

/-- V-VE-15: 64 in one byte. -/
theorem test_varintEnc_class_too_small :
    ran .varintEnc (State.with (loaded []) fun l => { l with arg0 := 64, arg1 := 1 }) (fun l => (l.err, l.olen)) =
      some (.raised .badArg 0 .none, 0) := by decide +kernel

/-- V-C-1. -/
theorem test_cidDec_one_byte :
    ran .cidDec (loaded [0x01, 0x12, 0x34]) (fun l => (l.rcid.len, l.rcid.b.take 2, l.cur)) =
      some (1, [0x12, 0x00], 2) := by decide +kernel

/-- V-C-6: 21 is too long although 21 bytes follow. -/
theorem test_cidDec_too_long :
    ran .cidDec (loaded (0x15 :: List.replicate 21 0)) (fun l => (l.err, l.cur)) =
      some (.raised .cidTooLong 0 .ibuf, 0) := by decide +kernel

/-- V-PN-4. -/
theorem test_pnDec_three_bytes :
    ran .pnDec (State.with (loaded [0x00, 0x00, 0x01]) fun l => { l with arg0 := 3 }) (fun l => (l.rval, l.cur)) =
      some (1, 3) := by decide +kernel

/-- V-PN-7: width 5. -/
theorem test_pnDec_bad_width :
    ran .pnDec (State.with (loaded [0xAB, 0xCD]) fun l => { l with arg0 := 5 }) (fun l => (l.err, l.cur)) =
      some (.raised .badArg 0 .ibuf, 0) := by decide +kernel

/-- V-K-9: `CLEAR` with results, `WDROP` and a sequence standing. -/
theorem test_clear :
    ran .clear (State.with (sequenced [0x01] 0) fun l => { l with wdrop := 1, fres := .frame, rval := 7 })
      (fun l => (statusWord l, l.rval, l.ilen)) = some (0x90000, 0, 1) := by decide +kernel

/-- V-K-2. -/
theorem test_reserved0A : ran (.reserved0A 0) (loaded []) (fun l => errWord l.err) = some 0x105 := by decide +kernel
theorem test_reserved0C : ran (.reserved0C 3) (loaded []) (fun l => statusWord l) = some 0x0F0003 := by decide +kernel
theorem test_reserved10 : ran (.reserved10 0) (loaded []) (fun l => statusWord l) = some 0x100003 := by decide +kernel
theorem test_reserved20 : ran (.reserved20 0) (loaded []) (fun l => statusWord l) = some 0x200003 := by decide +kernel
theorem test_reserved40 : ran (.reserved40 0) (loaded []) (fun l => statusWord l) = some 0x400003 := by decide +kernel
/-- V-K-3. -/
theorem test_reserved80 : ran (.reserved80 127) (loaded []) (fun l => statusWord l) = some 0xFF0003 := by decide +kernel

/-! ### Packet headers -/

/-- V-H-1, the document's Initial packet. -/
def initialBytes : List Byte :=
  [0xC1, 0, 0, 0, 1, 0x04, 0x11, 0x22, 0x33, 0x44, 0x02, 0x55, 0x66, 0x01, 0xAB, 0x05, 0x00, 0x07, 0xE1, 0xE2, 0xE3]

/-- V-H-11, a Retry packet with a token of two bytes. -/
def retryBytes : List Byte :=
  [0xF0, 0, 0, 0, 1, 0, 0, 0xAA, 0xBB, 0x00, 0x01, 0x02, 0x03, 0x04, 0x05, 0x06, 0x07, 0x08, 0x09, 0x0A, 0x0B, 0x0C,
    0x0D, 0x0E, 0x0F]

/-- P1 step 6: the lane is `BUSY`, request 1 is out, nothing is visible. -/
theorem test_pktParse_busy :
    ran .pktParse (loaded initialBytes) (fun l => (statusWord l, creqWord l, pktInfoWord l.pkt)) =
      some (0x50001, 0x101, 0) := by decide +kernel

/-- P5 step 2. -/
theorem test_pktParse_error :
    ran .pktParse (loaded [0x80, 0, 0, 0, 0, 1, 0x55, 0, 0, 0, 0, 1, 0xFF, 0xFF]) (fun l => (statusWord l, errWord l.err)) =
      some (0x50003, 0x10000000C0A01) := by decide +kernel

/-- P1 step 7: the request names the header and the three bytes after the packet number. -/
theorem test_initial_request :
    ran (.pktInitial 1 0 1 1) (loaded initialBytes) (fun l => l.creq.map fun r => (r.hdr, r.ct, r.pn, r.pnLen)) =
      some (some (⟨.ibuf, 0, 18⟩, ⟨.ibuf, 18, 3⟩, 7, 2)) := by decide +kernel

/-- V-H-4. -/
theorem test_initial_token_too_long :
    ran (.pktInitial 1 0 0 1) (loaded [0xC0, 0, 0, 0, 1, 0, 0, 5, 0xAA]) (fun l => l.err) =
      some (.raised .tokenTooLong 8 .ibuf) := by decide +kernel

/-- V-H-8. -/
theorem test_zeroRtt :
    ran (.pktZeroRtt 1 0 0 1) (loaded [0xD0, 0, 0, 0, 1, 0, 0, 5, 7, 0xAA])
      (fun l => (l.pend.map fun k => (k.pkt.length, k.pkt.pn, k.pkt.hdrEnd), l.creq.map fun r => r.epoch)) =
      some (some (5, 7, 9), some .zeroRtt) := by decide +kernel

/-- V-H-9. -/
theorem test_handshake :
    ran (.pktHandshake 1 0 1 1) (loaded [0xE1, 0, 0, 0, 1, 0, 0, 2, 1, 2])
      (fun l => (l.pend.map fun k => (k.pkt.length, k.pkt.pn, k.pkt.hdrEnd), l.creq.map fun r => r.epoch)) =
      some (some (2, 0x0102, 10), some .handshake) := by decide +kernel

/-- V-H-10. -/
theorem test_handshake_short_pn :
    ran (.pktHandshake 1 0 1 1) (loaded [0xE1, 0, 0, 0, 1, 0, 0, 2, 1]) (fun l => l.err) =
      some (.raised .pnEof 8 .ibuf) := by decide +kernel

/-- P4. -/
theorem test_retry :
    ran (.pktRetry 1 0 0 1) (loaded retryBytes)
      (fun l => (statusWord l, pktInfoWord l.pkt, l.pkt.tag, spanWord l.pkt.token.start l.pkt.token.len)) =
      some (0x5000A, 0xF0000D, 0x000102030405060708090A0B0C0D0E0F, 0x200000007) := by decide +kernel

/-- V-H-13: one byte short of a tag. -/
theorem test_retry_short :
    ran (.pktRetry 1 0 0 1) (loaded ([0xF0, 0, 0, 0, 1, 0, 0] ++ List.replicate 15 0)) (fun l => l.err) =
      some (.raised .retryTooShort 7 .ibuf) := by decide +kernel

/-- V-H-16: the type bits of Retry, overridden by the version 0. -/
theorem test_versionNegotiation :
    ran (.pktVersionNegotiation 0x33) (loaded [0xB3, 0, 0, 0, 0, 0, 0, 0xFF, 0, 0, 1, 0, 0, 0, 2])
      (fun l => (l.pkt.kind, l.pkt.vnlist, l.cur)) = some (.vn, ⟨7, 2⟩, 15) := by decide +kernel

/-- V-H-17. -/
theorem test_versionNegotiation_trailer :
    ran (.pktVersionNegotiation 0) (loaded [0x80, 0, 0, 0, 0, 1, 0x55, 0, 0, 0, 0, 1, 0xFF, 0xFF]) (fun l => l.err) =
      some (.raised .vnTrailer 12 .ibuf) := by decide +kernel

/-- V-H-19. -/
theorem test_oneRtt :
    ran (.pktOneRtt 1 0 0 1 3) (loaded [0x47, 1, 0xAA, 0, 0, 1, 0, 0xBB])
      (fun l => (l.pend.map fun k => (k.pkt.keyPhase, k.pkt.pn), l.creq.map fun r => (r.version, r.ct))) =
      some (some (1, 0x100), some (0, ⟨.ibuf, 7, 1⟩)) := by decide +kernel

/-- V-H-24. -/
theorem test_oneRtt_cid_too_long :
    ran (.pktOneRtt 1 0 0 0 1) (loaded (0x41 :: 0x15 :: List.replicate 21 0)) (fun l => l.err) =
      some (.raised .cidTooLong 1 .ibuf) := by decide +kernel

/-! ### Completion, host interface -/

/-- V-H-31, P6 step 4. -/
theorem test_completion_err :
    stepped (pending (.crypto { id := 1, pt := none }) busy)
      (fun t => (errWord t.lane.err, creqWord t.lane, t.lane.cur)) = some (0x1000000030103, 0x001, 0) := by
  decide +kernel

/-- V-H-32: 17 bytes of plaintext and `PBUF_CAP` 16. -/
theorem test_completion_capacity :
    stepped (pending (.crypto { id := 1, pt := some (List.replicate 17 0) })
        { busy with params := { Config.chosen with pbufCap := 16 } })
      (fun t => (t.lane.err, t.lane.pbufLen, t.lane.fstate)) =
      some (.raised .plaintext 3 .ibuf, 0, .inactive) := by decide +kernel

/-- V-H-33: another tag. -/
theorem test_completion_other_tag :
    stepped (pending (.crypto { id := 2, pt := some [0x01] }) busy) (fun t => t.lane) = some busy.lane := by
  decide +kernel

/-- V-H-34: an empty plaintext. -/
theorem test_completion_empty :
    stepped (pending (.crypto { id := 1, pt := some [] }) busy)
      (fun t => (statusWord t.lane, t.lane.pkt.kind, t.lane.pay, t.lane.cur)) =
      some (0x50006, .oneRtt, ⟨.pbuf, 0, 0⟩, 4) := by decide +kernel

/-- P6 step 3: a write to `CMD` while `BUSY`. -/
theorem test_busy_write_dropped :
    stepped (pending (.host (.regWrite 0 64 0)) busy) (fun t => (statusWord t.lane, t.lane.cmd)) =
      some (0x50101, none) := by decide +kernel

/-- R11(d), R70: a write to `PBUF` leaves its mark and changes no lane; the next event is taken, and a reset of the lane
keeps the mark. -/
theorem test_refusal_mark_kept :
    (stepped { busy with inbox := [{ lane := 0, act := .host (.pbufWrite 0 8 1) }, { lane := 0, act := .reset }] } id).bind
      (fun t => (stepped t id).map fun u => (t.lane == busy.lane, t.refusals, u.lane.st, u.refusals)) =
    some (true, [(0, .pbufWrite)], .idle, [(0, .pbufWrite)]) := by decide +kernel

/-- V-K-4: only bits 7:0 of `CMD` count. -/
theorem test_command_low_byte : decodeCommand 0x105 = .pktParse := by decide +kernel

/-- Two lanes: `VARINT_DEC` issued on lane 0 over a byte nothing has written, and what comes after it. -/
def unwrittenOnLane0 (events : List Event) : State :=
  { State.with (State.resetWith { Config.chosen with nLanes := 2 }) fun l => { l with cmd := some 0x01, ilen := 1 } with
    inbox := events }

/-- V-K-11: a read of a byte nothing has written stops the lane: the fault is recorded, and no result is written. -/
theorem test_unwritten_read :
    stepped (unwrittenOnLane0 []) (fun t => (t.lane.fault, statusWord t.lane, t.lane.err, t.lane.cmd)) =
      some (some (.unwrittenRead .ibuf 0), 0x10000, .clear, none) := by decide +kernel

/-- R64, R252: after it the other lane takes its events, and the stopped lane does not execute a new command. -/
theorem test_unwritten_read_other_lane :
    (stepped (unwrittenOnLane0 [{ lane := 1, act := .host (.regWrite 0x000 64 0x07) }]) id).bind (fun t =>
      (stepped t id).bind fun u => stepped u fun v =>
        ((v.laneAt 1).map fun l => (l.fstate, l.fault), (v.laneAt 0).map fun l => (l.fault, l.issued))) =
    some (some (.active, none), some (some (.unwrittenRead .ibuf 0), none)) := by decide +kernel

/-- 93 I15: bits 63:32 of `ILEN` and `CUR` hold what the host wrote. -/
theorem test_upper_bits_held :
    stepped (pending (.host (.regWrite 0x010 64 0xFFFFFFFF00000002)) (loaded [])) (fun t => readReg t.lane 0x010) =
      some 0xFFFFFFFF00000002 ∧
    stepped (pending (.host (.regWrite 0x018 64 0x500000001)) (loaded [])) (fun t => readReg t.lane 0x018) =
      some 0x500000001 := by decide +kernel

/-- V-K-6: `ILEN` above `IBUF_CAP`. -/
theorem test_bad_ilen :
    ran .varintDec (State.with State.reset fun l => { l with ilen := 65537 }) (fun l => l.err) =
      some (.raised .badCursor 0 .ibuf) := by decide +kernel

/-! ### Frame commands -/

/-- P8 step 2. -/
theorem test_frmOne_ack :
    ran .frmOne (loaded [0x02, 0x0A, 0x00, 0x02, 0x02, 0x03, 0x04, 0x05, 0x06, 0x01])
      (fun l => (l.frm.kind, l.ackr, l.cur)) = some (.ack, [⟨3, 4⟩, ⟨5, 6⟩], 9) := by decide +kernel

/-- V-K-5. -/
theorem test_frmOne_bad_cursor :
    ran .frmOne (State.with (loaded [0x01, 0x02]) fun l => { l with cur := 3 }) (fun l => errWord l.err) =
      some 0x1000000030405 := by decide +kernel

/-- P2 step 2. -/
theorem test_fseqBegin :
    ran .fseqBegin (loaded [0x00, 0x01]) (fun l => (statusWord l, l.fbuf, l.fcur, l.fend)) =
      some (0x70006, .ibuf, 0, 2) := by decide +kernel

/-- P7 step 4. -/
theorem test_fseqNext_unknown :
    ran .fseqNext (sequenced [0x01, 0x1F, 0x01] 1) (fun l => (errWord l.err, l.fstate, l.fcur)) =
      some (0x1000000010102, .failed, 1) := by decide +kernel

/-- V-S-8. -/
theorem test_fseqNext_inactive :
    ran .fseqNext (loaded []) (fun l => (l.err, l.fres)) = some (.raised .wrongState 0 .none, .error) := by
  decide +kernel

/-! ### Frames -/

/-- V-F-1. -/
theorem test_padding : ran .frmPadding (loaded [0x00]) (fun l => (l.frm.kind, l.cur)) = some (.padding, 1) := by
  decide +kernel
/-- V-F-3. -/
theorem test_ping : ran .frmPing (loaded [0x40, 0x01]) (fun l => (l.frm.kind, l.cur)) = some (.ping, 2) := by
  decide +kernel

/-- V-F-4. -/
theorem test_ack :
    ran .frmAck (loaded [0x02, 0x0A, 0, 1, 2, 3, 4]) (fun l => (l.frm.f0, l.frm.f2, l.frm.f3, l.ackr)) =
      some (10, 1, 2, [⟨3, 4⟩]) := by decide +kernel

/-- V-F-10: the second pair does not fit one entry. -/
theorem test_ack_capacity :
    ran .frmAck { loaded [0x02, 0x0A, 0, 2, 2, 3, 4, 5, 6] with params := { Config.chosen with ackCap := some 1 } }
      (fun l => (l.err, l.ackr)) = some (.raised .ackRanges 7 .ibuf, []) := by decide +kernel

/-- V-F-7. -/
theorem test_ackEcn :
    ran .frmAckEcn (loaded [0x03, 5, 1, 0, 0, 7, 8, 9]) (fun l => (l.frm.f4, l.frm.f5, l.frm.f6, l.frm.ecnP)) =
      some (7, 8, 9, 1) := by decide +kernel

/-- V-F-8. -/
theorem test_ackEcn_short :
    ran .frmAckEcn (loaded [0x03, 5, 1, 0, 0, 7, 8]) (fun l => l.err) = some (.raised .varintEof 7 .ibuf) := by
  decide +kernel

/-- V-F-13. -/
theorem test_resetStream :
    ran .frmResetStream (loaded [0x04, 1, 2, 3]) (fun l => (l.frm.f0, l.frm.f1, l.frm.f2)) = some (1, 2, 3) := by
  decide +kernel

/-- V-F-14. -/
theorem test_stopSending :
    ran .frmStopSending (loaded [0x05, 4, 0x40, 0x10]) (fun l => (l.frm.f0, l.frm.f1)) = some (4, 16) := by
  decide +kernel

/-- V-F-15. -/
theorem test_stopSending_short :
    ran .frmStopSending (loaded [0x05, 1]) (fun l => l.err) = some (.raised .varintEof 2 .ibuf) := by decide +kernel

/-- V-F-16. -/
theorem test_crypto :
    ran .frmCrypto (loaded [0x06, 2, 1, 0x0A, 0x0B, 0x0C]) (fun l => (l.frm.data, l.cur)) =
      some (⟨.ibuf, 5, 1⟩, 6) := by decide +kernel

/-- V-F-18 under `IMMEDIATE`. -/
theorem test_crypto_immediate :
    ran .frmCrypto
      { loaded [0x06, 2, 2, 0x0A, 0x0B, 0x0C] with params := { Config.chosen with layout := .immediate } }
      (fun l => (l.frm.data, l.cur)) = some (⟨.ibuf, 3, 2⟩, 5) := by decide +kernel

/-- V-F-20. -/
theorem test_newToken :
    ran .frmNewToken (loaded [0x07, 2, 0xAA, 0xBB]) (fun l => (l.frm.f0, l.frm.data)) =
      some (2, ⟨.ibuf, 2, 2⟩) := by decide +kernel

/-- V-F-21. -/
theorem test_newToken_short :
    ran .frmNewToken (loaded [0x07, 3, 0xAA, 0xBB]) (fun l => l.err) = some (.raised .dataEof 2 .ibuf) := by
  decide +kernel

/-- V-F-27. -/
theorem test_stream :
    ran (.frmStream 1 1 0) (loaded [0x0E, 4, 1, 1, 0xAA, 0xBB]) (fun l => (l.frm.f1, l.frm.data, l.cur)) =
      some (1, ⟨.ibuf, 5, 1⟩, 6) := by decide +kernel

/-- V-F-26. -/
theorem test_stream_offset_past_end :
    ran (.frmStream 1 0 0) (loaded [0x0C, 4, 3, 0xAA, 0xBB]) (fun l => l.err) =
      some (.raised .dataEof 3 .ibuf) := by decide +kernel

/-- V-F-30. -/
theorem test_maxData : ran .frmMaxData (loaded [0x10, 0x44, 0]) (fun l => (l.frm.f0, l.cur)) = some (1024, 3) := by
  decide +kernel
/-- V-F-31. -/
theorem test_maxStreamData :
    ran .frmMaxStreamData (loaded [0x11, 8, 0x3F]) (fun l => (l.frm.f0, l.frm.f1)) = some (8, 63) := by decide +kernel
/-- V-F-33. -/
theorem test_maxStreams :
    ran (.frmMaxStreams 1) (loaded [0x13, 5]) (fun l => (l.frm.kind, l.frm.typ, l.frm.f0)) =
      some (.maxStreams, 0x13, 5) := by decide +kernel
/-- V-F-34. -/
theorem test_dataBlocked :
    ran .frmDataBlocked (loaded [0x14, 0]) (fun l => (l.frm.kind, l.frm.f0)) = some (.dataBlocked, 0) := by
  decide +kernel
/-- V-F-35. -/
theorem test_streamDataBlocked :
    ran .frmStreamDataBlocked (loaded [0x15, 2, 3]) (fun l => (l.frm.f0, l.frm.f1)) = some (2, 3) := by decide +kernel
/-- V-F-37. -/
theorem test_streamsBlocked :
    ran (.frmStreamsBlocked 1) (loaded [0x17, 2]) (fun l => (l.frm.kind, l.frm.typ, l.frm.f0)) =
      some (.streamsBlocked, 0x17, 2) := by decide +kernel

/-- V-F-40: a connection ID of length 0. -/
theorem test_newConnectionId :
    ran .frmNewConnectionId (loaded ([0x18, 1, 0, 0] ++ List.replicate 16 0xEE))
      (fun l => (l.frm.f0, l.frm.cid.len, l.frm.srt, l.cur)) = some (1, 0, List.replicate 16 0xEE, 20) := by
  decide +kernel

/-- V-F-39. -/
theorem test_newConnectionId_short :
    ran .frmNewConnectionId (loaded ([0x18, 1, 0, 0] ++ List.replicate 15 0xEE)) (fun l => l.err) =
      some (.raised .fixedEof 4 .ibuf) := by decide +kernel

/-- V-F-42. -/
theorem test_retireConnectionId :
    ran .frmRetireConnectionId (loaded [0x19, 2]) (fun l => (l.frm.kind, l.frm.f0)) =
      some (.retireConnectionId, 2) := by decide +kernel

/-- V-F-43. -/
theorem test_pathChallenge :
    ran .frmPathChallenge (loaded [0x1A, 1, 2, 3, 4, 5, 6, 7, 8]) (fun l => (l.frm.pdata, l.cur)) =
      some ([1, 2, 3, 4, 5, 6, 7, 8], 9) := by decide +kernel

/-- V-F-44. -/
theorem test_pathChallenge_short :
    ran .frmPathChallenge (loaded [0x1A, 1, 2, 3, 4, 5, 6, 7]) (fun l => l.err) =
      some (.raised .fixedEof 1 .ibuf) := by decide +kernel

/-- V-F-45. -/
theorem test_pathResponse :
    ran .frmPathResponse (loaded [0x1B, 8, 7, 6, 5, 4, 3, 2, 1]) (fun l => (l.frm.kind, l.frm.pdata)) =
      some (.pathResponse, [8, 7, 6, 5, 4, 3, 2, 1]) := by decide +kernel

/-- V-F-46. -/
theorem test_connectionCloseQuic :
    ran .frmConnectionCloseQuic (loaded [0x1C, 0x0A, 6, 2, 0x6F, 0x6B])
      (fun l => (l.frm.ftP, l.frm.f0, l.frm.f1, l.frm.data)) = some (1, 10, 6, ⟨.ibuf, 4, 2⟩) := by decide +kernel

/-- V-F-48. -/
theorem test_connectionCloseQuic_short :
    ran .frmConnectionCloseQuic (loaded [0x1C, 0x0A, 6, 3, 0x6F, 0x6B]) (fun l => l.err) =
      some (.raised .dataEof 4 .ibuf) := by decide +kernel

/-- V-F-47. -/
theorem test_connectionCloseApp :
    ran .frmConnectionCloseApp (loaded [0x1D, 0x0A, 2, 0x6F, 0x6B])
      (fun l => (l.frm.ftP, l.frm.f0, l.frm.f1, l.frm.data)) = some (0, 10, 0, ⟨.ibuf, 3, 2⟩) := by decide +kernel

/-- V-F-49. -/
theorem test_connectionCloseApp_short :
    ran .frmConnectionCloseApp (loaded [0x1D, 0x0A]) (fun l => l.err) = some (.raised .varintEof 2 .ibuf) := by
  decide +kernel

/-- V-F-50. -/
theorem test_handshakeDone :
    ran .frmHandshakeDone (loaded [0x1E]) (fun l => (l.frm.kind, l.cur)) = some (.handshakeDone, 1) := by decide +kernel

/-- V-F-52: the error stands at the first byte of a two-byte type. -/
theorem test_unknown :
    ran (.frmUnknown 0x1F) (loaded [0x40, 0x1F]) (fun l => (l.err, l.fres)) =
      some (.raised .unknownFrameType 0 .ibuf, .error) := by decide +kernel

/-! ### Witnesses: states and operands that meet the hypotheses of the obligations, clause by clause -/

/-- The frame command of a loaded state is `FRM_ONE` over its whole window. -/
theorem frameAt_loaded (bs : List Byte) (h : CursorOk (loaded bs)) : FrameAt (loaded bs) (hostWindow (loaded bs)) 0 :=
  ⟨h, rfl, rfl⟩

/-- The frame command of a sequenced state is `FSEQ_NEXT` over the sequence. -/
theorem frameAt_sequenced (bs : List Byte) (p : Nat) (h : p < 4294967296) :
    FrameAt (sequenced bs p) (sequenceWindow (sequenced bs p)) p :=
  ⟨rfl, (Nat.mod_eq_of_lt h).symm⟩

theorem witness_DecodeInvertsEncode :
    (Instr.pktRetry 1 3 3 0xFFFFFFFF).wellFormed = true ∧ (Instr.frmUnknown 0x1f).wellFormed = true := by decide

theorem witness_DecodedRowIsUnique :
    decode .header [0xC1, 0, 0, 0, 1, 7] = .ok (.pktInitial 1 0 1 1, [7]) ∧
    decode .frame [0x40, 0x1F] = .ok (.frmUnknown 0x1f, []) := ⟨rfl, rfl⟩

/-- An empty window (V-H-25), and four of five bytes of a long header (V-H-27). -/
theorem witness_PktParseRunsSelectedRow_raise :
    (CursorOk (loaded []) ∧ low32 (loaded []).lane.cur = low32 (loaded []).lane.ilen) ∧
    (CursorOk (loaded [0xC0, 0, 0, 0]) ∧
      low32 (loaded [0xC0, 0, 0, 0]).lane.cur < low32 (loaded [0xC0, 0, 0, 0]).lane.ilen ∧
      Mem.read (loaded [0xC0, 0, 0, 0]).lane.ibuf (low32 (loaded [0xC0, 0, 0, 0]).lane.cur) = some 0xC0 ∧
      (0xC0#8).getLsbD 7 = true ∧
      low32 (loaded [0xC0, 0, 0, 0]).lane.ilen < low32 (loaded [0xC0, 0, 0, 0]).lane.cur + 5) := by decide +kernel

theorem witness_PktParseRunsSelectedRow_short :
    CursorOk (loaded [0x40]) ∧ low32 (loaded [0x40]).lane.cur < low32 (loaded [0x40]).lane.ilen ∧
    Mem.read (loaded [0x40]).lane.ibuf (low32 (loaded [0x40]).lane.cur) = some 0x40 ∧
    (0x40#8).getLsbD 7 = false := by decide

/-- A long header of exactly five bytes, with first byte `b0` and last version byte `v0`. -/
abbrev LongHeaderLoaded (b0 v0 : Byte) : Prop :=
  CursorOk (loaded [b0, 0, 0, 0, v0]) ∧
  low32 (loaded [b0, 0, 0, 0, v0]).lane.cur < low32 (loaded [b0, 0, 0, 0, v0]).lane.ilen ∧
  Mem.read (loaded [b0, 0, 0, 0, v0]).lane.ibuf (low32 (loaded [b0, 0, 0, 0, v0]).lane.cur) = some b0 ∧
  b0.getLsbD 7 = true ∧
  low32 (loaded [b0, 0, 0, 0, v0]).lane.cur + 5 ≤ low32 (loaded [b0, 0, 0, 0, v0]).lane.ilen

/-- The version 0, and each value of `b0[5:4]` with the version 1. -/
theorem witness_PktParseRunsSelectedRow_long :
    LongHeaderLoaded 0x80 0 ∧ LongHeaderLoaded 0x80 1 ∧ LongHeaderLoaded 0x90 1 ∧ LongHeaderLoaded 0xA0 1 ∧
    LongHeaderLoaded 0xB0 1 :=
  ⟨by decide +kernel, by decide +kernel, by decide +kernel, by decide +kernel, by decide +kernel⟩

theorem witness_PktParseRunsSelectedRow_version :
    (hostWindow (loaded [0xB0, 0, 0, 0, 1])).holds (low32 (loaded [0xB0, 0, 0, 0, 1]).lane.cur + 1) [0, 0, 0, 1] ∧
    (0#8 ++ 0#8 ++ 0#8 ++ 1#8 : BitVec 32) ≠ 0 ∧ (0xB0#8).extractLsb' 4 2 = 3 :=
  ⟨⟨rfl, rfl, rfl, rfl, trivial⟩, by decide, by decide⟩

theorem witness_VarIntDecodesWhatItEncodes :
    encodeVarInt 16383 0 = .ok [0x7F, 0xFF] ∧ (hostWindow (loaded [0x7F, 0xFF])).holds 0 [0x7F, 0xFF] ∧
    0 + 2 ≤ (hostWindow (loaded [0x7F, 0xFF])).lim := ⟨rfl, ⟨rfl, rfl, trivial⟩, by decide +kernel⟩

theorem witness_VarIntEncodingChosen :
    (2 ^ 62 - 1 < 2 ^ 62 ∧ 0 = 0) ∧ (63 < 2 ^ 62 ∧ 1 ≤ 1 ∧ 1 ≤ 4 ∧ 63 < 2 ^ (8 * 2 ^ (1 - 1) - 2)) ∧ (2 ^ 62 ≤ 2 ^ 62) ∧
    (4 < 5) ∧ (1 ≤ 1 ∧ ¬ 64 < 2 ^ (8 * 2 ^ (1 - 1) - 2)) := by decide

theorem witness_VarintDecResult_commit :
    CursorOk (loaded [0x65, 0x34, 0x12]) ∧ 2 = 2 ^ ((0x65#8).extractLsb' 6 2).toNat ∧
    (hostWindow (loaded [0x65, 0x34, 0x12])).holds (low32 (loaded [0x65, 0x34, 0x12]).lane.cur) [0x65, 0x34] ∧
    [0x34#8].length + 1 = 2 ∧
    low32 (loaded [0x65, 0x34, 0x12]).lane.cur + 2 ≤ low32 (loaded [0x65, 0x34, 0x12]).lane.ilen :=
  ⟨by decide +kernel, by decide, ⟨rfl, rfl, trivial⟩, rfl, by decide +kernel⟩

theorem witness_VarintDecResult_empty :
    CursorOk (loaded []) ∧ low32 (loaded []).lane.cur = low32 (loaded []).lane.ilen := by decide

theorem witness_VarintDecResult_short :
    CursorOk (loaded [0x40]) ∧ low32 (loaded [0x40]).lane.cur < low32 (loaded [0x40]).lane.ilen ∧
    Mem.read (loaded [0x40]).lane.ibuf (low32 (loaded [0x40]).lane.cur) = some 0x40 ∧
    low32 (loaded [0x40]).lane.ilen < low32 (loaded [0x40]).lane.cur + 2 ^ ((0x40#8).extractLsb' 6 2).toNat := by decide

/-- A cursor one past `ILEN`, and an `ILEN` one past `IBUF_CAP`: the last clause of every codec command. -/
theorem witness_bad_cursor :
    ¬ CursorOk (State.with (loaded []) fun l => { l with cur := 1 }) ∧
    ¬ CursorOk (State.with (loaded []) fun l => { l with ilen := 65537 }) := by decide

theorem witness_VarintEncResult_commit :
    encodeVarInt (State.with (loaded []) fun l => { l with arg0 := 0x2534 }).lane.arg0.toNat 0 = .ok [0x65, 0x34] := rfl

theorem witness_VarintEncResult_raise :
    2 ^ 62 ≤ (0x4000000000000000#64).toNat ∧ 4 < (5#64).toNat ∧
    (1 ≤ (1#64).toNat ∧ ¬ (64#64).toNat < 2 ^ (8 * 2 ^ ((1#64).toNat - 1) - 2)) := by decide

/-- The longest connection ID, with nothing after it. -/
theorem witness_CidDecResult_commit :
    CursorOk (loaded (0x14 :: List.replicate 20 7)) ∧
    (hostWindow (loaded (0x14 :: List.replicate 20 7))).holds 0 (0x14 :: List.replicate 20 7) ∧
    (List.replicate 20 (7 : Byte)).length = (0x14#8).toNat ∧ (0x14#8).toNat ≤ 20 ∧
    0 + 1 + (0x14#8).toNat ≤ low32 (loaded (0x14 :: List.replicate 20 7)).lane.ilen :=
  ⟨by decide +kernel, by simp only [List.replicate]; repeat' first | exact trivial | exact rfl | constructor,
    by decide, by decide, by decide +kernel⟩

theorem witness_CidDecResult_raise :
    (CursorOk (loaded []) ∧ low32 (loaded []).lane.cur = low32 (loaded []).lane.ilen) ∧
    (CursorOk (loaded [0x15]) ∧ low32 (loaded [0x15]).lane.cur < low32 (loaded [0x15]).lane.ilen ∧
      Mem.read (loaded [0x15]).lane.ibuf (low32 (loaded [0x15]).lane.cur) = some 0x15 ∧ 20 < (0x15#8).toNat) ∧
    (CursorOk (loaded [0x14]) ∧ low32 (loaded [0x14]).lane.cur < low32 (loaded [0x14]).lane.ilen ∧
      Mem.read (loaded [0x14]).lane.ibuf (low32 (loaded [0x14]).lane.cur) = some 0x14 ∧ (0x14#8).toNat ≤ 20 ∧
      low32 (loaded [0x14]).lane.ilen < low32 (loaded [0x14]).lane.cur + 1 + (0x14#8).toNat) := by decide +kernel

/-- `ARG0` set on loaded bytes. -/
def pnLoaded (bs : List Byte) (width : Word) : State := State.with (loaded bs) fun l => { l with arg0 := width }

theorem witness_PnDecResult_commit :
    CursorOk (pnLoaded [0xAB, 0xCD, 0, 1] 4) ∧ 1 ≤ (pnLoaded [0xAB, 0xCD, 0, 1] 4).lane.arg0.toNat ∧
    (pnLoaded [0xAB, 0xCD, 0, 1] 4).lane.arg0.toNat ≤ 4 ∧
    (hostWindow (pnLoaded [0xAB, 0xCD, 0, 1] 4)).holds (low32 (pnLoaded [0xAB, 0xCD, 0, 1] 4).lane.cur)
      [0xAB, 0xCD, 0, 1] ∧
    [0xAB#8, 0xCD, 0, 1].length = (pnLoaded [0xAB, 0xCD, 0, 1] 4).lane.arg0.toNat ∧
    low32 (pnLoaded [0xAB, 0xCD, 0, 1] 4).lane.cur + [0xAB#8, 0xCD, 0, 1].length ≤
      low32 (pnLoaded [0xAB, 0xCD, 0, 1] 4).lane.ilen :=
  ⟨by decide +kernel, by decide, by decide, ⟨rfl, rfl, rfl, rfl, trivial⟩, by decide, by decide +kernel⟩

theorem witness_PnDecResult_raise :
    (CursorOk (pnLoaded [1] 0) ∧ (pnLoaded [1] 0).lane.arg0.toNat < 1) ∧
    (CursorOk (pnLoaded [1] 5) ∧ 4 < (pnLoaded [1] 5).lane.arg0.toNat) ∧
    (CursorOk (pnLoaded [1] 2) ∧ 1 ≤ (pnLoaded [1] 2).lane.arg0.toNat ∧ (pnLoaded [1] 2).lane.arg0.toNat ≤ 4 ∧
      low32 (pnLoaded [1] 2).lane.ilen < low32 (pnLoaded [1] 2).lane.cur + (pnLoaded [1] 2).lane.arg0.toNat) := by
  decide +kernel

theorem witness_NopResult_ClearResult :
    busy.lane.issued = none ∧ busy.lane.st = .busy ∧
    (pending (.host (.regWrite 0x000 64 0x09)) busy).inbox =
      { lane := busy.sel, act := .host (.regWrite 0x000 64 0x09) } :: [] := by decide

theorem witness_ReservedOpcodeResult :
    0x0A ≤ ((0x10A#64 : Word).extractLsb' 0 8).toNat ∧ 0x0A ≤ ((0xFF#64 : Word).extractLsb' 0 8).toNat ∧
    ((0x105#64 : Word).extractLsb' 0 8).toNat < 0x0A ∧ ((0xA09#64 : Word).extractLsb' 0 8).toNat < 0x0A := by decide

/-- The bytes written at `IBUF` 0, with `ILEN` past them: the rest of the window has not been written. -/
def gap (bs : List Byte) (ilen arg0 : Word) : State :=
  State.with (loaded bs) fun l => { l with ilen := ilen, arg0 := arg0 }

/-- With the written bytes all before address `a`, that is the first unwritten one. -/
theorem firstUnwritten_gap (bs : List Byte) (ilen arg0 : Word) (a : Nat)
    (h : Mem.read (Mem.writeAll [] 0 bs) a = none ∧
      ∀ b, b < a → (Mem.read (Mem.writeAll [] 0 bs) b).isSome = true) :
    FirstUnwritten (hostWindow (gap bs ilen arg0)) 0 a := ⟨Nat.zero_le _, h.1, fun b _ hb => h.2 b hb⟩

/-- The first byte of a window, which every command reads. -/
theorem witness_UnwrittenByteFaults_first :
    FirstUnwritten (hostWindow (gap [] 1 1)) 0 0 ∧ CursorOk (gap [] 1 1) ∧ VarIntReads (hostWindow (gap [] 1 1)) 0 0 ∧
    CidReads (hostWindow (gap [] 1 1)) 0 0 ∧ SelectionReads (hostWindow (gap [] 1 1)) 0 0 ∧
    (1 ≤ (gap [] 1 1).lane.arg0.toNat ∧ (gap [] 1 1).lane.arg0.toNat ≤ 4 ∧
      low32 (gap [] 1 1).lane.cur + (gap [] 1 1).lane.arg0.toNat ≤ low32 (gap [] 1 1).lane.ilen ∧
      0 < low32 (gap [] 1 1).lane.cur + (gap [] 1 1).lane.arg0.toNat) :=
  ⟨firstUnwritten_gap _ _ _ _ (by decide), by decide, ⟨by decide, .inl rfl⟩, ⟨by decide, .inl rfl⟩,
    ⟨by decide, .inl rfl⟩, by decide⟩

/-- The last byte of a two-byte VarInt, of the longest connection ID, of a version, of a field of three bytes. -/
theorem witness_UnwrittenByteFaults_later :
    (FirstUnwritten (hostWindow (gap [0x40] 2 0)) 0 1 ∧ VarIntReads (hostWindow (gap [0x40] 2 0)) 0 1) ∧
    (FirstUnwritten (hostWindow (gap (0x14 :: List.replicate 19 0) 21 0)) 0 20 ∧
      CidReads (hostWindow (gap (0x14 :: List.replicate 19 0) 21 0)) 0 20) ∧
    (FirstUnwritten (hostWindow (gap [0xC0, 0, 0, 0] 5 0)) 0 4 ∧
      SelectionReads (hostWindow (gap [0xC0, 0, 0, 0] 5 0)) 0 4) ∧
    (FirstUnwritten (hostWindow (gap [1, 2] 3 3)) 0 2 ∧ 0 + 3 ≤ (hostWindow (gap [1, 2] 3 3)).lim ∧ 2 < 0 + 3) :=
  ⟨⟨firstUnwritten_gap _ _ _ _ (by decide), by decide, .inr ⟨0x40, rfl, by decide, by decide⟩⟩,
    ⟨firstUnwritten_gap _ _ _ _ (by decide +kernel), by decide +kernel,
      .inr ⟨0x14, rfl, by decide, by decide +kernel, by decide⟩⟩,
    ⟨firstUnwritten_gap _ _ _ _ (by decide), by decide, .inr ⟨0xC0, rfl, by decide, by decide, by decide⟩⟩,
    firstUnwritten_gap _ _ _ _ (by decide), by decide, by decide⟩

/-- A frame sequence over two bytes of which the first is written, at its second. -/
def sequencedGap : State := State.with (sequenced [0x01] 1) fun l => { l with fend := 2 }

theorem witness_UnwrittenByteFaults_sequence :
    sequencedGap.lane.fstate = .active ∧ sequencedGap.lane.fbuf = .ibuf ∧
    FirstUnwritten (sequenceWindow sequencedGap) sequencedGap.lane.fcur.toNat 1 ∧
    VarIntReads (sequenceWindow sequencedGap) sequencedGap.lane.fcur.toNat 1 :=
  ⟨rfl, rfl, ⟨by decide, rfl, fun b h1 h2 => absurd h2 (Nat.not_lt.2 h1)⟩, by decide, .inl rfl⟩

/-- What a parse stops with, when it reaches the model fault. -/
def faulted {α : Type} (x : Parse α) : Option Fault :=
  match x with
  | .error (.fault f) => some f
  | .error (.raised _ _) => none
  | .ok _ => none

theorem faulted_eq {α : Type} {x : Parse α} {f : Fault} (h : faulted x = some f) : x = .error (.fault f) := by
  cases x with
  | ok a => cases h
  | error e =>
    cases e with
    | raised c p => cases h
    | fault g => cases h; rfl

/-- A Retry packet whose tag has not been written, a `MAX_DATA` whose value has not, a sequence at a type that has not. -/
theorem witness_UnwrittenByteFaults_parse :
    (CursorOk (gap [0xF0, 0, 0, 0, 1, 0, 0] 23 0) ∧
      faulted (parseHeader (hostWindow (gap [0xF0, 0, 0, 0, 1, 0, 0] 23 0)) 0) = some (.unwrittenRead .ibuf 7) ∧
      spaceOf (.pktRetry 1 0 0 1) = .header ∧
      faulted (headerRule (.pktRetry 1 0 0 1) (hostWindow (gap [0xF0, 0, 0, 0, 1, 0, 0] 23 0)) 0) =
        some (.unwrittenRead .ibuf 7)) ∧
    (CursorOk (gap [0x10] 2 0) ∧ FrameAt (gap [0x10] 2 0) (hostWindow (gap [0x10] 2 0)) 0 ∧
      faulted (parseFrame Config.chosen (hostWindow (gap [0x10] 2 0)) 0) = some (.unwrittenRead .ibuf 1) ∧
      faulted (parseRow .frmMaxData (frameRule .frmMaxData) Config.chosen (hostWindow (gap [0x10] 2 0)) 0) =
        some (.unwrittenRead .ibuf 1)) ∧
    (sequencedGap.lane.fstate = .active ∧ sequencedGap.lane.fcur ≠ sequencedGap.lane.fend ∧
      faulted (parseFrame Config.chosen (sequenceWindow sequencedGap) 1) = some (.unwrittenRead .ibuf 1)) :=
  ⟨⟨by decide +kernel, by decide +kernel, rfl, by decide +kernel⟩,
    ⟨by decide, ⟨by decide, rfl, rfl⟩, by decide +kernel, by decide +kernel⟩, rfl, by decide, by decide +kernel⟩

theorem witness_ErrorKeepsInputs : ∃ t, exec .pktParse (loaded [0xC0]) = .next t ∧ t.lane.st = .error := ⟨_, rfl, rfl⟩

theorem witness_CommandLeavesHostState : ∃ t, exec .frmPing (sequenced [0x01] 0) = .next t := ⟨_, rfl⟩

/-! #### Packets -/

/-- What a parse gives, when it gives something. -/
def parsed {α : Type} (x : Parse α) : Option α := x.toOption

theorem parsed_eq {α : Type} {x : Parse α} {a : α} (h : parsed x = some a) : x = .ok a := by
  cases x with
  | ok b => exact congrArg _ (Option.some.inj h)
  | error e => cases h

/-- A Retry packet (no epoch), a Handshake packet (an epoch) and an error of the header parser. -/
theorem witness_PktParseResult :
    (CursorOk (loaded retryBytes) ∧ ((parsed (parseHeader (hostWindow (loaded retryBytes)) 0)).map Header.epoch) =
      some none) ∧
    (CursorOk (loaded initialBytes) ∧ ((parsed (parseHeader (hostWindow (loaded initialBytes)) 0)).map Header.epoch) =
      some (some .initial)) ∧
    parseHeader (hostWindow (loaded [])) (low32 (loaded []).lane.cur) = raise .hdrEof 0 :=
  ⟨by decide +kernel, by decide +kernel, rfl⟩

/-- How a long header of the Initial row fails: an empty window, four bytes (V-H-27), no length byte of the destination
connection ID, a length of 21, a missing byte, and the same of the source connection ID after an empty one. -/
theorem witness_PktParseResult_long :
    isLongHeader (headerByteOf (.pktInitial 1 0 0 1)) = true ∧
    LongHeaderFails (hostWindow (loaded [])) 0 .hdrEof 0 ∧
    LongHeaderFails (hostWindow (loaded [0xC0, 0, 0, 0])) 0 .versionEof 1 ∧
    LongHeaderFails (hostWindow (loaded [0xC0, 0, 0, 0, 1])) 0 .cidLenEof 5 ∧
    LongHeaderFails (hostWindow (loaded [0xC0, 0, 0, 0, 1, 0x15])) 0 .cidTooLong 5 ∧
    LongHeaderFails (hostWindow (loaded [0xC0, 0, 0, 0, 1, 1])) 0 .cidEof 5 ∧
    LongHeaderFails (hostWindow (loaded [0xC0, 0, 0, 0, 1, 0])) 0 .cidLenEof 6 ∧
    LongHeaderFails (hostWindow (loaded [0xC0, 0, 0, 0, 1, 0, 0x15])) 0 .cidTooLong 6 ∧
    LongHeaderFails (hostWindow (loaded [0xC0, 0, 0, 0, 1, 0, 0x14])) 0 .cidEof 6 :=
  ⟨by decide, .inl ⟨by decide, rfl, rfl⟩, .inr (.inl ⟨by decide, by decide, rfl, rfl⟩),
    .inr (.inr ⟨by decide, .inl ⟨.inl ⟨by decide, rfl⟩, rfl⟩⟩),
    .inr (.inr ⟨by decide +kernel, .inl ⟨.inr ⟨0x15, by decide +kernel, rfl, .inl ⟨by decide, rfl⟩⟩, rfl⟩⟩),
    .inr (.inr ⟨by decide +kernel, .inl ⟨.inr ⟨1, by decide +kernel, rfl,
      .inr ⟨by decide, by decide +kernel, rfl⟩⟩, rfl⟩⟩),
    .inr (.inr ⟨by decide +kernel, .inr ⟨_, 6, rfl, .inl ⟨by decide +kernel, rfl⟩, rfl⟩⟩),
    .inr (.inr ⟨by decide +kernel, .inr ⟨_, 6, rfl, .inr ⟨0x15, by decide +kernel, rfl, .inl ⟨by decide, rfl⟩⟩, rfl⟩⟩),
    .inr (.inr ⟨by decide +kernel, .inr ⟨_, 6, rfl,
      .inr ⟨0x14, by decide +kernel, rfl, .inr ⟨by decide, by decide +kernel, rfl⟩⟩, rfl⟩⟩)⟩

/-- A long header with a connection ID of one byte and an empty one, for every long-header result. -/
theorem witness_long_header (s : State) (h : s = loaded [0x80, 0, 0, 0, 0, 1, 0x55, 0]) :
    CursorOk s ∧ low32 s.lane.cur + 5 ≤ low32 s.lane.ilen ∧
    decodeCid (hostWindow s) (low32 s.lane.cur + 5) = .ok (Cid.ofBytes [0x55], 7) ∧
    decodeCid (hostWindow s) 7 = .ok (Cid.ofBytes [], 8) := by
  subst h
  exact ⟨by decide +kernel, by decide +kernel, rfl, rfl⟩

/-- The version list: empty, and with one byte too many. -/
theorem witness_VersionNegotiationResult :
    (low32 (loaded [0x80, 0, 0, 0, 0, 1, 0x55, 0]).lane.ilen - 8) % 4 = 0 ∧
    (parsed (decodeCid (hostWindow (loaded [0x80, 0, 0, 0, 0, 0, 0, 1])) 6)).map Prod.snd = some 7 ∧
    (low32 (loaded [0x80, 0, 0, 0, 0, 0, 0, 1]).lane.ilen - 7) % 4 ≠ 0 := by decide +kernel

/-- V-H-1: token at 14 of length 1, length field at 15, packet number at 16. -/
theorem witness_InitialResult_request :
    CursorOk (loaded initialBytes) ∧ low32 (loaded initialBytes).lane.cur + 5 ≤ low32 (loaded initialBytes).lane.ilen ∧
    (parsed (decodeCid (hostWindow (loaded initialBytes)) 5)).map Prod.snd = some 10 ∧
    (parsed (decodeCid (hostWindow (loaded initialBytes)) 10)).map Prod.snd = some 13 ∧
    parsed (decodeVarInt (hostWindow (loaded initialBytes)) 13) = some (1, 14) ∧
    14 + 1 ≤ low32 (loaded initialBytes).lane.ilen ∧
    parsed (readVar (hostWindow (loaded initialBytes)) (14 + 1)) = some (5, 16) ∧
    parsed (decodePn (hostWindow (loaded initialBytes)) 16 ((1#2).toNat + 1)) = some (7, 18) := by decide +kernel

/-- V-H-4: a token of 5 bytes with one byte left. -/
theorem witness_InitialResult_token :
    parsed (decodeVarInt (hostWindow (loaded [0xC0, 0, 0, 0, 1, 0, 0, 5, 0xAA])) 7) = some (5, 8) ∧
    low32 (loaded [0xC0, 0, 0, 0, 1, 0, 0, 5, 0xAA]).lane.ilen < 8 + 5 := by decide +kernel

/-- No token length; a token length of two bytes cut short; no length field; a packet number of one byte missing. -/
theorem witness_InitialResult_short :
    VarIntShort (hostWindow (loaded [0xC0, 0, 0, 0, 1, 0, 0])) 7 ∧
    VarIntShort (hostWindow (loaded [0xC0, 0, 0, 0, 1, 0, 0, 0x40])) 7 ∧
    (parsed (decodeVarInt (hostWindow (loaded [0xC0, 0, 0, 0, 1, 0, 0, 0])) 7) = some (0, 8) ∧
      8 + 0 ≤ low32 (loaded [0xC0, 0, 0, 0, 1, 0, 0, 0]).lane.ilen ∧
      VarIntShort (hostWindow (loaded [0xC0, 0, 0, 0, 1, 0, 0, 0])) (8 + 0)) ∧
    (parsed (readVar (hostWindow (loaded [0xC0, 0, 0, 0, 1, 0, 0, 0, 5])) (8 + 0)) = some (5, 9) ∧
      low32 (loaded [0xC0, 0, 0, 0, 1, 0, 0, 0, 5]).lane.ilen < 9 + ((0#2).toNat + 1)) :=
  ⟨.inl (by decide +kernel), .inr ⟨0x40, by decide +kernel, rfl, by decide +kernel⟩,
    ⟨by decide +kernel, by decide +kernel, .inl (by decide +kernel)⟩, by decide +kernel, by decide +kernel⟩

/-- No length field, and V-H-10: one byte of two of the packet number. -/
theorem witness_LengthHeaderResult_short :
    VarIntShort (hostWindow (loaded [0xE1, 0, 0, 0, 1, 0, 0])) 7 ∧
    parsed (readVar (hostWindow (loaded [0xE1, 0, 0, 0, 1, 0, 0, 2, 1])) 7) = some (2, 8) ∧
    low32 (loaded [0xE1, 0, 0, 0, 1, 0, 0, 2, 1]).lane.ilen < 8 + ((1#2).toNat + 1) :=
  ⟨.inl (by decide +kernel), by decide +kernel, by decide +kernel⟩

/-- No first byte; no connection ID; a length of 21 (V-H-24); no packet number after an empty connection ID. -/
theorem witness_OneRttResult_short :
    (CursorOk (loaded []) ∧ low32 (loaded []).lane.cur = low32 (loaded []).lane.ilen) ∧
    (CursorOk (loaded [0x40]) ∧ low32 (loaded [0x40]).lane.cur < low32 (loaded [0x40]).lane.ilen ∧
      CidFails (hostWindow (loaded [0x40])) (0 + 1) .cidLenEof) ∧
    CidFails (hostWindow (loaded [0x40, 0x15])) (0 + 1) .cidTooLong ∧
    (parsed (decodeCid (hostWindow (loaded [0x40, 0])) (0 + 1)) = some (Cid.ofBytes [], 2) ∧
      low32 (loaded [0x40, 0]).lane.ilen < 2 + ((0#2).toNat + 1)) :=
  ⟨by decide, ⟨by decide, by decide, .inl ⟨by decide, rfl⟩⟩,
    .inr ⟨0x15, by decide, rfl, .inl ⟨by decide, rfl⟩⟩, by decide +kernel, by decide +kernel⟩

/-- V-H-9. -/
theorem witness_LengthHeaderResult :
    (parsed (decodeCid (hostWindow (loaded [0xE1, 0, 0, 0, 1, 0, 0, 2, 1, 2])) 5)).map Prod.snd = some 6 ∧
    (parsed (decodeCid (hostWindow (loaded [0xE1, 0, 0, 0, 1, 0, 0, 2, 1, 2])) 6)).map Prod.snd = some 7 ∧
    parsed (readVar (hostWindow (loaded [0xE1, 0, 0, 0, 1, 0, 0, 2, 1, 2])) 7) = some (2, 8) ∧
    parsed (decodePn (hostWindow (loaded [0xE1, 0, 0, 0, 1, 0, 0, 2, 1, 2])) 8 ((1#2).toNat + 1)) = some (0x0102, 10) := by
  decide +kernel

/-- V-H-11, and a remainder of 15 bytes. -/
theorem witness_RetryResult :
    (parsed (decodeCid (hostWindow (loaded retryBytes)) 5)).map Prod.snd = some 6 ∧
    (parsed (decodeCid (hostWindow (loaded retryBytes)) 6)).map Prod.snd = some 7 ∧
    7 + 16 ≤ low32 (loaded retryBytes).lane.ilen ∧ (retryBytes.drop 9).length = 16 ∧
    low32 (loaded (retryBytes.take 22)).lane.ilen < 7 + 16 := by decide +kernel

theorem witness_RetryResult_tag :
    (hostWindow (loaded retryBytes)).holds (low32 (loaded retryBytes).lane.ilen - 16) (retryBytes.drop 9) := by
  repeat' first | exact trivial | exact rfl | constructor

/-- V-H-19. -/
theorem witness_OneRttResult :
    CursorOk (loaded [0x47, 1, 0xAA, 0, 0, 1, 0, 0xBB]) ∧
    low32 (loaded [0x47, 1, 0xAA, 0, 0, 1, 0, 0xBB]).lane.cur <
      low32 (loaded [0x47, 1, 0xAA, 0, 0, 1, 0, 0xBB]).lane.ilen ∧
    (parsed (decodeCid (hostWindow (loaded [0x47, 1, 0xAA, 0, 0, 1, 0, 0xBB])) 1)).map Prod.snd = some 3 ∧
    parsed (decodePn (hostWindow (loaded [0x47, 1, 0xAA, 0, 0, 1, 0, 0xBB])) 3 ((3#2).toNat + 1)) = some (0x100, 7) := by
  decide +kernel

theorem witness_NoPartialPacket :
    (∃ t, exec .pktParse (loaded []) = .next t ∧ t.lane.st = .error) ∧
    (spaceOf (.pktOneRtt 0 0 0 0 0) = .header ∧ ∃ t, exec (.pktOneRtt 0 0 0 0 0) (loaded []) = .next t ∧
      t.lane.st = .error) ∧
    (busy.lane.issued = none ∧ busy.lane.st = .busy ∧
      ∃ t, step (pending (.crypto { id := 1, pt := none }) busy) = .next t ∧ t.lane.st = .error) :=
  ⟨⟨_, rfl, rfl⟩, ⟨rfl, _, rfl, rfl⟩, rfl, rfl, _, rfl, rfl⟩

theorem witness_ProtocolViolationOnlyFromUnknownType :
    (∃ t, exec .frmOne (loaded [0x1F]) = .next t ∧ t.lane.err = .raised .unknownFrameType 0 .ibuf) ∧
    (∃ t, exec .fseqNext (sequenced [0x01, 0x1F] 1) = .next t ∧ t.lane.err = .raised .unknownFrameType 1 .ibuf) ∧
    (∃ t, exec (.frmUnknown 0x1F) (loaded [0x1F]) = .next t ∧ t.lane.err = .raised .unknownFrameType 0 .ibuf) ∧
    (∃ t, exec .nop (State.with (loaded []) fun l => { l with err := .raised .unknownFrameType 0 .ibuf }) = .next t ∧
      t.lane.err = .raised .unknownFrameType 0 .ibuf) :=
  ⟨⟨_, rfl, rfl⟩, ⟨_, rfl, rfl⟩, ⟨_, rfl, rfl⟩, _, rfl, rfl⟩

/-- A plaintext of exactly `PBUF_CAP` bytes, and one longer, on `busy`. -/
theorem witness_Completion :
    busy.lane.cmd = none ∧ busy.lane.fault = none ∧ busy.lane.st = .busy ∧ busy.lane.creqOut = 1 ∧
    busy.lane.pend.isSome = true ∧
    (List.replicate 16 (0 : Byte)).length ≤ (16 : Fin 4294967296).val ∧
    (16 : Fin 4294967296).val < (List.replicate 17 (0 : Byte)).length ∧ (1 : BitVec 8) = busy.lane.creqId := by decide

theorem witness_UnmatchedResponseDropped :
    (2 : BitVec 8) ≠ busy.lane.creqId ∧ (loaded []).lane.creqOut = 0 ∧ (loaded []).lane.issued = none := by decide

/-! #### Frames -/

theorem witness_FrmOneResult :
    CursorOk (loaded [0x01]) ∧
    parseFrame (loaded [0x01]).params (hostWindow (loaded [0x01])) (low32 (loaded [0x01]).lane.cur) =
      .ok (plainFrame { Frm.zero with kind := .ping, typ := 1 } 1) ∧
    parseFrame (loaded []).params (hostWindow (loaded [])) (low32 (loaded []).lane.cur) = raise .varintEof 0 :=
  ⟨by decide, rfl, rfl⟩

/-- An empty window, and one byte of a type of two, on the host window and on a sequence. -/
theorem witness_short_type :
    (CursorOk (loaded []) ∧ VarIntShort (hostWindow (loaded [])) (low32 (loaded []).lane.cur)) ∧
    (CursorOk (loaded [0x40]) ∧ VarIntShort (hostWindow (loaded [0x40])) (low32 (loaded [0x40]).lane.cur)) ∧
    ((sequenced [0x40] 0).lane.fstate = .active ∧ (sequenced [0x40] 0).lane.fcur ≠ (sequenced [0x40] 0).lane.fend ∧
      VarIntShort (sequenceWindow (sequenced [0x40] 0)) (sequenced [0x40] 0).lane.fcur.toNat) :=
  ⟨⟨by decide, Or.inl (by decide)⟩, ⟨by decide, Or.inr ⟨0x40, by decide, rfl, by decide⟩⟩, rfl, by decide,
    Or.inr ⟨0x40, by decide, rfl, by decide⟩⟩

theorem witness_FseqBeginResult :
    CursorOk (loaded []) ∧ ¬ CursorOk (State.with (loaded []) fun l => { l with cur := 1 }) := by decide

theorem witness_FseqNextResult :
    (loaded []).lane.fstate = .inactive ∧
    ((sequenced [0x01] 1).lane.fstate = .active ∧ (sequenced [0x01] 1).lane.fcur = (sequenced [0x01] 1).lane.fend) ∧
    ((sequenced [0x01] 0).lane.fcur ≠ (sequenced [0x01] 0).lane.fend) ∧
    parseFrame Config.chosen (sequenceWindow (sequenced [0x01] 0)) (sequenced [0x01] 0).lane.fcur.toNat =
      .ok (plainFrame { Frm.zero with kind := .ping, typ := 1 } 1) ∧
    parseFrame Config.chosen (sequenceWindow (sequenced [0x1F] 0)) (sequenced [0x1F] 0).lane.fcur.toNat =
      raise .unknownFrameType 0 :=
  ⟨rfl, ⟨rfl, rfl⟩, by decide, rfl, rfl⟩

theorem witness_FrameCommandsRunSelectedRow :
    (frameCmdOf (loaded [0x40, 0x01]) = .one ∧ CursorOk (loaded [0x40, 0x01]) ∧
      readVar (hostWindow (loaded [0x40, 0x01])) (low32 (loaded [0x40, 0x01]).lane.cur) = .ok (1, 2)) ∧
    (frameCmdOf (sequenced [0x01] 0) = .next ∧ (sequenced [0x01] 0).lane.fstate = .active ∧
      (sequenced [0x01] 0).lane.fcur ≠ (sequenced [0x01] 0).lane.fend ∧
      readVar (sequenceWindow (sequenced [0x01] 0)) (sequenced [0x01] 0).lane.fcur.toNat = .ok (1, 1)) :=
  ⟨⟨rfl, by decide +kernel, rfl⟩, rfl, rfl, by decide, rfl⟩

/-- A frame command finds a whole type VarInt at the front of the loaded bytes. -/
def opens (bs : List Byte) : Prop :=
  FrameAt (loaded bs) (hostWindow (loaded bs)) 0 ∧ ∃ t, readVar (hostWindow (loaded bs)) 0 = .ok (t, 1)

theorem opens_of {bs : List Byte} {t : VarVal} (h : CursorOk (loaded bs))
    (ht : readVar (hostWindow (loaded bs)) 0 = .ok (t, 1)) : opens bs := ⟨frameAt_loaded _ h, t, ht⟩

/-- Both frame commands, on one type byte. -/
theorem witness_FrameRowsWithoutFields :
    (FrameAt (loaded [0x00]) (hostWindow (loaded [0x00])) 0 ∧ readVar (hostWindow (loaded [0x00])) 0 = .ok (0, 1)) ∧
    (FrameAt (sequenced [0x00] 0) (sequenceWindow (sequenced [0x00] 0)) 0 ∧
      readVar (sequenceWindow (sequenced [0x00] 0)) 0 = .ok (0, 1)) :=
  ⟨⟨frameAt_loaded _ (by decide), rfl⟩, frameAt_sequenced _ _ (by decide), rfl⟩

/-- One VarInt after the type, or none. -/
theorem witness_FrameRowsOfOneVarInt :
    (FrameAt (loaded [0x10, 0x3F]) (hostWindow (loaded [0x10, 0x3F])) 0 ∧
      readVar (hostWindow (loaded [0x10, 0x3F])) 0 = .ok (0x10, 1) ∧
      readVar (hostWindow (loaded [0x10, 0x3F])) 1 = .ok (63, 2)) ∧
    (FrameAt (loaded [0x10]) (hostWindow (loaded [0x10])) 0 ∧ readVar (hostWindow (loaded [0x10])) 0 = .ok (0x10, 1) ∧
      VarIntsShort (hostWindow (loaded [0x10])) 1 1 1) :=
  ⟨⟨frameAt_loaded _ (by decide), rfl, rfl⟩, frameAt_loaded _ (by decide), rfl, Or.inl ⟨Or.inl (by decide), rfl⟩⟩

/-- Four VarInts in a row, and the second or third missing. -/
theorem witness_FrameRowsOfMoreVarInts :
    (FrameAt (loaded [4, 1, 2, 3]) (hostWindow (loaded [4, 1, 2, 3])) 0 ∧
      readVar (hostWindow (loaded [4, 1, 2, 3])) 0 = .ok (4, 1) ∧
      readVar (hostWindow (loaded [4, 1, 2, 3])) 1 = .ok (1, 2) ∧
      readVar (hostWindow (loaded [4, 1, 2, 3])) 2 = .ok (2, 3) ∧
      readVar (hostWindow (loaded [4, 1, 2, 3])) 3 = .ok (3, 4)) ∧
    (opens [5] ∧ VarIntsShort (hostWindow (loaded [5])) 2 1 1) ∧
    (opens [5, 1, 0x80] ∧ VarIntsShort (hostWindow (loaded [5, 1, 0x80])) 2 1 2) ∧
    (opens [4, 1, 2] ∧ VarIntsShort (hostWindow (loaded [4, 1, 2])) 3 1 3) :=
  ⟨⟨frameAt_loaded _ (by decide +kernel), rfl, rfl, rfl, rfl⟩,
    ⟨opens_of (by decide +kernel) rfl, Or.inl ⟨Or.inl (by decide), rfl⟩⟩,
    ⟨opens_of (by decide +kernel) rfl, Or.inr ⟨1, 2, rfl, 
      Or.inl ⟨Or.inr ⟨0x80, by decide +kernel, rfl, by decide +kernel⟩, rfl⟩⟩⟩,
    opens_of (by decide +kernel) rfl,
    Or.inr ⟨1, 2, rfl, Or.inr ⟨2, 3, rfl, Or.inl ⟨Or.inl (by decide +kernel), rfl⟩⟩⟩⟩

theorem witness_FrameErrorsCommitNothing :
    spaceOf .frmPathChallenge = .frame ∧ FrameAt (sequenced [0x1A] 0) (sequenceWindow (sequenced [0x1A] 0)) 0 ∧
    parseRow .frmPathChallenge (frameRule .frmPathChallenge) Config.chosen (sequenceWindow (sequenced [0x1A] 0)) 0 =
      raise .fixedEof 1 ∧
    VarIntShort (sequenceWindow (sequenced [0x40] 0)) 0 :=
  ⟨rfl, frameAt_sequenced _ _ (by decide), rfl, Or.inr ⟨0x40, by decide, rfl, by decide⟩⟩

/-- V-F-10's bytes: the four VarInts and one pair of two, which is all `ACK_RANGE_CAP` 1 takes. -/
theorem witness_AckFrameResult :
    let s : State := { loaded [2, 10, 0, 2, 2, 3, 4, 5, 6] with params := { Config.chosen with ackCap := some 1 } }
    FrameAt s (hostWindow s) 0 ∧ readVar (hostWindow s) 0 = .ok (2, 1) ∧ readVar (hostWindow s) 1 = .ok (10, 2) ∧
    readVar (hostWindow s) 2 = .ok (0, 3) ∧ readVar (hostWindow s) 3 = .ok (2, 4) ∧
    readVar (hostWindow s) 4 = .ok (2, 5) ∧ PairsAt (hostWindow s) 5 [⟨3, 4⟩] 7 ∧
    PairsAt (hostWindow s) 5 [⟨3, 4⟩, ⟨5, 6⟩] 9 ∧ s.params.ackCap = some [AckRange.mk 3 4].length ∧
    [AckRange.mk 3 4].length < (2 : VarVal).toNat ∧ [AckRange.mk 3 4, AckRange.mk 5 6].length = (2 : VarVal).toNat ∧
    readVar (hostWindow s) 7 = .ok (5, 8) ∧ readVar (hostWindow s) 8 = .ok (6, 9) :=
  ⟨⟨by decide +kernel, rfl, rfl⟩, rfl, rfl, rfl, rfl, rfl, ⟨6, 7, rfl, rfl, rfl⟩, ⟨6, 7, rfl, rfl, 8, 9, rfl, rfl, rfl⟩,
    rfl, by decide, by decide, rfl, rfl⟩

/-- V-F-7's ECN counts. -/
theorem witness_AckFrameResult_ecn :
    PairsAt (hostWindow (loaded [3, 5, 1, 0, 0, 7, 8, 9])) 5 [] 5 ∧
    readVar (hostWindow (loaded [3, 5, 1, 0, 0, 7, 8, 9])) 5 = .ok (7, 6) ∧
    readVar (hostWindow (loaded [3, 5, 1, 0, 0, 7, 8, 9])) 6 = .ok (8, 7) ∧
    readVar (hostWindow (loaded [3, 5, 1, 0, 0, 7, 8, 9])) 7 = .ok (9, 8) := ⟨rfl, rfl, rfl, rfl⟩

/-- A VarInt that is missing: the fourth of the four, the length of the first pair, and the last ECN count. -/
theorem witness_AckFrameResult_short :
    (opens [2, 10, 0, 2] ∧ VarIntsShort (hostWindow (loaded [2, 10, 0, 2])) 4 1 4) ∧
    (opens [2, 10, 0, 2, 2, 3] ∧ (∀ n, Config.chosen.ackCap = some n → [].length (α := AckRange) ≤ n) ∧
      PairsAt (hostWindow (loaded [2, 10, 0, 2, 2, 3])) 5 [] 5 ∧
      VarIntsShort (hostWindow (loaded [2, 10, 0, 2, 2, 3])) 2 5 6) ∧
    (opens [3, 5, 1, 0, 0, 7, 8] ∧ VarIntsShort (hostWindow (loaded [3, 5, 1, 0, 0, 7, 8])) 3 5 7) :=
  ⟨⟨opens_of (by decide +kernel) rfl, Or.inr ⟨10, 2, rfl, Or.inr ⟨0, 3, rfl, Or.inr ⟨2, 4, rfl,
      Or.inl ⟨Or.inl (by decide +kernel), rfl⟩⟩⟩⟩⟩,
    ⟨opens_of (by decide +kernel) rfl, fun _ _ => Nat.zero_le _, rfl,
      Or.inr ⟨3, 6, rfl, Or.inl ⟨Or.inl (by decide +kernel), rfl⟩⟩⟩,
    opens_of (by decide +kernel) rfl, Or.inr ⟨7, 6, rfl, Or.inr ⟨8, 7, rfl, Or.inl ⟨Or.inl (by decide +kernel), rfl⟩⟩⟩⟩

/-- The gap of the second pair missing, although the first fills `ACK_RANGE_CAP`. -/
theorem witness_AckFrameResult_short_at_capacity :
    let s : State := { loaded [2, 10, 0, 2, 2, 3, 4] with params := { Config.chosen with ackCap := some 1 } }
    FrameAt s (hostWindow s) 0 ∧ readVar (hostWindow s) 0 = .ok (2, 1) ∧ readVar (hostWindow s) 1 = .ok (10, 2) ∧
    readVar (hostWindow s) 2 = .ok (0, 3) ∧ readVar (hostWindow s) 3 = .ok (2, 4) ∧
    readVar (hostWindow s) 4 = .ok (2, 5) ∧ PairsAt (hostWindow s) 5 [⟨3, 4⟩] 7 ∧
    [AckRange.mk 3 4].length < (2 : VarVal).toNat ∧
    (∀ n, s.params.ackCap = some n → [AckRange.mk 3 4].length ≤ n) ∧ VarIntsShort (hostWindow s) 2 7 7 :=
  ⟨⟨by decide +kernel, rfl, rfl⟩, rfl, rfl, rfl, rfl, rfl, ⟨6, 7, rfl, rfl, rfl⟩, by decide,
    fun _ h => Nat.le_of_eq (Option.some.inj h), Or.inl ⟨Or.inl (by decide +kernel), rfl⟩⟩

/-- V-F-16 and V-F-18: offset 2 with one byte fits exactly, with two bytes it does not; `IMMEDIATE` takes both. -/
theorem witness_CryptoFrameResult :
    FrameAt (loaded [6, 2, 1, 10, 11, 12]) (hostWindow (loaded [6, 2, 1, 10, 11, 12])) 0 ∧
    readVar (hostWindow (loaded [6, 2, 1, 10, 11, 12])) 0 = .ok (6, 1) ∧
    readVar (hostWindow (loaded [6, 2, 1, 10, 11, 12])) 1 = .ok (2, 2) ∧
    readVar (hostWindow (loaded [6, 2, 1, 10, 11, 12])) 2 = .ok (1, 3) ∧
    3 + (2 : VarVal).toNat + (1 : VarVal).toNat ≤ (hostWindow (loaded [6, 2, 1, 10, 11, 12])).lim ∧
    readVar (hostWindow (loaded [6, 2, 2, 10, 11, 12])) 2 = .ok (2, 3) ∧
    (hostWindow (loaded [6, 2, 2, 10, 11, 12])).lim < 3 + (2 : VarVal).toNat + (2 : VarVal).toNat ∧
    (hostWindow (loaded [6, 0, 1])).lim < 3 + (1 : VarVal).toNat ∧ Config.chosen.layout = .offsetRelative ∧
    { Config.chosen with layout := .immediate }.layout = .immediate ∧
    opens [6, 2] ∧ VarIntsShort (hostWindow (loaded [6, 2])) 2 1 2 :=
  ⟨frameAt_loaded _ (by decide +kernel), rfl, rfl, rfl, by decide +kernel, rfl, by decide +kernel, by decide +kernel, rfl,
    rfl, opens_of (by decide +kernel) rfl, Or.inr ⟨2, 2, rfl, Or.inl ⟨Or.inl (by decide), rfl⟩⟩⟩

/-- V-F-27 (both fields), V-F-24 (neither) and V-F-26 (an offset past the end). -/
theorem witness_StreamFrameResult :
    (readVar (hostWindow (loaded [14, 4, 1, 1, 10, 11])) 1 = .ok (4, 2) ∧
      readVar (hostWindow (loaded [14, 4, 1, 1, 10, 11])) 2 = .ok (1, 3) ∧
      readVar (hostWindow (loaded [14, 4, 1, 1, 10, 11])) 3 = .ok (1, 4) ∧
      4 + 1 + 1 ≤ (hostWindow (loaded [14, 4, 1, 1, 10, 11])).lim) ∧
    (FrameAt (loaded [8, 4]) (hostWindow (loaded [8, 4])) 0 ∧ readVar (hostWindow (loaded [8, 4])) 0 = .ok (8, 1) ∧
      readVar (hostWindow (loaded [8, 4])) 1 = .ok (4, 2) ∧ 2 + 0 + 0 ≤ (hostWindow (loaded [8, 4])).lim) ∧
    (readVar (hostWindow (loaded [12, 4, 3, 10, 11])) 2 = .ok (3, 3) ∧
      (hostWindow (loaded [12, 4, 3, 10, 11])).lim < 3 + 3 + 0) :=
  ⟨⟨rfl, rfl, rfl, by decide +kernel⟩, ⟨frameAt_loaded _ (by decide), rfl, rfl, by decide⟩, rfl, by decide +kernel⟩

/-- The stream id of type 8, the offset of 12, the length of 10, and the length of 14 missing. -/
theorem witness_StreamFrameResult_short :
    (opens [8] ∧ VarIntsShort (hostWindow (loaded [8])) (1 + (0 : BitVec 1).toNat + (0 : BitVec 1).toNat) 1 1) ∧
    (opens [12, 4] ∧ VarIntsShort (hostWindow (loaded [12, 4])) (1 + (1 : BitVec 1).toNat + (0 : BitVec 1).toNat) 1 2) ∧
    (opens [10, 4] ∧ VarIntsShort (hostWindow (loaded [10, 4])) (1 + (0 : BitVec 1).toNat + (1 : BitVec 1).toNat) 1 2) ∧
    (opens [14, 4, 1] ∧
      VarIntsShort (hostWindow (loaded [14, 4, 1])) (1 + (1 : BitVec 1).toNat + (1 : BitVec 1).toNat) 1 3) :=
  ⟨⟨opens_of (by decide +kernel) rfl, Or.inl ⟨Or.inl (by decide), rfl⟩⟩,
    ⟨opens_of (by decide +kernel) rfl, Or.inr ⟨4, 2, rfl, Or.inl ⟨Or.inl (by decide), rfl⟩⟩⟩,
    ⟨opens_of (by decide +kernel) rfl, Or.inr ⟨4, 2, rfl, Or.inl ⟨Or.inl (by decide), rfl⟩⟩⟩,
    opens_of (by decide +kernel) rfl, Or.inr ⟨4, 2, rfl, Or.inr ⟨1, 3, rfl, Or.inl ⟨Or.inl (by decide +kernel), rfl⟩⟩⟩⟩

/-- V-F-46: a reason phrase that fits exactly, and one byte short; the same bytes for the other two forms. -/
theorem witness_NamedBytesFrames :
    FrameAt (loaded [28, 10, 1, 1, 111]) (hostWindow (loaded [28, 10, 1, 1, 111])) 0 ∧
    readVar (hostWindow (loaded [28, 10, 1, 1, 111])) 0 = .ok (28, 1) ∧
    readVar (hostWindow (loaded [28, 10, 1, 1, 111])) 1 = .ok (10, 2) ∧
    readVar (hostWindow (loaded [28, 10, 1, 1, 111])) 2 = .ok (1, 3) ∧
    readVar (hostWindow (loaded [28, 10, 1, 1, 111])) 3 = .ok (1, 4) ∧
    4 + (1 : VarVal).toNat ≤ (hostWindow (loaded [28, 10, 1, 1, 111])).lim ∧
    3 + (1 : VarVal).toNat ≤ (hostWindow (loaded [28, 10, 1, 1, 111])).lim ∧
    (hostWindow (loaded [28, 10, 1, 1, 111])).lim < 2 + (10 : VarVal).toNat ∧
    2 + (0 : VarVal).toNat ≤ (hostWindow (loaded [7, 0])).lim ∧
    (hostWindow (loaded [28, 10, 1, 1])).lim < 4 + (1 : VarVal).toNat ∧
    (hostWindow (loaded [29, 10, 1])).lim < 3 + (1 : VarVal).toNat :=
  ⟨frameAt_loaded _ (by decide +kernel), rfl, rfl, rfl, rfl, by decide +kernel, by decide +kernel, by decide +kernel,
    by decide +kernel, by decide +kernel, by decide +kernel⟩

/-- No length for a token, no length for a phrase of the application form, and none for one of the QUIC form. -/
theorem witness_NamedBytesFrames_short :
    (opens [7] ∧ VarIntsShort (hostWindow (loaded [7])) 1 1 1) ∧
    (opens [29, 10] ∧ VarIntsShort (hostWindow (loaded [29, 10])) 2 1 2) ∧
    (opens [28, 10, 1] ∧ VarIntsShort (hostWindow (loaded [28, 10, 1])) 3 1 3) :=
  ⟨⟨opens_of (by decide +kernel) rfl, Or.inl ⟨Or.inl (by decide), rfl⟩⟩,
    ⟨opens_of (by decide +kernel) rfl, Or.inr ⟨10, 2, rfl, Or.inl ⟨Or.inl (by decide), rfl⟩⟩⟩,
    opens_of (by decide +kernel) rfl, Or.inr ⟨10, 2, rfl, Or.inr ⟨1, 3, rfl, Or.inl ⟨Or.inl (by decide +kernel), rfl⟩⟩⟩⟩

/-- A frame whose token is exactly the last 16 bytes, and one with 15. -/
theorem witness_NewConnectionIdResult :
    FrameAt (loaded ([24, 1, 0, 0] ++ List.replicate 16 238)) (hostWindow (loaded ([24, 1, 0, 0] ++ List.replicate 16 238)))
      0 ∧
    parsed (readVar (hostWindow (loaded ([24, 1, 0, 0] ++ List.replicate 16 238))) 0) = some (24, 1) ∧
    parsed (readVar (hostWindow (loaded ([24, 1, 0, 0] ++ List.replicate 16 238))) 1) = some (1, 2) ∧
    parsed (readVar (hostWindow (loaded ([24, 1, 0, 0] ++ List.replicate 16 238))) 2) = some (0, 3) ∧
    parsed (decodeCid (hostWindow (loaded ([24, 1, 0, 0] ++ List.replicate 16 238))) 3) = some (Cid.ofBytes [], 4) ∧
    (hostWindow (loaded ([24, 1, 0, 0] ++ List.replicate 16 238))).holds 4 (List.replicate 16 238) ∧
    4 + 16 ≤ (hostWindow (loaded ([24, 1, 0, 0] ++ List.replicate 16 238))).lim ∧
    (hostWindow (loaded ([24, 1, 0, 0] ++ List.replicate 15 238))).lim < 4 + 16 :=
  ⟨frameAt_loaded _ (by decide +kernel), by decide +kernel, by decide +kernel, by decide +kernel, by decide +kernel,
    by simp only [List.replicate]; repeat' first | exact trivial | exact rfl | constructor, by decide +kernel,
    by decide +kernel⟩

/-- No second VarInt; and after both, no length byte, a length of 21, and a length of 2 with one byte. -/
theorem witness_NewConnectionIdResult_short :
    (opens [24, 1] ∧ VarIntsShort (hostWindow (loaded [24, 1])) 2 1 2) ∧
    ((opens [24, 1, 0] ∧ readVar (hostWindow (loaded [24, 1, 0])) 1 = .ok (1, 2) ∧
      readVar (hostWindow (loaded [24, 1, 0])) 2 = .ok (0, 3)) ∧
      CidFails (hostWindow (loaded [24, 1, 0])) 3 .cidLenEof) ∧
    ((opens [24, 1, 0, 21] ∧ readVar (hostWindow (loaded [24, 1, 0, 21])) 1 = .ok (1, 2) ∧
      readVar (hostWindow (loaded [24, 1, 0, 21])) 2 = .ok (0, 3)) ∧
      CidFails (hostWindow (loaded [24, 1, 0, 21])) 3 .cidTooLong) ∧
    ((opens [24, 1, 0, 2, 9] ∧ readVar (hostWindow (loaded [24, 1, 0, 2, 9])) 1 = .ok (1, 2) ∧
      readVar (hostWindow (loaded [24, 1, 0, 2, 9])) 2 = .ok (0, 3)) ∧
      CidFails (hostWindow (loaded [24, 1, 0, 2, 9])) 3 .cidEof) :=
  ⟨⟨opens_of (by decide +kernel) rfl, Or.inr ⟨1, 2, rfl, Or.inl ⟨Or.inl (by decide), rfl⟩⟩⟩,
    ⟨⟨opens_of (by decide +kernel) rfl, rfl, rfl⟩, Or.inl ⟨by decide +kernel, rfl⟩⟩,
    ⟨⟨opens_of (by decide +kernel) rfl, rfl, rfl⟩, Or.inr ⟨21, by decide +kernel, rfl, Or.inl ⟨by decide, rfl⟩⟩⟩,
    ⟨opens_of (by decide +kernel) rfl, rfl, rfl⟩,
    Or.inr ⟨2, by decide +kernel, rfl, Or.inr ⟨by decide, by decide +kernel, rfl⟩⟩⟩

theorem witness_PathFramesResult :
    FrameAt (loaded [26, 1, 2, 3, 4, 5, 6, 7, 8]) (hostWindow (loaded [26, 1, 2, 3, 4, 5, 6, 7, 8])) 0 ∧
    readVar (hostWindow (loaded [26, 1, 2, 3, 4, 5, 6, 7, 8])) 0 = .ok (26, 1) ∧
    (hostWindow (loaded [26, 1, 2, 3, 4, 5, 6, 7, 8])).holds 1 [1, 2, 3, 4, 5, 6, 7, 8] ∧
    1 + 8 ≤ (hostWindow (loaded [26, 1, 2, 3, 4, 5, 6, 7, 8])).lim ∧
    (hostWindow (loaded [26, 1, 2, 3, 4, 5, 6, 7])).lim < 1 + 8 :=
  ⟨frameAt_loaded _ (by decide +kernel), rfl, ⟨rfl, rfl, rfl, rfl, rfl, rfl, rfl, rfl, trivial⟩, by decide +kernel,
    by decide +kernel⟩

theorem witness_UnknownFrameTypeResult :
    0x1e < (0x1f : VarVal).toNat ∧ FrameAt (loaded [0x1F]) (hostWindow (loaded [0x1F])) 0 ∧
    readVar (hostWindow (loaded [0x1F])) 0 = .ok (0x1f, 1) := ⟨by decide, frameAt_loaded _ (by decide), rfl⟩

theorem witness_SequenceOnlyMovesForward :
    (∃ t, exec .fseqNext (sequenced [0x01] 0) = .next t ∧ t.lane.fres = .frame) ∧
    (∃ t, exec .fseqNext (sequenced [0x01] 1) = .next t ∧ t.lane.fres ≠ .frame) ∧
    ((loaded []).lane.fstate ≠ .active ∧ ∃ t, exec .fseqNext (loaded []) = .next t) ∧
    (∃ t, exec .frmOne (sequenced [0x01] 0) = .next t) ∧
    (rowOf (.reserved80 0) = ⟨.command, 0x80, 0x80⟩ ∧ ∃ t, exec (.reserved80 0) (sequenced [0x01] 0) = .next t) :=
  ⟨⟨_, rfl, rfl⟩, ⟨_, rfl, by decide⟩, ⟨by decide, _, rfl⟩, ⟨_, rfl⟩, rfl, _, rfl⟩

/-- Two bytes left and three `FSEQ_NEXT`. -/
theorem witness_SequenceIsFinite :
    (sequenced [0x00, 0x01] 0).lane.fcur.toNat ≤ (sequenced [0x00, 0x01] 0).lane.fend.toNat ∧
    (sequenced [0x00, 0x01] 0).lane.fend.toNat - (sequenced [0x00, 0x01] 0).lane.fcur.toNat < 3 ∧
    ∃ t, fseqNextTimes 3 (sequenced [0x00, 0x01] 0) = .next t := ⟨by decide, by decide, _, rfl⟩

/-! #### The host interface and the machine -/

theorem witness_BusyWritesDropped :
    busy.lane.issued = none ∧ busy.lane.st = .busy ∧ 0x000 % 8 = 0 ∧ 0 < busy.params.ibufCap.val := by decide

/-- A lane that a model fault has stopped, with a command written to it. -/
def stoppedLane : State :=
  State.with (loaded []) fun l => { l with fault := some (.unwrittenRead .ibuf 0), cmd := some 0x01 }

theorem witness_CommandIssue :
    let s := pending (.host (.regWrite 0x000 64 0x105)) (loaded [])
    s.lane.issued = none ∧ s.lane.st ≠ .busy ∧ s.lane.fault = none ∧
    s.inbox = [{ lane := s.sel, act := .host (.regWrite 0x000 64 0x105) }] ∧
    stoppedLane.lane.issued = none ∧ stoppedLane.lane.st ≠ .busy ∧ stoppedLane.lane.fault ≠ none := by
  decide

theorem witness_HostWritesReachTheirRegister :
    (loaded []).lane.issued = none ∧ (loaded []).lane.st ≠ .busy ∧ 0x030 % 8 = 0 ∧ 0x030 ≤ 0x030 ∧
    65535 < (loaded []).params.ibufCap.val := by decide

theorem witness_RefusedAccesses :
    (32 ≠ 64 ∧ 0 ≠ 64) ∧ 4 % 8 ≠ 0 ∧ 64 ≠ 8 ∧ (loaded []).params.ibufCap.val ≤ 65536 ∧ (loaded []).params.pbufCap.val ≤ 65536 ∧
    { Config.chosen with ackCap := some 2 }.ackCap = some 2 := by decide

/-- An undefined write on a `BUSY` lane, and an undefined read. -/
theorem witness_RefusedAccesses_mark :
    (hostAccess (.pbufWrite 0 8 1) (pending (.host (.pbufWrite 0 8 1)) busy) = .refused .pbufWrite ∧
      (pending (.host (.pbufWrite 0 8 1)) busy).lane.issued = none) ∧
    (hostAccess (.regRead 4 64) (pending (.host (.regRead 4 64)) (loaded [])) = .refused (.regOffset 4) ∧
      (pending (.host (.regRead 4 64)) (loaded [])).lane.issued = none) := ⟨⟨rfl, rfl⟩, rfl, rfl⟩

/-- A state with plaintext in `PBUF` and one Ack pair, for the reads. -/
theorem witness_HostReadsChangeNothing :
    let s := State.with (loaded [0x7F]) fun l =>
      { l with pbuf := [(0, 0x2A)], pbufLen := 1, ackr := [⟨3, 4⟩], frm := { Frm.zero with nranges := 1 } }
    (0 < s.params.ibufCap.val ∧ Mem.read s.lane.ibuf 0 = some 0x7F) ∧
    (0 < s.params.pbufCap.val ∧ 0 < s.lane.pbufLen.toNat ∧ Mem.read s.lane.pbuf 0 = some 0x2A) ∧
    (s.params.ackCap = none ∧ 0 < s.lane.frm.nranges.toNat ∧ s.lane.ackr[0]? = some ⟨3, 4⟩) ∧
    (s.lane.issued = none ∧ ∃ t, step (pending (.host (.regRead 0x030 64)) s) = .next t) :=
  ⟨by decide, by decide, by decide, rfl, _, rfl⟩

theorem witness_RegisterViews :
    (∃ c p b, busy.lane.err = .clear ∧ (State.with busy fun l => { l with err := .raised c p b }).lane.err = .raised c p b) ∧
    0x1D0 ≤ 0x1D0 :=
  ⟨⟨.pnEof, 5, .ibuf, rfl, rfl⟩, Nat.le_refl _⟩

/-- Two lanes: an issued command, one that faults, an event for the lane in focus, for the other, and for a third. -/
theorem witness_StepRunsDecodedCommand :
    let s := State.resetWith { Config.chosen with nLanes := 2 }
    (State.with s fun l => { l with cmd := some 0x105 }).lane.fault = none ∧
    (State.with s fun l => { l with cmd := some 0x105 }).lane.cmd = some 0x105 ∧
    ran (decodeOpcode 0x00) s (fun l => l.lastCmd) = some 0x00 ∧
    exec (decodeOpcode 0x01) (unwrittenOnLane0 []) = .fault (.unwrittenRead .ibuf 0) ∧
    (stoppedLane.lane.fault = some (.unwrittenRead .ibuf 0) ∧ stoppedLane.inbox = [] ∧
      (pending (.crypto { id := 0, pt := none }) stoppedLane).inbox =
        [{ lane := stoppedLane.sel, act := .crypto { id := 0, pt := none } }]) ∧
    s.lane.issued = none ∧ s.sel = 0 ∧ findLane s.parked 1 = some Lane.reset ∧ s.laneAt 2 = none ∧ s.inbox = [] :=
  ⟨rfl, rfl, by decide, rfl, ⟨rfl, rfl, rfl⟩, rfl, rfl, rfl, rfl, rfl⟩

theorem witness_ResetAbandonsRequest :
    let s : State := { busy with inbox := [{ lane := 0, act := .reset }, { lane := 0, act := .crypto { id := 1, pt := none } }] }
    s.lane.issued = none ∧ s.lane.creqOut = 1 ∧
    s.inbox = [{ lane := s.sel, act := .reset }, { lane := s.sel, act := .crypto { id := 1, pt := none } }] := by decide

/-- Three lanes, with an event for lane 1; and two with a command on lane 0 that its step stops, where lane 1 has been
stopped before. -/
theorem witness_LanesIsolated :
    let s : State := { State.resetWith { Config.chosen with nLanes := 3 } with inbox := [{ lane := 1, act := .reset }] }
    let u : State := { unwrittenOnLane0 [] with parked := [(1, stoppedLane.lane)] }
    (LanesInv s ∧ (∃ t, step s = .next t) ∧ 2 ≠ nextLane s) ∧
    (LanesInv u ∧ (∃ t, step u = .next t) ∧ 1 ≠ nextLane u ∧ u.laneAt 1 = some stoppedLane.lane ∧
      stoppedLane.lane.fault = some (.unwrittenRead .ibuf 0)) :=
  ⟨⟨{ rising := by decide, apart := by decide, idle := by decide }, ⟨_, rfl⟩, by decide⟩,
    { rising := by decide, apart := by decide, idle := by decide }, ⟨_, rfl⟩, by decide, rfl, rfl⟩

/-- A lane with a request outstanding meets every invariant, and so does the block it is the lane of. -/
theorem witness_MemoryInvariantKept :
    EveryLane (MemoryInv busy.params) busy ∧ ∃ t, step (pending .reset busy) = .next t :=
  ⟨⟨{ ibufCanonical := by decide, pbufCanonical := by decide, ibufInside := by decide +kernel, pbufInside := by decide,
      plaintextWritten := fun a h => absurd h (Nat.not_lt_zero a) }, fun x h => by cases h⟩, _, rfl⟩

theorem witness_ProtocolInvariantKept :
    EveryLane ProtocolInv busy ∧ ∃ t, step (pending (.crypto { id := 1, pt := some [0x01] }) busy) = .next t :=
  ⟨⟨{ outstanding := by decide, pendKept := by decide, requestKept := by decide,
      requestTag := fun r h => by cases h; rfl, noneIssued := by decide, hidden := by decide, errorShown := by decide },
    fun x h => by cases h⟩, _, rfl⟩

theorem witness_SequenceInvariantKept :
    EveryLane (SequenceInv Config.chosen) (sequenced [0x00, 0x01] 0) ∧ ∃ t, step (sequenced [0x00, 0x01] 0) = .next t :=
  ⟨⟨{ inside := by decide, ofIbuf := by decide, ofPbuf := by decide, ofNone := by decide, active := by decide,
      inactive := by decide }, fun x h => by cases h⟩, _, rfl⟩

theorem witness_RecordInvariantKept :
    EveryLane (RecordInv busy.params) busy ∧ ∃ t, step (pending (.crypto { id := 1, pt := none }) busy) = .next t :=
  have zero : CidInv Cid.zero := { short := by decide, size := by decide, tail := by decide }
  ⟨⟨{ rcid := zero, dcid := zero, scid := zero, frmCid := zero, pendCids := fun k h => by cases h; exact ⟨zero, zero⟩,
      obufSize := by decide, srtSize := by decide, pdataSize := by decide, ranges := by decide,
      ackrFits := fun n h => (by cases h), payload := Or.inl rfl }, fun x h => by cases h⟩, _, rfl⟩

theorem witness_ResetMeetsInvariants :
    Config.chosen.wf = true ∧ { Config.chosen with nLanes := 1, ibufCap := 1, pbufCap := 0, ackCap := some 0 }.wf = true := by
  decide

theorem witness_WrittenWindowsNeverFault :
    let s := sequenced [0x00, 0x01] 1
    MemoryInv s.params s.lane ∧ SequenceInv s.params s.lane ∧ (hostWindow s).written (low32 s.lane.cur) ∧
    (s.lane.fbuf = .ibuf ∧ (sequenceWindow s).written s.lane.fcur.toNat) :=
  have filled : ∀ a, a < 2 → (Mem.read (sequenced [0x00, 0x01] 1).lane.ibuf a).isSome = true := by decide
  ⟨{ ibufCanonical := by decide, pbufCanonical := by decide, ibufInside := by decide +kernel, pbufInside := by decide,
     plaintextWritten := fun a h => absurd h (Nat.not_lt_zero a) },
    { inside := by decide, ofIbuf := by decide, ofPbuf := by decide, ofNone := by decide, active := by decide,
      inactive := by decide },
    fun a _ h => filled a h, rfl, fun a _ h => filled a h⟩

end Sys2Proof.Tests
end

section
/-! The scope of the block (00_scope.md): what a step is, which accesses are refused, what a reset and a step leave of
the other lanes. -/

namespace Sys2Proof.Proofs
open Sys2Proof Sys2Proof.Machine

/-! ### What one step is, case by case -/

theorem step_of_issued {s : State} {w : Word} (h : s.lane.issued = some w) :
    step s = recordFault s (exec (decodeCommand w) s) := by
  simp [step, fetch, h]

theorem step_of_event {s : State} {e : Event} {rest : List Event} (hc : s.lane.issued = none)
    (hi : s.inbox = e :: rest) : step s = deliver e { s with inbox := rest } := by
  simp [step, fetch, hc, waitStep, hi]

theorem step_of_idle {s : State} (hc : s.lane.issued = none) (hi : s.inbox = []) : step s = .next s := by
  simp [step, fetch, hc, waitStep, hi]

theorem deliver_of_focused {e : Event} {s : State} (h : e.lane = s.sel) : deliver e s = deliverAction e.act s := by
  simp [deliver, focus, h]

theorem deliver_of_parked {e : Event} {s : State} {l : Lane} (hne : e.lane ≠ s.sel)
    (h : findLane s.parked e.lane = some l) :
    deliver e s = deliverAction e.act
      { s with sel := e.lane, lane := l, parked := parkLane (dropLane s.parked e.lane) s.sel s.lane } := by
  simp [deliver, focus, hne, h]

theorem deliver_of_no_lane {e : Event} {s : State} (h : s.laneAt e.lane = none) :
    deliver e s = .next (s.refuse e.lane (.noSuchLane e.lane)) := by
  by_cases hk : e.lane = s.sel
  · simp [State.laneAt, hk] at h
  · have hf : findLane s.parked e.lane = none := by simpa [State.laneAt, hk] using h
    simp [deliver, focus, hk, hf]

/-- An event for the lane in focus happens there. -/
theorem step_of_own_event {s : State} {a : Action} {rest : List Event} (hc : s.lane.issued = none)
    (hi : s.inbox = { lane := s.sel, act := a } :: rest) : step s = deliverAction a { s with inbox := rest } :=
  (step_of_event hc hi).trans (deliver_of_focused rfl)

/-- A lane that is not `BUSY` drops every response (R172). -/
theorem cryptoResponse_of_not_busy {pr : Params} {r : CryptoResp} {l : Lane} (h : l.st ≠ .busy) :
    cryptoResponse pr r l = l := by
  simp [cryptoResponse, h]

/-- A lane that a model fault has stopped drops every response (R64). -/
theorem cryptoResponse_of_fault {pr : Params} {r : CryptoResp} {l : Lane} {f : Fault} (h : l.fault = some f) :
    cryptoResponse pr r l = l := by
  simp [cryptoResponse, h]

/-- A response that does nothing to its lane is consumed and the block goes on (R172). -/
theorem step_of_dropped_response {s : State} {r : CryptoResp} {rest : List Event} (hc : s.lane.issued = none)
    (hi : s.inbox = { lane := s.sel, act := .crypto r } :: rest) (hd : cryptoResponse s.params r s.lane = s.lane) :
    step s = .next { s with inbox := rest } := by
  rw [step_of_own_event hc hi]
  simp only [deliverAction, hd]

/-! ### Isolation of the lanes -/

theorem nextLane_of_issued {s : State} {w : Word} (h : s.lane.issued = some w) : nextLane s = s.sel := by
  simp [nextLane, h]

theorem nextLane_of_event {s : State} {e : Event} {rest : List Event} (hc : s.lane.issued = none)
    (hi : s.inbox = e :: rest) : nextLane s = e.lane := by
  simp [nextLane, hc, hi]

/-- What `t` keeps of the block `s` when only lane `k` has moved. -/
structure Isolated (k : Nat) (s t : State) : Prop where
  lanes : LanesInv t
  params : t.params = s.params
  count : t.parked.length = s.parked.length
  others : ∀ j, j ≠ k → t.laneAt j = s.laneAt j
  faults : ∀ j l f, s.laneAt j = some l → l.fault = some f → ∃ l', t.laneAt j = some l' ∧ l'.fault = some f
  marks : ∃ more, t.refusals = s.refusals ++ more

theorem Isolated.refl {s : State} (k : Nat) (hs : LanesInv s) : Isolated k s s where
  lanes := hs
  params := rfl
  count := rfl
  others _ _ := rfl
  faults _ l _ hl hf := ⟨l, hl, hf⟩
  marks := ⟨[], by simp⟩

/-- A change of the lane in focus alone, which keeps its fault mark, with any reply and refusal marks added. -/
theorem Isolated.of_lane {s : State} (hs : LanesInv s) {l : Lane}
    (hfault : ∀ f, s.lane.fault = some f → l.fault = some f) (reply : Option Word) (more : List (Nat × Refusal))
    (free : Nat) :
    Isolated s.sel s { s with lane := l, reply := reply, refusals := s.refusals ++ more, free := free } where
  lanes := ⟨hs.rising, hs.apart, hs.idle⟩
  params := rfl
  count := rfl
  others j hj := by simp [State.laneAt, hj]
  faults j x f hx hf := by
    by_cases hj : j = s.sel
    · obtain rfl : s.lane = x := by simpa [State.laneAt, hj] using hx
      exact ⟨l, by simp [State.laneAt, hj], hfault f hf⟩
    · exact ⟨x, by simpa [State.laneAt, hj] using hx, hf⟩
  marks := ⟨more, rfl⟩

/-- Bringing lane `k` into focus moves no lane, so what then happens there is isolated to lane `k`. -/
theorem Isolated.of_focus {k : Nat} {s s' t : State} (hf : focus k s = some s') (hs : LanesInv s)
    (hc : s.lane.issued = none) (h : LanesInv s' → Isolated s'.sel s' t) : Isolated k s t := by
  obtain ⟨hsel, hpar, -, hmarks, -⟩ := focus_some hf
  obtain ⟨hs', hcount, hat⟩ := focus_lanes hf hs hc
  obtain ⟨lanes, params, count, others, faults, marks⟩ := h hs'
  simp only [hsel, hpar, hmarks, hcount, hat] at params count others faults marks
  exact ⟨lanes, params, count, others, faults, marks⟩

/-- The events still to come are no part of what isolation speaks of. -/
theorem Isolated.of_inbox {k : Nat} {s t : State} {inbox : List Event} (h : Isolated k { s with inbox := inbox } t) :
    Isolated k s t :=
  ⟨h.lanes, h.params, h.count, h.others, h.faults, h.marks⟩

/-- A refusal mark is no lane's. -/
theorem Isolated.refuse {k j : Nat} {r : Refusal} {s t : State} (h : Isolated k s t) : Isolated k s (t.refuse j r) where
  lanes := ⟨h.lanes.rising, h.lanes.apart, h.lanes.idle⟩
  params := h.params
  count := h.count
  others := h.others
  faults := h.faults
  marks := by
    obtain ⟨more, hm⟩ := h.marks
    exact ⟨more ++ [(j, r)], by simp [hm]⟩

/-- Every step is isolated to the lane it belongs to: an issued command runs in focus, an event happens on its lane. -/
theorem step_isolated {s t : State} (hs : LanesInv s) (h : step s = .next t) : Isolated (nextLane s) s t := by
  rcases step_next h with ⟨w, hw, h | ⟨f, -, rfl⟩⟩ | ⟨-, -, rfl⟩ | ⟨e, rest, hc, hi, -, rfl⟩ |
    ⟨e, rest, s', l, r, n, more, hc, hi, hfo, rfl, hl⟩
  case inl.inl =>
    have keeps : ∀ f, s.lane.fault = some f → t.lane.fault = some f := fun f hf => (exec_keeps_fault h).trans hf
    rw [nextLane_of_issued hw, exec_frame h]
    simpa using Isolated.of_lane hs keeps s.reply [] s.free
  case inl.inr =>
    have running : s.lane.fault = none := (Lane.issued_some.1 hw).1
    rw [nextLane_of_issued hw]
    simpa using Isolated.of_lane (l := s.lane.stopped f) hs (by simp [running]) s.reply [] s.free
  case inr.inl => exact .refl _ hs
  case inr.inr.inl =>
    rw [nextLane_of_event hc hi]
    exact .of_inbox (.refuse (.refl _ ⟨hs.rising, hs.apart, hs.idle⟩))
  case inr.inr.inr =>
    rw [nextLane_of_event hc hi]
    refine .of_inbox (.of_focus hfo ⟨hs.rising, hs.apart, hs.idle⟩ hc fun hs' => ?_)
    exact .of_lane hs' (fun f hf => hl.fault.trans hf) r more n

/-- Settles O54: a step is total by `step_total`, and isolated to its lane by `step_isolated`. -/
theorem lanesIsolated : Obligations.LanesIsolated := by
  refine ⟨step_total, fun s t hs h => ?_⟩
  obtain ⟨lanes, params, count, others, faults, marks⟩ := step_isolated hs h
  exact ⟨lanes, params, count, others, faults, marks⟩

/-! ### Refused accesses -/

/-- The accesses the interface does not define, each with the name it is refused under (R66, R70). Only the parameters
decide: the state of the lane does not. -/
inductive Undefined (pr : Params) : Access → Refusal → Prop where
  | regReadWidth {off width : Nat} : width ≠ 64 → Undefined pr (.regRead off width) (.regWidth width)
  | regReadOffset {off : Nat} : off % 8 ≠ 0 → Undefined pr (.regRead off 64) (.regOffset off)
  | regWriteWidth {off width : Nat} {v : Word} : width ≠ 64 → Undefined pr (.regWrite off width v) (.regWidth width)
  | regWriteOffset {off : Nat} {v : Word} : off % 8 ≠ 0 → Undefined pr (.regWrite off 64 v) (.regOffset off)
  | ibufReadWidth {off width : Nat} : width ≠ 8 → Undefined pr (.ibufRead off width) (.bufWidth width)
  | ibufReadRange {off : Nat} : pr.ibufCap.val ≤ off → Undefined pr (.ibufRead off 8) (.bufRange off)
  | ibufWriteWidth {off width : Nat} {v : Byte} : width ≠ 8 → Undefined pr (.ibufWrite off width v) (.bufWidth width)
  | ibufWriteRange {off : Nat} {v : Byte} : pr.ibufCap.val ≤ off → Undefined pr (.ibufWrite off 8 v) (.bufRange off)
  | pbufReadWidth {off width : Nat} : width ≠ 8 → Undefined pr (.pbufRead off width) (.bufWidth width)
  | pbufReadRange {off : Nat} : pr.pbufCap.val ≤ off → Undefined pr (.pbufRead off 8) (.bufRange off)
  | pbufWrite {off width : Nat} {v : Byte} : Undefined pr (.pbufWrite off width v) .pbufWrite
  | ackrReadWidth {idx width : Nat} {word : AckWord} : width ≠ 64 →
      Undefined pr (.ackrRead idx word width) (.ackrWidth width)
  | ackrReadRange {idx n : Nat} {word : AckWord} : pr.ackCap = some n → n ≤ idx →
      Undefined pr (.ackrRead idx word 64) (.ackrRange idx)
  | ackrWrite {idx : Nat} {word : AckWord} {v : Word} : Undefined pr (.ackrWrite idx word v) .ackrWrite

theorem Undefined.refused {a : Access} {r : Refusal} {s : State} (h : Undefined s.params a r) :
    hostAccess a s = .refused r := by
  cases h <;> simp [hostAccess, *]

@[simp] theorem ackRead_ne_refused (s : State) (idx : Nat) (word : AckWord) (r : Refusal) :
    hostAccess.ackRead s idx word ≠ .refused r := by
  unfold hostAccess.ackRead
  split
  · split <;> simp [hostRead, hostReadFree]
  · simp [hostReadFree]

theorem undefined_of_refused {a : Access} {r : Refusal} {s : State} (h : hostAccess a s = .refused r) :
    Undefined s.params a r := by
  cases a with
  | regRead off width =>
    simp only [hostAccess] at h
    split_ifs at h with hw ho
    · cases h; exact .regReadWidth hw
    · cases h; obtain rfl := not_not.1 hw; exact .regReadOffset ho
    · cases h
  | regWrite off width v =>
    simp only [hostAccess] at h
    split_ifs at h with hw ho
    · cases h; exact .regWriteWidth hw
    · cases h; obtain rfl := not_not.1 hw; exact .regWriteOffset ho
    · cases h
  | ibufRead off width =>
    simp only [hostAccess] at h
    split_ifs at h with hw ho
    · cases h; exact .ibufReadWidth hw
    · cases h; obtain rfl := not_not.1 hw; exact .ibufReadRange ho
    · split at h <;> cases h
  | ibufWrite off width v =>
    simp only [hostAccess] at h
    split_ifs at h with hw ho
    · cases h; exact .ibufWriteWidth hw
    · cases h; obtain rfl := not_not.1 hw; exact .ibufWriteRange ho
    · cases h
  | pbufRead off width =>
    simp only [hostAccess] at h
    split_ifs at h with hw ho
    · cases h; exact .pbufReadWidth hw
    · cases h; obtain rfl := not_not.1 hw; exact .pbufReadRange ho
    · split at h <;> cases h
    · cases h
  | pbufWrite off width v => cases h; exact .pbufWrite
  | ackrRead idx word width =>
    simp only [hostAccess] at h
    split_ifs at h with hw
    · cases h; exact .ackrReadWidth hw
    · obtain rfl := not_not.1 hw
      split at h
      · exact absurd h (ackRead_ne_refused s idx word r)
      · rename_i n hn
        split_ifs at h with hle
        · cases h; exact .ackrReadRange hn hle
        · exact absurd h (ackRead_ne_refused s idx word r)
  | ackrWrite idx word v => cases h; exact .ackrWrite

/-- An access is refused exactly when it is undefined, whatever the lane's state (R70; log entry 6). -/
theorem hostAccess_refused_iff {a : Access} {r : Refusal} {s : State} :
    hostAccess a s = .refused r ↔ Undefined s.params a r :=
  ⟨undefined_of_refused, Undefined.refused⟩

/-- The step that takes an undefined access leaves its mark and nothing else (R11, R70). -/
theorem step_of_undefined {s : State} {a : Access} {r : Refusal} {rest : List Event} (h : Undefined s.params a r)
    (hc : s.lane.issued = none) (hi : s.inbox = { lane := s.sel, act := .host a } :: rest) :
    step s = .next (State.refuse s.sel r { s with inbox := rest }) := by
  have hr : hostAccess a { s with inbox := rest } = .refused r := hostAccess_refused_iff.2 h
  rw [step_of_own_event hc hi]
  simp only [deliverAction, hr, recordRefusal_refused]

/-- Settles O48: each undefined access is a case of `Undefined`, and the step of one is `step_of_undefined`. -/
theorem refusedAccesses : Obligations.RefusedAccesses := by
  intro s
  refine ⟨fun off width v h => ⟨?_, ?_⟩, fun off v h => ⟨?_, ?_⟩, fun off width v h => ⟨?_, ?_, ?_⟩,
    fun off v h => ⟨?_, ?_⟩, fun off h => ?_, fun off width v => ?_, fun idx word v => ?_, fun idx word width h => ?_,
    fun idx word n hn h => ?_, fun a r rest h hc hi => step_of_undefined (hostAccess_refused_iff.1 h) hc hi⟩
  all_goals rw [hostAccess_refused_iff]
  · exact .regReadWidth h
  · exact .regWriteWidth h
  · exact .regReadOffset h
  · exact .regWriteOffset h
  · exact .ibufReadWidth h
  · exact .ibufWriteWidth h
  · exact .pbufReadWidth h
  · exact .ibufReadRange h
  · exact .ibufWriteRange h
  · exact .pbufReadRange h
  · exact .pbufWrite
  · exact .ackrWrite
  · exact .ackrReadWidth h
  · exact .ackrReadRange hn h

/-! ### The step and the decoded command -/

/-- A model fault that the issued command reaches is recorded on its lane (R11, R64; log entry 5). -/
theorem stopped_of_issued {l : Lane} {w : Word} (h : l.cmd = some w) (f : Fault) :
    l.stopped f = { l with cmd := none, lastCmd := w.extractLsb' 0 8, fault := some f } := by
  simp only [Lane.stopped, Lane.issuedOpcode_some h]
  rfl

/-- Settles O52: the equations of `step` above, one for each case. -/
theorem stepRunsDecodedCommand : Obligations.StepRunsDecodedCommand := by
  intro s
  refine ⟨fun w hf hw => ?_, fun f hf => ⟨?_, fun r rest hi => ?_⟩, fun e rest hc hi => ⟨?_, fun l hne hl => ?_, ?_⟩,
    step_of_idle⟩
  · have hstep : step s = recordFault s (exec (decodeOpcode (w.extractLsb' 0 8)) s) :=
      step_of_issued (Lane.issued_some.2 ⟨hf, hw⟩)
    refine ⟨fun t ht => ?_, fun f hx => ?_, exec_not_refused _ s⟩
    · rw [hstep, ht]; rfl
    · rw [hstep, hx, ← stopped_of_issued hw]; rfl
  · exact step_of_idle (Lane.issued_of_fault hf)
  · exact step_of_dropped_response (Lane.issued_of_fault hf) hi (cryptoResponse_of_fault hf)
  · exact fun hk => (step_of_event hc hi).trans (deliver_of_focused hk)
  · exact (step_of_event hc hi).trans (deliver_of_parked hne hl)
  · exact fun hn => (step_of_event hc hi).trans (deliver_of_no_lane hn)

/-! ### Reset -/

/-- Settles O53: the lane in reset is not `BUSY`, so it drops the response. -/
theorem resetAbandonsRequest : Obligations.ResetAbandonsRequest := by
  intro s r rest hc hi
  refine ⟨_, rfl, step_of_own_event hc hi, ?_⟩
  have idle : s.lane.restart.st ≠ .busy := by simp [Lane.restart, Lane.reset]
  exact step_of_dropped_response (Lane.restart_issued s.lane) rfl (cryptoResponse_of_not_busy idle)

theorem reset_memoryInv (pr : Params) : MemoryInv pr Lane.reset where
  ibufCanonical := rfl
  pbufCanonical := rfl
  ibufInside := by simp [Lane.reset]
  pbufInside := by simp [Lane.reset]
  plaintextWritten := by simp [Lane.reset]

theorem reset_protocolInv : ProtocolInv Lane.reset where
  outstanding := by decide
  pendKept := by decide
  requestKept := by decide
  requestTag := by simp [Lane.reset]
  noneIssued := by decide
  hidden := by decide
  errorShown := by decide

theorem reset_sequenceInv (pr : Params) : SequenceInv pr Lane.reset where
  inside := by decide
  ofIbuf := by simp [Lane.reset]
  ofPbuf := by decide
  ofNone := by decide
  active := by decide
  inactive := by decide

theorem reset_recordInv (pr : Params) : RecordInv pr Lane.reset where
  rcid := Cid.zero_inv
  dcid := Cid.zero_inv
  scid := Cid.zero_inv
  frmCid := Cid.zero_inv
  pendCids := by simp [Lane.reset]
  obufSize := rfl
  srtSize := rfl
  pdataSize := rfl
  ranges := by decide
  ackrFits := by simp [Lane.reset]
  payload := .inl rfl

theorem mem_resetWith_parked {p : Params} {x : Nat × Lane} :
    x ∈ (State.resetWith p).parked ↔ (1 ≤ x.1 ∧ x.1 < p.nLanes) ∧ x.2 = Lane.reset := by
  obtain ⟨k, l⟩ := x
  simp only [State.resetWith, List.mem_map, List.mem_range, Prod.mk.injEq]
  constructor
  · rintro ⟨j, hj, rfl, rfl⟩
    exact ⟨by omega, rfl⟩
  · rintro ⟨hk, rfl⟩
    exact ⟨k - 1, by omega, by omega, rfl⟩

/-- After reset the block is made of lanes in reset. -/
theorem resetWith_everyLane {P : Lane → Prop} (p : Params) (h : P Lane.reset) : EveryLane P (State.resetWith p) :=
  ⟨h, fun _ hx => (mem_resetWith_parked.1 hx).2 ▸ h⟩

theorem resetWith_parked_keys (p : Params) :
    (State.resetWith p).parked.map Prod.fst = (List.range (p.nLanes - 1)).map (· + 1) := by
  simp [State.resetWith]

theorem resetWith_lanesInv (p : Params) : LanesInv (State.resetWith p) where
  rising := by
    rw [resetWith_parked_keys, List.pairwise_map]
    exact List.pairwise_lt_range.imp fun h => Nat.succ_lt_succ h
  apart := by
    rw [resetWith_parked_keys]
    simp [State.resetWith]
  idle x hx := by
    rw [(mem_resetWith_parked.1 hx).2]
    rfl

/-- A lane listed under a number is found under it. -/
theorem exists_findLane_of_mem {ls : List (Nat × Lane)} {k : Nat} {l : Lane} (h : (k, l) ∈ ls) :
    ∃ l', findLane ls k = some l' := by
  induction ls with
  | nil => simp at h
  | cons y ls ih =>
    simp only [findLane]
    by_cases hk : y.1 = k
    · exact ⟨y.2, if_pos hk⟩
    · rw [if_neg hk]
      rcases List.mem_cons.1 h with rfl | h
      · exact absurd rfl hk
      · exact ih h

theorem resetWith_laneAt {p : Params} {k : Nat} (h : k < p.nLanes) :
    (State.resetWith p).laneAt k = some Lane.reset := by
  by_cases hk : k = 0
  · subst hk; rfl
  · have listed : (k, Lane.reset) ∈ (State.resetWith p).parked := mem_resetWith_parked.2 ⟨by simp only; omega, rfl⟩
    obtain ⟨l, hl⟩ := exists_findLane_of_mem listed
    obtain rfl : l = Lane.reset := (mem_resetWith_parked.1 (findLane_mem hl)).2
    exact (if_neg hk).trans hl

/-- Settles O59: the lane in reset meets each invariant, and the block is made of lanes in reset. -/
theorem resetMeetsInvariants : Obligations.ResetMeetsInvariants := by
  intro p hp
  have lanes : 1 ≤ p.nLanes := by
    simp only [Params.wf, Bool.and_eq_true, decide_eq_true_eq] at hp
    exact hp.1
  have count : (State.resetWith p).parked.length + 1 = p.nLanes := by
    simp only [State.resetWith, List.length_map, List.length_range]
    omega
  exact ⟨resetWith_everyLane p (reset_memoryInv p), resetWith_everyLane p reset_protocolInv,
    resetWith_everyLane p (reset_sequenceInv p), resetWith_everyLane p (reset_recordInv p),
    resetWith_lanesInv p, count, fun k => resetWith_laneAt⟩

end Sys2Proof.Proofs
end

section
/-! The invariants of a lane (10_state.md): every step keeps the buffers, the frame sequence and the result records in
form, and the Crypto protocol. -/

namespace Sys2Proof.Machine
open Sys2Proof.Proofs

/-! ### Invariants of the buffers, the sequence and the records -/

/-- The second lane has the buffers, the records, `PEND` and the frame sequence of the first. The host's registers, the
status, the Crypto port and the fault mark may differ. -/
inductive SameRecords (l : Lane) : Lane → Prop where
  | intro {isServer : BitVec 1} {ilen cur arg0 arg1 : Word} {cmd : Option Word} {st : St} {wdrop : BitVec 1}
      {lastCmd : Byte} {err : ErrReg} {pendLim : Off} {creqId : BitVec 8} {creqOut : BitVec 1} {creq : Option CryptoReq}
      {fault : Option Fault} :
      SameRecords l { l with
        isServer := isServer, ilen := ilen, cur := cur, arg0 := arg0, arg1 := arg1, cmd := cmd, st := st,
        wdrop := wdrop, lastCmd := lastCmd, err := err, pendLim := pendLim, creqId := creqId, creqOut := creqOut,
        creq := creq, fault := fault }

theorem writeReg_sameRecords (l : Lane) (off : Nat) (v : Word) : SameRecords l (writeReg l off v) := by
  unfold writeReg
  split <;> exact .intro

/-- A write to a register, or one that is dropped (R69), changes no record. -/
theorem unlessBusy_writeReg_sameRecords (l : Lane) (off : Nat) (v : Word) :
    SameRecords l (unlessBusy (fun x => writeReg x off v) l) := by
  unfold unlessBusy
  split
  · exact .intro
  · exact writeReg_sameRecords l off v

/-- What error entry of `FSEQ_NEXT` clears (R245): without a sequence only `FRES` shows it. -/
theorem clearResults_fseqNext (e : ErrCause) (l : Lane) :
    clearResults .fseqNext e l = { l with fres := .error } ∨
    clearResults .fseqNext e l = { l with frm := Frm.zero, fstate := .failed, fres := .error } := by
  by_cases he : e = .wrongState
  · exact .inl (if_pos he)
  · exact .inr (if_neg he)

/-- A property of the records of a lane that each thing a step can do to them keeps. -/
structure LaneInvariant (P : Params → Lane → Prop) : Prop where
  same : ∀ {pr l l'}, P pr l → SameRecords l l' → P pr l'
  byte : ∀ {pr l off} (v : Byte), P pr l → off < pr.ibufCap.val → P pr { l with ibuf := Mem.write l.ibuf off v }
  clear : ∀ {pr l}, P pr l → P pr (clearLane l)
  committed : ∀ {pr l l'}, P pr l → Committed pr l l' → P pr l'
  cleared : ∀ {pr l} (c : Cmd) (e : ErrCause), P pr l → P pr (clearResults c e l)
  completed : ∀ {pr l} {pt : List Byte}, P pr l → pt.length ≤ pr.pbufCap.val → P pr (completeOk pt l)
  reset : ∀ pr, P pr Lane.reset

namespace LaneInvariant
variable {P : Params → Lane → Prop}

theorem errorEntry_keeps (hP : LaneInvariant P) {pr : Params} {l : Lane} (c : Cmd) (e : ErrCause) (p : Nat)
    (h : P pr l) : P pr (errorEntry c e p l) :=
  hP.same (hP.cleared c e h) .intro

theorem exec_keeps (hP : LaneInvariant P) {i : Instr} {s t : State} (hs : P s.params s.lane)
    (h : exec i s = .next t) : P s.params t.lane := by
  have accepted : ∀ op, P s.params (s.lane.accept op) := fun op => hP.same hs .intro
  rcases exec_next h with e | e | ⟨c, op, rule, -, hc | ⟨e, p, -, hl⟩⟩
  · exact e ▸ accepted _
  · exact e ▸ hP.clear (accepted _)
  · exact hP.committed (accepted op) hc
  · exact hl ▸ hP.errorEntry_keeps c e p (accepted op)

theorem effect_keeps (hP : LaneInvariant P) {pr : Params} {l l' : Lane} (hl : P pr l) (h : Effect pr l l') :
    P pr l' := by
  have failed : ∀ cause, P pr (completeError cause l) := fun cause =>
    hP.errorEntry_keeps .pktParse cause _ (hP.same hl .intro)
  cases h with
  | kept => exact hl
  | reg off v => exact hP.same hl (unlessBusy_writeReg_sameRecords l off v)
  | byte off v hoff =>
    unfold unlessBusy
    split
    · exact hP.same hl .intro
    · exact hP.byte v hl hoff
  | response r =>
    rcases cryptoResponse_cases pr r l with ⟨e, -⟩ | ⟨-, ⟨-, e⟩ | ⟨_, -, -, e⟩ | ⟨pt, -, fits, e⟩⟩ <;> rw [e]
    · exact hl
    · exact failed _
    · exact failed _
    · exact hP.completed hl fits
  | reset => exact hP.same (hP.reset pr) .intro

/-- Every step keeps it of every lane. -/
theorem step_keeps (hP : LaneInvariant P) {s t : State} (hs : EveryLane (P s.params) s) (h : step s = .next t) :
    EveryLane (P t.params) t :=
  step_everyLane (fun _ _ _ hp _ hx => hP.exec_keeps hp hx) (fun _ _ _ _ hp _ => hP.same hp .intro)
    (fun _ _ _ hp he => hP.effect_keeps hp he) hs h

end LaneInvariant

/-! ### The buffers -/

/-- With `PBUF_LEN` at 0 no plaintext byte has to be written. -/
theorem MemoryInv.noPlaintext {pr : Params} {l l' : Lane} (h : MemoryInv pr l) (hi : l'.ibuf = l.ibuf)
    (hp : l'.pbuf = l.pbuf) (h0 : l'.pbufLen = 0) : MemoryInv pr l' where
  ibufCanonical := hi ▸ h.ibufCanonical
  pbufCanonical := hp ▸ h.pbufCanonical
  ibufInside := hi ▸ h.ibufInside
  pbufInside := hp ▸ h.pbufInside
  plaintextWritten a ha := by simp [h0] at ha

theorem MemoryInv.committed {pr : Params} {l l' : Lane} (h : MemoryInv pr l) (hc : Committed pr l l') :
    MemoryInv pr l' := by
  cases hc with
  | header hd w p0 _ _ => unfold finishHeader; split <;> exact h.noPlaintext rfl rfl rfl
  | frame d w p out _ _ _ => cases d <;> exact { h with }
  | _ => exact { h with }

theorem MemoryInv.cleared {pr : Params} {l : Lane} (c : Cmd) (e : ErrCause) (h : MemoryInv pr l) :
    MemoryInv pr (clearResults c e l) := by
  cases c
  case pktParse => exact h.noPlaintext rfl rfl rfl
  case fseqNext => rcases clearResults_fseqNext e l with hr | hr <;> rw [hr] <;> exact { h with }
  all_goals exact { h with }

/-- A plaintext that fits `PBUF` is written from byte 0 up (R170). -/
theorem MemoryInv.completed {pr : Params} {l : Lane} {pt : List Byte} (h : MemoryInv pr l)
    (fits : pt.length ≤ pr.pbufCap.val) : MemoryInv pr (completeOk pt l) where
  ibufCanonical := h.ibufCanonical
  pbufCanonical := Mem.wf_writeAll pt _ 0 h.pbufCanonical
  ibufInside := h.ibufInside
  pbufInside c hc := by
    rcases Mem.mem_writeAll pt _ 0 c hc with hnew | hold
    · omega
    · exact h.pbufInside c hold
  plaintextWritten a ha := by
    have inside : a < pt.length := Nat.lt_of_lt_of_le ha (Nat.mod_le _ _)
    simp [completeOk, Mem.read_writeAll, inside]

theorem memoryInv_laneInvariant : LaneInvariant MemoryInv where
  same h hs := by cases hs; exact { h with }
  byte {pr l off} v h hoff := { h with
    ibufCanonical := Mem.wf_write _ _ _ h.ibufCanonical
    ibufInside := fun c hc => (Mem.mem_write _ _ _ c hc).elim (· ▸ hoff) (h.ibufInside c) }
  clear h := h.noPlaintext rfl rfl rfl
  committed := MemoryInv.committed
  cleared := MemoryInv.cleared
  completed := MemoryInv.completed
  reset := reset_memoryInv

/-- Settles O55: the buffers change by host writes of bytes and by completions, and both keep their form. -/
theorem memoryInvariantKept : Obligations.MemoryInvariantKept := fun _ _ => memoryInv_laneInvariant.step_keeps

/-! ### The frame sequence -/

/-- A lane without a sequence, whether it was never begun or has ended (R37). -/
theorem sequenceInv_of_no_buffer (pr : Params) {l : Lane} (hb : l.fbuf = .none) (hc : l.fcur = 0) (he : l.fend = 0)
    (ha : l.fstate ≠ .active) : SequenceInv pr l where
  inside := by simp [hc]
  ofIbuf h := by simp [hb] at h
  ofPbuf h := by simp [hb] at h
  ofNone _ := he
  active h := absurd h ha
  inactive _ := hb

/-- `FSEQ_NEXT` moves the position inside the window (R194, R195). -/
theorem SequenceInv.moved {pr : Params} {l : Lane} {w : Window} {p : Nat} {out : FrameOut} (h : SequenceInv pr l)
    (hw : frameWindow .next pr l = .ok (w, p)) (fits : FrameFits pr w p out) :
    SequenceInv pr (commitFrame .next out l) := by
  have inside := fits.inside
  cases hw
  exact { h with inside := Nat.le_trans (Nat.mod_le _ _) inside }

theorem SequenceInv.committed {pr : Params} {l l' : Lane} (h : SequenceInv pr l) (hc : Committed pr l l') :
    SequenceInv pr l' := by
  cases hc with
  | header hd w p0 _ _ =>
    unfold finishHeader
    split <;> exact sequenceInv_of_no_buffer pr rfl rfl rfl nofun
  | frame d w p out hw fits _ =>
    cases d with
    | one => exact { h with }
    | next => exact h.moved hw fits
  | begun hcap hcur =>
    have hlt := low32_lt l.ilen
    have fend : (BitVec.ofNat 32 (low32 l.ilen)).toNat = low32 l.ilen := Nat.mod_eq_of_lt hlt
    have fcur : (BitVec.ofNat 32 (low32 l.cur)).toNat = low32 l.cur := Nat.mod_eq_of_lt (Nat.lt_of_le_of_lt hcur hlt)
    exact { inside := fcur.le.trans (hcur.trans fend.ge), ofIbuf := fun _ => fend.le.trans hcap, ofPbuf := nofun,
            ofNone := nofun, active := nofun, inactive := nofun }
  | ended _ _ => exact { h with active := nofun, inactive := nofun }
  | _ => exact { h with }

theorem SequenceInv.cleared {pr : Params} {l : Lane} (c : Cmd) (e : ErrCause) (h : SequenceInv pr l) :
    SequenceInv pr (clearResults c e l) := by
  cases c
  case pktParse => exact sequenceInv_of_no_buffer pr rfl rfl rfl nofun
  case fseqBegin => exact sequenceInv_of_no_buffer pr rfl rfl rfl nofun
  case fseqNext =>
    rcases clearResults_fseqNext e l with hr | hr <;> rw [hr]
    · exact { h with }
    · exact { h with active := nofun, inactive := nofun }
  all_goals exact { h with }

theorem sequenceInv_laneInvariant : LaneInvariant SequenceInv where
  same h hs := by cases hs; exact { h with }
  byte _ h _ := { h with }
  clear {pr _} _ := sequenceInv_of_no_buffer pr rfl rfl rfl nofun
  committed := SequenceInv.committed
  cleared := SequenceInv.cleared
  completed _ _ :=
    { inside := Nat.zero_le _, ofIbuf := nofun, ofPbuf := fun _ => rfl, ofNone := nofun, active := nofun,
      inactive := nofun }
  reset := reset_sequenceInv

/-- Settles O57: a sequence begins inside its buffer, moves inside its window, and goes when its buffer's contents go. -/
theorem sequenceInvariantKept : Obligations.SequenceInvariantKept := fun _ _ => sequenceInv_laneInvariant.step_keeps

/-! ### The result records -/

/-- The pairs of an Ack frame are in `ACKR` after the commit, and `ACKR` stays within its capacity (R42). -/
theorem RecordInv.frame {pr : Params} {l : Lane} {w : Window} {p : Nat} {out : FrameOut} (d : FrameCmd)
    (h : RecordInv pr l) (fits : FrameFits pr w p out) : RecordInv pr (commitFrame d out l) := by
  have size : (writeRanges l.ackr out.ranges).length = max out.ranges.length l.ackr.length := by
    simp only [writeRanges, List.length_append, List.length_drop]
    omega
  have ranges : out.frm.nranges.toNat ≤ (writeRanges l.ackr out.ranges).length :=
    size ▸ fits.counted.trans (Nat.le_max_left _ _)
  have ackrFits : ∀ n, pr.ackCap = some n → (writeRanges l.ackr out.ranges).length ≤ n := fun n hn =>
    size ▸ Nat.max_le.2 ⟨fits.capped n hn, h.ackrFits n hn⟩
  cases d <;>
    exact { h with
      frmCid := fits.cid, srtSize := fits.srt, pdataSize := fits.pdata, ranges := ranges, ackrFits := ackrFits }

/-- A lane whose frame record is all 0, and whose other records are in form. -/
theorem RecordInv.noFrame {pr : Params} {l : Lane} (h : RecordInv pr l) : RecordInv pr { l with frm := Frm.zero } :=
  { h with frmCid := Cid.zero_inv, srtSize := rfl, pdataSize := rfl, ranges := Nat.zero_le _ }

/-- No packet, no payload, no frame and nothing waiting in `PEND` (R167, R174, R245). -/
theorem RecordInv.noResults {pr : Params} {l : Lane} (h : RecordInv pr l) :
    RecordInv pr { l with pkt := Pkt.zero, pay := Slice.zero, pbufLen := 0, pend := none, frm := Frm.zero } :=
  { h.noFrame with dcid := Cid.zero_inv, scid := Cid.zero_inv, pendCids := nofun, payload := .inl rfl }

theorem RecordInv.committed {pr : Params} {l l' : Lane} (h : RecordInv pr l) (hc : Committed pr l l') :
    RecordInv pr l' := by
  cases hc with
  | encoded bs fits => exact { h with obufSize := padBytes_length fits }
  | cid c cur hc => exact { h with rcid := hc }
  | header hd w p0 _ fits =>
    unfold finishHeader
    split
    · exact { h.noResults with dcid := fits.dcid, scid := fits.scid, pendCids := h.pendCids }
    · exact { h.noResults with pendCids := fun k hk => by cases hk; exact ⟨fits.dcid, fits.scid⟩ }
  | frame d w p out _ fits _ => exact h.frame d fits
  | value _ _ => exact { h with }
  | begun _ _ => exact { h.noFrame with }
  | finished _ => exact { h.noFrame with }
  | ended _ _ => exact { h.noFrame with }

theorem RecordInv.cleared {pr : Params} {l : Lane} (c : Cmd) (e : ErrCause) (h : RecordInv pr l) :
    RecordInv pr (clearResults c e l) := by
  cases c
  case varintEnc => exact { h with obufSize := rfl }
  case cidDec => exact { h with rcid := Cid.zero_inv }
  case pktParse => exact { h.noResults with }
  case frmOne => exact { h.noFrame with }
  case fseqBegin => exact { h.noFrame with }
  case fseqNext =>
    rcases clearResults_fseqNext e l with hr | hr <;> rw [hr]
    · exact { h with }
    · exact { h.noFrame with }
  all_goals exact { h with }

theorem RecordInv.pendingRecord {pr : Params} {l : Lane} (h : RecordInv pr l) :
    CidInv (pendingRecord l).dcid ∧ CidInv (pendingRecord l).scid := by
  unfold Machine.pendingRecord
  split
  · exact ⟨Cid.zero_inv, Cid.zero_inv⟩
  · rename_i k hk
    exact h.pendCids k hk

theorem recordInv_laneInvariant : LaneInvariant RecordInv where
  same h hs := by cases hs; exact { h with }
  byte _ h _ := { h with }
  clear h := { h.noResults with rcid := Cid.zero_inv, obufSize := rfl }
  committed := RecordInv.committed
  cleared := RecordInv.cleared
  completed h _ :=
    { h with dcid := h.pendingRecord.1, scid := h.pendingRecord.2, pendCids := nofun, payload := .inr rfl }
  reset := reset_recordInv

/-- Settles O58: what a rule writes to a record is in form, and what clears a record leaves 0. -/
theorem recordInvariantKept : Obligations.RecordInvariantKept := fun _ _ => recordInv_laneInvariant.step_keeps

/-! ### The Crypto protocol -/

/-- The protocol of a lane that is not `BUSY`: nothing is outstanding, nothing waits, and `ERR` agrees with `ST`. -/
structure Quiet (l : Lane) : Prop where
  notBusy : l.st ≠ .busy
  noneOut : l.creqOut ≠ 1
  noPend : l.pend = none
  noRequest : l.creq = none
  errorShown : l.st = .error ↔ l.err ≠ .clear

theorem Quiet.protocolInv {l : Lane} (h : Quiet l) : ProtocolInv l where
  outstanding := iff_of_false h.notBusy h.noneOut
  pendKept := iff_of_false (by simp [h.noPend]) h.noneOut
  requestKept := iff_of_false (by simp [h.noRequest]) h.noneOut
  requestTag r hr := by simp [h.noRequest] at hr
  noneIssued hb := absurd hb h.notBusy
  hidden hb := absurd hb h.notBusy
  errorShown := h.errorShown

theorem ProtocolInv.quiet {l : Lane} (h : ProtocolInv l) (hb : l.st ≠ .busy) : Quiet l where
  notBusy := hb
  noneOut := fun ho => hb (h.outstanding.2 ho)
  noPend := by simpa using fun hp => hb (h.outstanding.2 (h.pendKept.1 hp))
  noRequest := by simpa using fun hr => hb (h.outstanding.2 (h.requestKept.1 hr))
  errorShown := h.errorShown

/-- A lane with a command issued is not `BUSY` (R69, R273). -/
theorem ProtocolInv.quiet_of_issued {l : Lane} {w : Word} (h : ProtocolInv l) (hw : l.issued = some w) : Quiet l :=
  h.quiet fun hb => nomatch (h.noneIssued hb).symm.trans (Lane.issued_some.1 hw).2

theorem Quiet.accept {l : Lane} (op : Byte) (h : Quiet l) : Quiet (l.accept op) := { h with }

theorem Quiet.errorEntry {l : Lane} (c : Cmd) (e : ErrCause) (p : Nat) (h : Quiet l) : Quiet (errorEntry c e p l) where
  notBusy := nofun
  noneOut := by simpa using h.noneOut
  noPend := by
    cases c
    case fseqNext =>
      simp only [Machine.errorEntry]
      rcases clearResults_fseqNext e l with hr | hr <;> rw [hr] <;> exact h.noPend
    case pktParse => rfl
    all_goals exact h.noPend
  noRequest := by simpa using h.noRequest
  errorShown := by simp

/-- A commit that leaves the Crypto port alone. -/
theorem Quiet.done {l l' : Lane} (h : Quiet l) (hs : l'.st = .done) (he : l'.err = .clear)
    (hport : l'.creqOut = l.creqOut ∧ l'.creq = l.creq ∧ l'.pend = l.pend) : Quiet l' := by
  obtain ⟨hout, hreq, hpend⟩ := hport
  exact { notBusy := by simp [hs], noneOut := hout ▸ h.noneOut, noPend := hpend ▸ h.noPend,
          noRequest := hreq ▸ h.noRequest, errorShown := by simp [hs, he] }

/-- Issuing a request establishes the protocol whatever stood before (R167). -/
theorem issueCrypto_protocolInv (h : Header) (epoch : Epoch) (p0 lim : Nat) {l : Lane} (hcmd : l.cmd = none) :
    ProtocolInv (issueCrypto h epoch p0 lim l) where
  outstanding := by simp [issueCrypto]
  pendKept := by simp [issueCrypto]
  requestKept := by simp [issueCrypto]
  requestTag r hr := by cases hr; rfl
  noneIssued _ := hcmd
  hidden _ := ⟨rfl, rfl, rfl, rfl, rfl, rfl⟩
  errorShown := by simp [issueCrypto]

theorem Quiet.committed {pr : Params} {l l' : Lane} (h : Quiet l) (hcmd : l.cmd = none) (hc : Committed pr l l') :
    ProtocolInv l' := by
  cases hc with
  | header hd w p0 _ _ =>
    unfold finishHeader
    split
    · exact Quiet.protocolInv (h.done rfl rfl ⟨rfl, rfl, rfl⟩)
    · exact issueCrypto_protocolInv hd _ p0 w.lim hcmd
  | frame d w p out _ _ _ => cases d <;> exact Quiet.protocolInv (h.done rfl rfl ⟨rfl, rfl, rfl⟩)
  | _ => exact Quiet.protocolInv (h.done rfl rfl ⟨rfl, rfl, rfl⟩)

theorem Quiet.clear {l : Lane} (h : Quiet l) : Quiet (clearLane l) where
  notBusy := nofun
  noneOut := h.noneOut
  noPend := rfl
  noRequest := h.noRequest
  errorShown := by simp [clearLane]

/-- A completion ends the request, with a result or with error entry (R170, R171). -/
theorem completeOk_quiet (pt : List Byte) (l : Lane) : Quiet (completeOk pt l) where
  notBusy := nofun
  noneOut := by simp [completeOk]
  noPend := rfl
  noRequest := rfl
  errorShown := by simp [completeOk]

theorem completeError_quiet (cause : ErrCause) (l : Lane) : Quiet (completeError cause l) where
  notBusy := nofun
  noneOut := by simp [completeError]
  noPend := rfl
  noRequest := by simp [completeError]
  errorShown := by simp [completeError]

/-- An instruction runs on a lane that is not `BUSY`, and leaves the protocol in order (R120). -/
theorem exec_protocolInv {w : Word} {s t : State} (hs : ProtocolInv s.lane) (hw : s.lane.issued = some w)
    (h : exec (decodeCommand w) s = .next t) : ProtocolInv t.lane := by
  have quiet : ∀ op, Quiet (s.lane.accept op) := fun op => (hs.quiet_of_issued hw).accept op
  rcases exec_next h with e | e | ⟨c, op, rule, -, hc | ⟨e, p, -, hl⟩⟩
  · exact e ▸ (quiet _).protocolInv
  · exact e ▸ (quiet _).clear.protocolInv
  · exact (quiet op).committed rfl hc
  · exact hl ▸ ((quiet op).errorEntry c e p).protocolInv

/-- A write to a register while the lane is not `BUSY` may issue a command and changes nothing else of the protocol. -/
theorem writeReg_quiet {l : Lane} (off : Nat) (v : Word) (h : Quiet l) : Quiet (writeReg l off v) := by
  unfold writeReg
  split <;> exact { h with }

theorem ProtocolInv.unlessBusy {l : Lane} {effect : Lane → Lane} (h : ProtocolInv l)
    (he : Quiet l → Quiet (effect l)) : ProtocolInv (unlessBusy effect l) := by
  unfold Machine.unlessBusy
  split
  · exact { h with }
  · rename_i hb
    exact (he (h.quiet hb)).protocolInv

theorem Effect.protocolInv {pr : Params} {l l' : Lane} (hl : ProtocolInv l) (h : Effect pr l l') : ProtocolInv l' := by
  cases h with
  | kept => exact hl
  | reg off v => exact hl.unlessBusy (writeReg_quiet off v)
  | byte off v _ => exact hl.unlessBusy fun q => { q with }
  | response r =>
    rcases cryptoResponse_cases pr r l with ⟨e, -⟩ | ⟨-, ⟨-, e⟩ | ⟨_, -, -, e⟩ | ⟨pt, -, -, e⟩⟩ <;> rw [e]
    · exact hl
    · exact (completeError_quiet _ l).protocolInv
    · exact (completeError_quiet _ l).protocolInv
    · exact (completeOk_quiet pt l).protocolInv
  | reset => exact { reset_protocolInv with }

theorem ProtocolInv.stopped {l : Lane} (f : Fault) (h : ProtocolInv l) : ProtocolInv (l.stopped f) :=
  { h with noneIssued := fun _ => rfl }

/-- Settles O56: a command runs on a quiet lane, issuing a request sets up the protocol and its completion ends it. -/
theorem protocolInvariantKept : Obligations.ProtocolInvariantKept := fun _ _ =>
  step_everyLane (P := fun _ => ProtocolInv) (fun _ _ _ => exec_protocolInv) (fun _ _ _ f h _ => h.stopped f)
    (fun _ _ _ => Effect.protocolInv)

end Sys2Proof.Machine
end

section
/-! The frame of a command (10_state.md R20, R61, R62), the host's accesses (20_memory.md R66, R67) and what the registers
show (10_state.md R24, R26, R45, R46). -/

namespace Sys2Proof.Machine
open Sys2Proof.Proofs

/-! ### What a command leaves alone -/

/-- The second lane has the host's registers, the buffers and the pending command of the first. -/
structure HostStateKept (l l' : Lane) : Prop where
  isServer : l'.isServer = l.isServer
  ilen : l'.ilen = l.ilen
  arg0 : l'.arg0 = l.arg0
  arg1 : l'.arg1 = l.arg1
  ibuf : l'.ibuf = l.ibuf
  pbuf : l'.pbuf = l.pbuf
  cmd : l'.cmd = l.cmd

theorem Committed.hostStateKept {pr : Params} {l l' : Lane} (h : Committed pr l l') : HostStateKept l l' := by
  cases h with
  | header hd w p0 _ _ => unfold finishHeader; split <;> exact ⟨rfl, rfl, rfl, rfl, rfl, rfl, rfl⟩
  | frame d w p out _ _ _ => cases d <;> exact ⟨rfl, rfl, rfl, rfl, rfl, rfl, rfl⟩
  | _ => exact ⟨rfl, rfl, rfl, rfl, rfl, rfl, rfl⟩

theorem errorEntry_hostStateKept (c : Cmd) (e : ErrCause) (p : Nat) (l : Lane) :
    HostStateKept l (errorEntry c e p l) := by
  constructor <;> simp

theorem exec_hostStateKept {i : Instr} {s t : State} (h : exec i s = .next t) :
    ∃ op, HostStateKept (s.lane.accept op) t.lane := by
  rcases exec_next h with e | e | ⟨c, op, rule, -, hc | ⟨e, p, -, hl⟩⟩
  · rw [e]
    exact ⟨_, rfl, rfl, rfl, rfl, rfl, rfl, rfl⟩
  · rw [e]
    exact ⟨0x09, rfl, rfl, rfl, rfl, rfl, rfl, rfl⟩
  · exact ⟨op, hc.hostStateKept⟩
  · exact ⟨op, hl ▸ errorEntry_hostStateKept c e p _⟩

/-- Settles O16: commits and error entry keep the host's state of the accepted lane, which has no command pending. -/
theorem commandLeavesHostState : Obligations.CommandLeavesHostState := by
  intro i s t h
  obtain ⟨op, kept⟩ := exec_hostStateKept h
  have ibuf : t.lane.ibuf = s.lane.ibuf := kept.ibuf
  have pbuf : t.lane.pbuf = s.lane.pbuf := kept.pbuf
  exact ⟨kept.isServer, kept.ilen, kept.arg0, kept.arg1, fun a => by rw [ibuf], fun a => by rw [pbuf], kept.cmd,
    exec_frame h⟩

/-! ### Host writes -/

/-- Offsets above the plain registers ignore a write (R47). -/
theorem writeReg_of_read_only (l : Lane) {off : Nat} (v : Word) (h : 0x030 ≤ off) : writeReg l off v = l := by
  unfold writeReg
  split
  case h_7 => rfl
  all_goals omega

/-- The step that takes a write to a register while the lane is not `BUSY` (R67). -/
theorem step_of_regWrite {s : State} {off : Nat} {v : Word} {rest : List Event} (hc : s.lane.issued = none)
    (hb : s.lane.st ≠ .busy) (hoff : off % 8 = 0)
    (hi : s.inbox = { lane := s.sel, act := .host (.regWrite off 64 v) } :: rest) :
    step s = .next { s with inbox := rest, lane := writeReg s.lane off v } := by
  rw [step_of_own_event hc hi]
  simp [deliverAction, hostAccess, hostWrite, unlessBusy, hoff, hb]

/-- The step that takes a write to a byte of `IBUF` while the lane is not `BUSY` (R67). -/
theorem step_of_ibufWrite {s : State} {off : Nat} {v : Byte} {rest : List Event} (hc : s.lane.issued = none)
    (hb : s.lane.st ≠ .busy) (hoff : off < s.params.ibufCap.val)
    (hi : s.inbox = { lane := s.sel, act := .host (.ibufWrite off 8 v) } :: rest) :
    step s = .next { s with inbox := rest, lane := { s.lane with ibuf := Mem.write s.lane.ibuf off v } } := by
  rw [step_of_own_event hc hi]
  simp [deliverAction, hostAccess, hostWrite, unlessBusy, Nat.not_le.2 hoff, hb]

/-- Settles O47: each write is `writeReg` at its offset, or `Mem.write` at its address. -/
theorem hostWritesReachTheirRegister : Obligations.HostWritesReachTheirRegister := by
  intro s rest hc hb
  refine ⟨fun v => step_of_regWrite hc hb (by decide), fun v => step_of_regWrite hc hb (by decide),
    fun v => step_of_regWrite hc hb (by decide), fun v => step_of_regWrite hc hb (by decide),
    fun v => step_of_regWrite hc hb (by decide), fun off v hoff hro hi => ?_, fun off v hoff hi => ?_⟩
  · rw [step_of_regWrite hc hb hoff hi, writeReg_of_read_only _ _ hro]
  · exact ⟨_, step_of_ibufWrite hc hb hoff hi, Mem.read_write_same _ _ _, fun a => Mem.read_write_other _ _ a _⟩

/-! ### Host reads -/

/-- The accesses that read (R66). -/
inductive IsRead : Access → Prop where
  | reg (off width : Nat) : IsRead (.regRead off width)
  | ibuf (off width : Nat) : IsRead (.ibufRead off width)
  | pbuf (off width : Nat) : IsRead (.pbufRead off width)
  | ackr (idx : Nat) (word : AckWord) (width : Nat) : IsRead (.ackrRead idx word width)

/-- Nothing but the reply and the counter of free values differs. -/
inductive Replied (s : State) : State → Prop where
  | intro (r : Option Word) (n : Nat) : Replied s { s with reply := r, free := n }

theorem hostRead_replied {s t : State} {v : Word} (h : hostRead v s = .next t) : Replied s t := by
  cases h; exact .intro (some v) s.free

theorem hostReadFree_replied {s t : State} {v : Nat → Word} (h : hostReadFree v s = .next t) : Replied s t := by
  cases h; exact .intro _ _

theorem ackRead_replied {s t : State} {idx : Nat} {word : AckWord} (h : hostAccess.ackRead s idx word = .next t) :
    Replied s t := by
  unfold hostAccess.ackRead at h
  split at h
  · split at h
    · exact hostRead_replied h
    · exact hostReadFree_replied h
  · exact hostReadFree_replied h

/-- A read that is answered changes the reply and the counter of free values only (R67). -/
theorem hostAccess_replied {a : Access} {s t : State} (ha : IsRead a) (h : hostAccess a s = .next t) :
    Replied s t := by
  cases ha with
  | reg off width =>
    simp only [hostAccess] at h
    split_ifs at h
    exact hostRead_replied h
  | ibuf off width =>
    simp only [hostAccess] at h
    split_ifs at h
    split at h
    · exact hostRead_replied h
    · exact hostReadFree_replied h
  | pbuf off width =>
    simp only [hostAccess] at h
    split_ifs at h
    · split at h
      · exact hostRead_replied h
      · exact hostReadFree_replied h
    · exact hostReadFree_replied h
  | ackr idx word width =>
    simp only [hostAccess] at h
    split_ifs at h
    split at h
    · exact ackRead_replied h
    · split_ifs at h
      exact ackRead_replied h

/-- A read, answered or refused, changes no lane, no parameter and no focus (R67; a refused one: log entry 6). -/
theorem deliverAction_of_read {a : Access} {s t : State} (ha : IsRead a) (h : deliverAction (.host a) s = .next t) :
    t.lane = s.lane ∧ t.parked = s.parked ∧ t.sel = s.sel ∧ t.params = s.params ∧ t.inbox = s.inbox := by
  simp only [deliverAction] at h
  cases hx : hostAccess a s with
  | next u =>
    rw [hx] at h
    cases h
    cases hostAccess_replied ha hx
    exact ⟨rfl, rfl, rfl, rfl, rfl⟩
  | fault f => exact absurd hx (hostAccess_ne_fault a s f)
  | refused r =>
    rw [hx] at h
    cases h
    exact ⟨rfl, rfl, rfl, rfl, rfl⟩

theorem hostAccess_regRead (s : State) {off : Nat} (h : off % 8 = 0) :
    hostAccess (.regRead off 64) s = .next { s with reply := some (readReg s.lane off) } := by
  simp [hostAccess, hostRead, h]

theorem hostAccess_ibufRead {s : State} {off : Nat} {b : Byte} (h : off < s.params.ibufCap.val)
    (hb : Mem.read s.lane.ibuf off = some b) :
    hostAccess (.ibufRead off 8) s = .next { s with reply := some (b.setWidth 64) } := by
  simp [hostAccess, hostRead, Nat.not_le.2 h, hb]

theorem hostAccess_pbufRead {s : State} {off : Nat} {b : Byte} (h : off < s.params.pbufCap.val)
    (hl : off < s.lane.pbufLen.toNat) (hb : Mem.read s.lane.pbuf off = some b) :
    hostAccess (.pbufRead off 8) s = .next { s with reply := some (b.setWidth 64) } := by
  simp [hostAccess, hostRead, Nat.not_le.2 h, hl, hb]

theorem hostAccess_ackrRead {s : State} {idx : Nat} {r : AckRange} (word : AckWord)
    (h : ∀ n, s.params.ackCap = some n → idx < n) (hn : idx < s.lane.frm.nranges.toNat)
    (hr : s.lane.ackr[idx]? = some r) :
    hostAccess (.ackrRead idx word 64) s = .next { s with reply := some (r.word word) } := by
  have entry : hostAccess.ackRead s idx word = hostRead (r.word word) s := by
    simp only [hostAccess.ackRead, if_pos hn, hr]
  cases hcap : s.params.ackCap with
  | none => simp [hostAccess, hcap, entry, hostRead]
  | some n => simp [hostAccess, hcap, Nat.not_le.2 (h n hcap), entry, hostRead]

/-- Settles O49: a read changes only the reply, and the reply is the register, byte or entry that was named. -/
theorem hostReadsChangeNothing : Obligations.HostReadsChangeNothing := by
  refine ⟨fun s t a rest hc hi ha h => ?_, fun s _ => hostAccess_regRead s, fun _ _ _ => hostAccess_ibufRead,
    fun _ _ _ => hostAccess_pbufRead,
    fun s idx r hcap hn hr => ⟨hostAccess_ackrRead .gap hcap hn hr, hostAccess_ackrRead .rlen hcap hn hr⟩⟩
  have read : IsRead a := by
    rcases ha with ⟨off, w, rfl⟩ | ⟨off, w, rfl⟩ | ⟨off, w, rfl⟩ | ⟨idx, word, w, rfl⟩
    · exact .reg off w
    · exact .ibuf off w
    · exact .pbuf off w
    · exact .ackr idx word w
  rw [step_of_own_event hc hi] at h
  exact deliverAction_of_read read h

/-! ### Fields of registers -/

/-- Bits `a+b-1 : a` of a register that is given as a number. -/
theorem extractLsb'_ofNat_eq {n a b : Nat} {x : BitVec b} (h : n % 2 ^ 64 / 2 ^ a % 2 ^ b = x.toNat) :
    (BitVec.ofNat 64 n).extractLsb' a b = x := by
  apply BitVec.eq_of_toNat_eq
  rw [BitVec.extractLsb'_toNat, BitVec.toNat_ofNat, Nat.shiftRight_eq_div_pow, h]

theorem St.code_lt (x : St) : x.code < 4 := by cases x <;> decide
theorem FState.code_lt (x : FState) : x.code < 4 := by cases x <;> decide
theorem FRes.code_lt (x : FRes) : x.code < 4 := by cases x <;> decide
theorem BufSel.code_lt (x : BufSel) : x.code < 3 := by cases x <;> decide
theorem PktKind.code_lt (x : PktKind) : x.code < 7 := by cases x <;> decide
theorem FrmKind.code_lt (x : FrmKind) : x.code < 21 := by cases x <;> decide
theorem ErrCause.kind_lt (x : ErrCause) : x.kind < 6 := by cases x <;> decide
theorem ErrCause.sub_lt (x : ErrCause) : x.sub < 13 := by cases x <;> decide

/-- The fields of `STATUS` (R24). -/
theorem statusWord_fields (l : Lane) :
    (statusWord l).extractLsb' 0 2 = BitVec.ofNat 2 l.st.code ∧
    (statusWord l).extractLsb' 2 2 = BitVec.ofNat 2 l.fstate.code ∧
    (statusWord l).extractLsb' 4 2 = BitVec.ofNat 2 l.fres.code ∧
    (statusWord l).extractLsb' 6 2 = 0 ∧ (statusWord l).extractLsb' 8 1 = l.wdrop ∧
    (statusWord l).extractLsb' 9 7 = 0 ∧ (statusWord l).extractLsb' 16 8 = l.lastCmd ∧
    (statusWord l).extractLsb' 24 40 = 0 := by
  have st := l.st.code_lt
  have fstate := l.fstate.code_lt
  have fres := l.fres.code_lt
  unfold statusWord
  refine ⟨?_, ?_, ?_, ?_, ?_, ?_, ?_, ?_⟩ <;> apply extractLsb'_ofNat_eq <;> bv_omega

/-- The fields of `ERR` when an error stands (R26). -/
theorem errWord_fields (cause : ErrCause) (pos : Off) (buf : BufSel) :
    (errWord (.raised cause pos buf)).extractLsb' 0 4 = BitVec.ofNat 4 cause.kind ∧
    (errWord (.raised cause pos buf)).extractLsb' 4 4 = 0 ∧
    (errWord (.raised cause pos buf)).extractLsb' 8 8 = BitVec.ofNat 8 cause.sub ∧
    (errWord (.raised cause pos buf)).extractLsb' 16 32 = pos ∧
    (errWord (.raised cause pos buf)).extractLsb' 48 3 = BitVec.ofNat 3 buf.code ∧
    (errWord (.raised cause pos buf)).extractLsb' 51 13 = 0 := by
  have kind := cause.kind_lt
  have sub := cause.sub_lt
  have code := buf.code_lt
  simp only [errWord]
  refine ⟨?_, ?_, ?_, ?_, ?_, ?_⟩ <;> apply extractLsb'_ofNat_eq <;> bv_omega

/-- The fields of `PKT_INFO` (R45). -/
theorem pktInfoWord_fields (k : Pkt) :
    (pktInfoWord k).extractLsb' 0 3 = BitVec.ofNat 3 k.kind.code ∧
    (pktInfoWord k).extractLsb' 3 1 = k.form ∧ (pktInfoWord k).extractLsb' 4 1 = k.spin ∧
    (pktInfoWord k).extractLsb' 5 1 = k.keyPhase ∧ (pktInfoWord k).extractLsb' 8 3 = k.pnLen ∧
    (pktInfoWord k).extractLsb' 16 8 = k.byte0 ∧
    (pktInfoWord k).extractLsb' 6 2 = 0 ∧ (pktInfoWord k).extractLsb' 11 5 = 0 ∧
    (pktInfoWord k).extractLsb' 24 40 = 0 := by
  have kind := k.kind.code_lt
  unfold pktInfoWord
  refine ⟨?_, ?_, ?_, ?_, ?_, ?_, ?_, ?_, ?_⟩ <;> apply extractLsb'_ofNat_eq <;> bv_omega

/-- The fields of `FRM_INFO` (R45). -/
theorem frmInfoWord_fields (f : Frm) :
    (frmInfoWord f).extractLsb' 0 5 = BitVec.ofNat 5 f.kind.code ∧
    (frmInfoWord f).extractLsb' 8 1 = f.fin ∧ (frmInfoWord f).extractLsb' 9 1 = f.offP ∧
    (frmInfoWord f).extractLsb' 10 1 = f.lenP ∧ (frmInfoWord f).extractLsb' 11 1 = f.ecnP ∧
    (frmInfoWord f).extractLsb' 12 1 = f.ftP ∧
    (frmInfoWord f).extractLsb' 5 3 = 0 ∧ (frmInfoWord f).extractLsb' 13 51 = 0 := by
  have kind := f.kind.code_lt
  unfold frmInfoWord
  refine ⟨?_, ?_, ?_, ?_, ?_, ?_, ?_, ?_⟩ <;> apply extractLsb'_ofNat_eq <;> bv_omega

/-- The fields of `CREQ` (R45). -/
theorem creqWord_fields (l : Lane) :
    (creqWord l).extractLsb' 0 8 = l.creqId ∧ (creqWord l).extractLsb' 8 1 = l.creqOut ∧
    (creqWord l).extractLsb' 9 55 = 0 := by
  unfold creqWord
  refine ⟨?_, ?_, ?_⟩ <;> apply extractLsb'_ofNat_eq <;> bv_omega

/-- The halves of a start and length register (R45). -/
theorem spanWord_fields (start len : Off) :
    (spanWord start len).extractLsb' 0 32 = start ∧ (spanWord start len).extractLsb' 32 32 = len := by
  unfold spanWord
  refine ⟨?_, ?_⟩ <;> apply extractLsb'_ofNat_eq <;> bv_omega

/-! ### The register map -/

/-- Every register is 0 after reset (R270). -/
theorem readReg_reset (off : Nat) : readReg Lane.reset off = 0 := by
  unfold readReg
  split <;> rfl

/-- The offsets above the map are reserved (R47). -/
theorem readReg_of_reserved (l : Lane) {off : Nat} (h : 0x1D0 ≤ off) : readReg l off = 0 := by
  unfold readReg
  split
  case h_59 => rfl
  all_goals omega

/-- The two halves of the tag registers make the tag (R45). -/
theorem readReg_tag (l : Lane) : readReg l 0x0E8 ++ readReg l 0x0F0 = l.pkt.tag := by
  have joined : l.pkt.tag.extractLsb' 64 64 ++ l.pkt.tag.extractLsb' 0 64 = l.pkt.tag.extractLsb' 0 128 :=
    BitVec.extractLsb'_append_extractLsb'_eq_extractLsb' (start₂ := 64) (start₁ := 0) rfl
  exact joined.trans BitVec.extractLsb'_eq_self

/-- Settles O50: the fields of the packed registers, and the map read off `readReg`. -/
theorem registerViews : Obligations.RegisterViews := by
  refine ⟨statusWord_fields, fun l cause pos buf h => ?_, fun l h => ?_, readReg_reset, fun l _ => readReg_of_reserved l,
    fun l => ⟨rfl, rfl, rfl, rfl, rfl, rfl, rfl, rfl, rfl, rfl, rfl, rfl, rfl, rfl, readReg_tag l, rfl, rfl, rfl, rfl,
      rfl, rfl, rfl, rfl, rfl, rfl, rfl, rfl, rfl, rfl, rfl, rfl, rfl⟩,
    rfl, rfl, rfl, rfl, rfl, rfl, rfl, rfl, rfl⟩
  · have err : readReg l 0x038 = errWord (.raised cause pos buf) := congrArg errWord h
    rw [err]
    exact errWord_fields cause pos buf
  · exact congrArg errWord h

/-! ### Packed byte strings -/

/-- A byte of a big-endian number, by the bytes that follow it (R7). -/
theorem beNat_byte (before after : List Byte) (b : Byte) :
    beNat (before ++ b :: after) / 256 ^ after.length % 256 = b.toNat := by
  have split : beNat (before ++ b :: after) = (beNat before * 256 + b.toNat) * 256 ^ after.length + beNat after := by
    rw [beNat, List.foldl_append, foldl_be, List.length_cons, beNat_cons, Nat.pow_succ]
    simp only [beNat]
    ring
  have hlt := beNat_lt after
  have hb := b.isLt
  rw [split, Nat.mul_comm, Nat.mul_add_div (by positivity), Nat.div_eq_of_lt hlt]
  omega

/-- Byte `j` of a register that packs 8 bytes, counted from the top (R46). -/
theorem extractLsb'_beNat {bs : List Byte} {j : Nat} (hlen : bs.length = 8) (hj : j < 8) :
    (BitVec.ofNat 64 (beNat bs)).extractLsb' (56 - 8 * j) 8 = bs[j] := by
  apply extractLsb'_ofNat_eq
  have hlt : beNat bs < 2 ^ 64 := by simpa [hlen] using beNat_lt bs
  have hbyte := beNat_byte (bs.take j) (bs.drop (j + 1)) bs[j]
  rw [← List.drop_eq_getElem_cons, List.take_append_drop, List.length_drop] at hbyte
  have weight : 256 ^ (bs.length - (j + 1)) = 2 ^ (56 - 8 * j) := by
    rw [hlen, show 256 = 2 ^ 8 from rfl, ← Nat.pow_mul]
    congr 1
    omega
  rw [Nat.mod_eq_of_lt hlt, ← weight, ← hbyte]
  rfl

/-- Byte `j` of register `k` of a byte string (R46). -/
theorem packedWord_byte (bs : List Byte) (k : Nat) {j : Nat} (hj : j < 8) :
    (packedWord bs k).extractLsb' (56 - 8 * j) 8 = (bs[8 * k + j]?).getD 0 := by
  have hlen : (padBytes 8 ((bs.drop (8 * k)).take 8)).length = 8 := padBytes_length (List.length_take_le _ _)
  rw [packedWord, extractLsb'_beNat hlen hj]
  simp only [padBytes, List.getElem_append, List.getElem_replicate, List.getElem_take, List.getElem_drop,
    List.length_take, List.length_drop]
  split
  · rw [List.getElem?_eq_getElem (by omega), Option.getD_some]
  · rw [List.getElem?_eq_none (by omega), Option.getD_none]

/-- Settles O51: the bytes of `packedWord` and the fields of the info registers. -/
theorem packedRegisters : Obligations.PackedRegisters := by
  refine ⟨fun bs k j => packedWord_byte bs k,
    fun l => ⟨rfl, rfl, rfl, rfl, rfl, rfl, rfl, rfl, rfl, rfl, rfl, rfl, rfl, rfl, rfl, rfl⟩,
    fun l off start len h => ?_, fun l => ?_⟩
  · have word : readReg l off = spanWord start len := by
      simp only [List.mem_cons, List.not_mem_nil, Prod.mk.injEq, or_false] at h
      rcases h with ⟨rfl, rfl, rfl⟩ | ⟨rfl, rfl, rfl⟩ | ⟨rfl, rfl, rfl⟩ | ⟨rfl, rfl, rfl⟩ <;> rfl
    rw [word]
    exact spanWord_fields start len
  · obtain ⟨p1, p2, p3, p4, p5, p6, p7, p8, p9⟩ := pktInfoWord_fields l.pkt
    obtain ⟨f1, f2, f3, f4, f5, f6, f7, f8⟩ := frmInfoWord_fields l.frm
    exact ⟨p1, p2, p3, p4, p5, p6, p7, p8, p9, f1, f2, f3, f4, f5, f6, f7, f8, creqWord_fields l⟩

end Sys2Proof.Machine
end

section
/-! The Ack frames (42_frames.md R199, R200), from what the step of a frame row is when its rule commits or raises. -/

namespace Sys2Proof.Machine
open Sys2Proof.Proofs

/-! ### The step of a frame row -/

/-- The window the frame command in a state is executed on. -/
theorem frameWindow_of_frameAt {s : State} {w : Window} {p : Nat} (h : FrameAt s w p) (op : Byte) :
    frameWindow (frameCmdOf s) s.params (s.lane.accept op) = .ok (w, p) := by
  unfold FrameAt at h
  split at h
  · rename_i hd
    obtain ⟨⟨hcap, hcur⟩, rfl, rfl⟩ := h
    rw [hd]
    exact ibufWindow_of_ok hcap hcur
  · rename_i hd
    obtain ⟨rfl, rfl⟩ := h
    rw [hd]
    rfl

/-- What the parse of a row's frame answers, its rule answers from the position after the type (R190). -/
theorem frameCommand_parseRow {i : Instr} {rule : FrameRule} {s : State} {w : Window} {p : Nat} {t : VarVal} {p1 : Nat}
    (hw : FrameAt s w p) (ht : readVar w p = .ok (t, p1)) (op : Byte) :
    frameCommand (frameCmdOf s) (parseRow i rule) s.params (s.lane.accept op) =
      (rule s.params w p (frameStart (frameTypeOf i)) p1 >>= fun out =>
        .ok (commitFrame (frameCmdOf s) out (s.lane.accept op))) := by
  simp only [frameCommand, frameWindow_of_frameAt hw, parse_ok_bind, parseRow, ht]

section
variable {i : Instr} {s : State} {w : Window} {p p1 : Nat} {t : VarVal}

/-- A frame row whose rule commits (R192, R194). -/
theorem exec_row_of_ok (hi : spaceOf i = .frame) (hw : FrameAt s w p) (ht : readVar w p = .ok (t, p1)) {out : FrameOut}
    (h : frameRule i s.params w p (frameStart (frameTypeOf i)) p1 = .ok out) :
    exec i s = .next (frameCommitted s out.frm out.ranges out.pos) := by
  have committed : ∀ op, frameCommand (frameCmdOf s) (parseRow i (frameRule i)) s.params (s.lane.accept op) =
      .ok (commitFrame (frameCmdOf s) out (s.lane.accept op)) := fun op => by
    rw [frameCommand_parseRow hw ht, h, parse_ok_bind]
  rw [exec_row hi, runRow, runCommand_of_ok (committed _)]
  unfold frameCommitted
  cases frameCmdOf s <;> rfl

/-- A frame row whose rule raises (R245). -/
theorem exec_row_of_raise (hi : spaceOf i = .frame) (hw : FrameAt s w p) (ht : readVar w p = .ok (t, p1)) {c : ErrCause}
    {q : Nat} (h : frameRule i s.params w p (frameStart (frameTypeOf i)) p1 = raise c q) (hc : c ≠ .wrongState) :
    exec i s = .next (frameFailed s c q) := by
  have raised : ∀ op, frameCommand (frameCmdOf s) (parseRow i (frameRule i)) s.params (s.lane.accept op) =
      raise c q := fun op => by
    rw [frameCommand_parseRow hw ht, h, parse_bind_raise]
  rw [exec_row hi, runRow, runCommand_of_raise (raised _)]
  unfold frameFailed
  cases frameCmdOf s with
  | one => rfl
  | next =>
    simp only [FrameCmd.cmd, errorEntry, clearResults, posBufOf, if_neg hc]
    rfl

end

/-! ### VarInts in a row -/

/-- A reader that starts with the VarInt at `p`, one of several of which the first short one starts at `q`, raises
there, if it does so after reading the VarInt. -/
theorem readVar_bind_short {α : Type} {w : Window} {n p q : Nat} {k : VarVal × Nat → Parse α}
    (h : VarIntsShort w (n + 1) p q)
    (hk : ∀ v p1, readVar w p = .ok (v, p1) → VarIntsShort w n p1 q → k (v, p1) = raise .varintEof q) :
    (readVar w p >>= k) = raise .varintEof q := by
  rcases h with ⟨hshort, rfl⟩ | ⟨v, p1, hv, hrest⟩
  · rw [readVar_short hshort, parse_bind_raise]
  · rw [hv, parse_ok_bind]
    exact hk v p1 hv hrest

/-- With no byte left the first VarInt is the short one. -/
theorem varIntsShort_at_end {w : Window} {n p q : Nat} (h : VarIntsShort w n p q) (hp : w.lim ≤ p) : q = p := by
  cases n with
  | zero => exact h.elim
  | succ n =>
    rcases h with ⟨-, rfl⟩ | ⟨v, p1, hv, -⟩
    · rfl
    · have := readVar_bounds hv
      omega

/-! ### The pairs of an Ack frame -/

/-- Each pair takes at least two bytes of the window. -/
theorem pairsAt_bounds {w : Window} {p q : Nat} {rs : List AckRange} (h : PairsAt w p rs q) (hp : p ≤ w.lim) :
    p + 2 * rs.length ≤ q ∧ q ≤ w.lim := by
  induction rs generalizing p with
  | nil => cases h; simp [hp]
  | cons r rs ih =>
    obtain ⟨p1, p2, h1, h2, h3⟩ := h
    have b1 := readVar_bounds h1
    have b2 := readVar_bounds h2
    have := ih h3 b2.2
    simp only [List.length_cons]
    omega

@[simp] theorem ackPairs_zero (cap : Option Nat) (w : Window) (fuel i p : Nat) :
    ackPairs cap w fuel 0 i p = .ok ([], p) := by
  cases fuel <;> rfl

/-- One pair and those after it: the capacity is looked at once the pair has been read (R199). -/
theorem ackPairs_succ {cap : Option Nat} {w : Window} {fuel left i p p1 p2 : Nat} {gap rlen : VarVal}
    (h1 : readVar w p = .ok (gap, p1)) (h2 : readVar w p1 = .ok (rlen, p2)) :
    ackPairs cap w (fuel + 1) (left + 1) i p =
      if pastAckCap cap i then raise .ackRanges p
      else (ackPairs cap w fuel left (i + 1) p2 >>= fun x => .ok ({ gap := gap, rlen := rlen } :: x.1, x.2)) := by
  simp only [ackPairs, h1, h2, parse_ok_bind, Nat.add_sub_cancel]
  rfl

theorem pastAckCap_of_fits {cap : Option Nat} {i : Nat} (h : ∀ n, cap = some n → i < n) :
    pastAckCap cap i = false := by
  cases cap with
  | none => rfl
  | some n => simpa [pastAckCap] using h n rfl

/-- Pairs that stand in the window and fit the capacity are read, and the reading goes on behind them. -/
theorem ackPairs_append {cap : Option Nat} {w : Window} {rs : List AckRange} {fuel left i p q : Nat}
    (h : PairsAt w p rs q) (hcap : ∀ n, cap = some n → i + rs.length ≤ n) :
    ackPairs cap w (fuel + rs.length) (left + rs.length) i p =
      (ackPairs cap w fuel left (i + rs.length) q >>= fun x => .ok (rs ++ x.1, x.2)) := by
  induction rs generalizing i p with
  | nil =>
    cases h
    simp only [List.length_nil, Nat.add_zero, List.nil_append]
    cases ackPairs cap w fuel left i q <;> rfl
  | cons r rs ih =>
    obtain ⟨p1, p2, h1, h2, h3⟩ := h
    simp only [List.length_cons] at hcap ⊢
    have fits : pastAckCap cap i = false := pastAckCap_of_fits fun n hn => by have := hcap n hn; omega
    have rest := ih (i := i + 1) h3 fun n hn => by have := hcap n hn; omega
    rw [← Nat.add_assoc, ← Nat.add_assoc, ackPairs_succ h1 h2, fits, rest, if_neg Bool.false_ne_true,
      show i + 1 + rs.length = i + (rs.length + 1) by omega]
    cases ackPairs cap w fuel left (i + (rs.length + 1)) q <;> rfl

/-- A pair with a short VarInt raises where that VarInt starts (R122, R199). -/
theorem ackPairs_short {cap : Option Nat} {w : Window} {fuel left i p q : Nat} (h : VarIntsShort w 2 p q)
    (hf : w.lim - p ≤ fuel) : ackPairs cap w fuel (left + 1) i p = raise .varintEof q := by
  cases fuel with
  | zero => rw [varIntsShort_at_end h (by omega)]; rfl
  | succ fuel =>
    exact readVar_bind_short h fun _ _ _ h => readVar_bind_short h fun _ _ _ h => h.elim

/-- The first pair beyond the capacity raises at its first byte, once it has been read (R199). -/
theorem ackPairs_past {w : Window} {fuel left i p p1 p2 : Nat} {gap rlen : VarVal} (h1 : readVar w p = .ok (gap, p1))
    (h2 : readVar w p1 = .ok (rlen, p2)) (hf : w.lim - p ≤ fuel) :
    ackPairs (some i) w fuel (left + 1) i p = raise .ackRanges p := by
  have b1 := readVar_bounds h1
  cases fuel with
  | zero => omega
  | succ fuel => rw [ackPairs_succ h1 h2, if_pos (by simp [pastAckCap])]

/-! ### The fields of an Ack frame -/

/-- The record of an Ack frame with its four VarInts and the number of its pairs (R199). -/
def ackRecord (f : Frm) (largest delay count first : VarVal) : Frm :=
  { f with kind := .ack, f0 := largest, f1 := delay, f2 := count, f3 := first, nranges := BitVec.ofNat 32 count.toNat }

theorem ackCommon_short {pr : Params} {w : Window} {p q : Nat} (h : VarIntsShort w 4 p q) (f : Frm) :
    ackCommon pr w f p = raise .varintEof q :=
  readVar_bind_short h fun _ _ _ h => readVar_bind_short h fun _ _ _ h => readVar_bind_short h fun _ _ _ h =>
    readVar_bind_short h fun _ _ _ h => h.elim

section
variable {pr : Params} {w : Window} {p1 p2 p3 p4 p5 q : Nat} {largest delay count first : VarVal} {rs : List AckRange}

/-- After the four VarInts the pairs are all that is left to read. -/
theorem ackCommon_of_fields (h1 : readVar w p1 = .ok (largest, p2)) (h2 : readVar w p2 = .ok (delay, p3))
    (h3 : readVar w p3 = .ok (count, p4)) (h4 : readVar w p4 = .ok (first, p5)) (f : Frm) :
    ackCommon pr w f p1 = (ackPairs pr.ackCap w (w.lim - p5) count.toNat 0 p5 >>= fun x =>
      .ok { frm := ackRecord f largest delay count first, ranges := x.1, pos := x.2 }) := by
  simp only [ackCommon, h1, h2, h3, h4, parse_ok_bind]
  rfl

/-- The pairs that stand in the window and fit `ACKR`, and `left` more: the fuel is enough to go on behind them. -/
theorem ackPairs_from_start {left : Nat} (hp : PairsAt w p5 rs q) (h5 : p5 ≤ w.lim)
    (hcap : ∀ n, pr.ackCap = some n → rs.length ≤ n) :
    ∃ fuel, w.lim - q ≤ fuel ∧ ackPairs pr.ackCap w (w.lim - p5) (left + rs.length) 0 p5 =
      (ackPairs pr.ackCap w fuel left rs.length q >>= fun x => .ok (rs ++ x.1, x.2)) := by
  have bounds := pairsAt_bounds hp h5
  refine ⟨w.lim - p5 - rs.length, by omega, ?_⟩
  have reading := ackPairs_append (fuel := w.lim - p5 - rs.length) (left := left) (i := 0) hp
    (fun n hn => by have := hcap n hn; omega)
  rwa [Nat.zero_add, Nat.sub_add_cancel (by omega)] at reading

/-- As many pairs as `range_count` says stand in the window and fit `ACKR`. -/
theorem ackCommon_of_pairs (h1 : readVar w p1 = .ok (largest, p2)) (h2 : readVar w p2 = .ok (delay, p3))
    (h3 : readVar w p3 = .ok (count, p4)) (h4 : readVar w p4 = .ok (first, p5)) (hp : PairsAt w p5 rs q)
    (hlen : rs.length = count.toNat) (hcap : ∀ n, pr.ackCap = some n → rs.length ≤ n) (f : Frm) :
    ackCommon pr w f p1 = .ok { frm := ackRecord f largest delay count first, ranges := rs, pos := q } := by
  obtain ⟨fuel, -, pairs⟩ := ackPairs_from_start (left := 0) hp (readVar_bounds h4).2 hcap
  rw [Nat.zero_add, hlen] at pairs
  rw [ackCommon_of_fields h1 h2 h3 h4, pairs, ackPairs_zero, parse_ok_bind, parse_ok_bind, List.append_nil]

/-- The pair after those that stand in the window and fit `ACKR` has a short VarInt. -/
theorem ackCommon_pair_short (h1 : readVar w p1 = .ok (largest, p2)) (h2 : readVar w p2 = .ok (delay, p3))
    (h3 : readVar w p3 = .ok (count, p4)) (h4 : readVar w p4 = .ok (first, p5)) (hp : PairsAt w p5 rs q)
    (hlt : rs.length < count.toNat) (hcap : ∀ n, pr.ackCap = some n → rs.length ≤ n) {q' : Nat}
    (hshort : VarIntsShort w 2 q q') (f : Frm) : ackCommon pr w f p1 = raise .varintEof q' := by
  obtain ⟨left, hleft⟩ := Nat.exists_eq_add_of_lt hlt
  obtain ⟨fuel, enough, pairs⟩ := ackPairs_from_start (left := left + 1) hp (readVar_bounds h4).2 hcap
  rw [ackCommon_of_fields h1 h2 h3 h4, show count.toNat = left + 1 + rs.length by omega, pairs,
    ackPairs_short hshort enough, parse_bind_raise, parse_bind_raise]

/-- The pair after those that fill `ACKR` can be read. -/
theorem ackCommon_pair_past (h1 : readVar w p1 = .ok (largest, p2)) (h2 : readVar w p2 = .ok (delay, p3))
    (h3 : readVar w p3 = .ok (count, p4)) (h4 : readVar w p4 = .ok (first, p5)) (hp : PairsAt w p5 rs q)
    (hlt : rs.length < count.toNat) (hcap : pr.ackCap = some rs.length) {gap rlen : VarVal} {q1 q2 : Nat}
    (hg : readVar w q = .ok (gap, q1)) (hl : readVar w q1 = .ok (rlen, q2)) (f : Frm) :
    ackCommon pr w f p1 = raise .ackRanges q := by
  obtain ⟨left, hleft⟩ := Nat.exists_eq_add_of_lt hlt
  have fits : ∀ n, pr.ackCap = some n → rs.length ≤ n := fun n hn => (Option.some.inj (hcap.symm.trans hn)).le
  obtain ⟨fuel, enough, pairs⟩ := ackPairs_from_start (left := left + 1) hp (readVar_bounds h4).2 fits
  rw [ackCommon_of_fields h1 h2 h3 h4, show count.toNat = left + 1 + rs.length by omega, pairs, hcap,
    ackPairs_past hg hl enough, parse_bind_raise, parse_bind_raise]

end

/-- What the part common to both Ack types raises fails both rows. -/
theorem exec_ack_of_raise {s : State} {w : Window} {p p1 : Nat} {t : VarVal} (hw : FrameAt s w p)
    (ht : readVar w p = .ok (t, p1)) {c : ErrCause} {q : Nat}
    (h : ∀ f, ackCommon s.params w f p1 = raise c q) (hc : c ≠ .wrongState) :
    exec .frmAck s = .next (frameFailed s c q) ∧ exec .frmAckEcn s = .next (frameFailed s c q) := by
  refine ⟨exec_row_of_raise rfl hw ht (h _) hc, exec_row_of_raise rfl hw ht ?_ hc⟩
  simp only [frameRule, ruleAckEcn, h, parse_bind_raise]

/-- Settles O36: the four VarInts by `ackCommon_of_fields`, the pairs by `ackPairs_from_start`, and then the end, a short
pair, or the capacity. -/
theorem ackFrameResult : Obligations.AckFrameResult := by
  intro s w p t p1 hw ht
  refine ⟨fun q h => exec_ack_of_raise hw ht (ackCommon_short h) nofun, ?_⟩
  intro largest delay count first p2 p3 p4 p5 q rs h1 h2 h3 h4 hp
  refine ⟨fun hlen hcap => ?_,
    fun q' hlt hcap hshort => exec_ack_of_raise hw ht (ackCommon_pair_short h1 h2 h3 h4 hp hlt hcap hshort) nofun,
    fun g l q1 q2 hcap hlt hg hl => exec_ack_of_raise hw ht (ackCommon_pair_past h1 h2 h3 h4 hp hlt hcap hg hl) nofun⟩
  have common := ackCommon_of_pairs h1 h2 h3 h4 hp hlen hcap
  rw [hlen]
  refine ⟨exec_row_of_ok (i := .frmAck) rfl hw ht (common _), fun e0 e1 ce q1 q2 q3 g0 g1 g2 => ?_, fun q' hshort => ?_⟩
  · refine exec_row_of_ok (i := .frmAckEcn) rfl hw ht ?_ (out := ⟨_, rs, q3⟩)
    simp only [frameRule, ruleAckEcn, common, parse_ok_bind, g0, g1, g2]
    rfl
  · refine exec_row_of_raise rfl hw ht ?_ nofun
    simp only [frameRule, ruleAckEcn, common, parse_ok_bind]
    exact readVar_bind_short hshort fun _ _ _ h => readVar_bind_short h fun _ _ _ h =>
      readVar_bind_short h fun _ _ _ h => h.elim

end Sys2Proof.Machine
end

section
/-! Memory and the host port (20_memory.md): which reads of an instruction reach the model fault (R64), and what a host
write does while the lane is `BUSY` or at `CMD` (R68, R69). -/

namespace Sys2Proof.Machine
open Sys2Proof.Proofs

/-! ### The first unwritten byte of a field -/

/-- Behind a byte that has been written the first unwritten one is the same. -/
theorem FirstUnwritten.next {w : Window} {p a : Nat} {b : Byte} (h : FirstUnwritten w p a)
    (hb : Mem.read w.mem p = some b) : FirstUnwritten w (p + 1) a := by
  obtain ⟨hle, hnone, hbefore⟩ := h
  have hne : p ≠ a := fun e => by simp [e, hnone] at hb
  exact ⟨by omega, hnone, fun c hc => hbefore c (by omega)⟩

theorem readByte_of_unwritten {w : Window} {a : Nat} (h : Mem.read w.mem a = none) :
    readByte w a = .error (.fault (.unwrittenRead w.sel a)) :=
  readByte_fault.2 ⟨h, rfl⟩

/-- `MemRead` faults at the first unwritten byte of what it reads (R64). -/
theorem memRead_of_unwritten {w : Window} {p a n : Nat} (h : FirstUnwritten w p a) (ha : a < p + n) :
    memRead w p n = .error (.fault (.unwrittenRead w.sel a)) := by
  induction n generalizing p with
  | zero => exact absurd h.1 (Nat.not_le.2 ha)
  | succ n ih =>
    rw [memRead]
    cases hb : Mem.read w.mem p with
    | none =>
      obtain ⟨hle, -, hbefore⟩ := h
      have first : a = p := by
        by_contra hne
        simpa [hb] using hbefore p le_rfl (by omega)
      rw [first, readByte_of_unwritten hb, parse_error_bind]
    | some b => rw [readByte_ok.2 hb, parse_ok_bind, ih (h.next hb) (by omega), parse_error_bind]

section
variable {w : Window} {p a : Nat}

theorem decodeVarInt_of_unwritten (h : FirstUnwritten w p a) (hr : VarIntReads w p a) :
    decodeVarInt w p = .error (.fault (.unwrittenRead w.sel a)) := by
  obtain ⟨hp, rfl | ⟨b0, hb, hfit, ha⟩⟩ := hr
  · obtain ⟨-, hnone, -⟩ := h
    rw [decodeVarInt, need_of_le (by omega), parse_ok_bind, readByte_of_unwritten hnone, parse_error_bind]
  · have size : varintSize b0 = 2 ^ (b0.extractLsb' 6 2).toNat := rfl
    rw [decodeVarInt, need_of_le (by omega), parse_ok_bind, readByte_ok.2 hb, parse_ok_bind, need_of_le (by omega),
      parse_ok_bind, memRead_of_unwritten (h.next hb) (by omega), parse_error_bind]

theorem readVar_of_unwritten (h : FirstUnwritten w p a) (hr : VarIntReads w p a) :
    readVar w p = .error (.fault (.unwrittenRead w.sel a)) := by
  rw [readVar, decodeVarInt_of_unwritten h hr, parse_error_bind]

theorem decodeCid_of_unwritten (h : FirstUnwritten w p a) (hr : CidReads w p a) :
    decodeCid w p = .error (.fault (.unwrittenRead w.sel a)) := by
  obtain ⟨hp, rfl | ⟨len, hb, hlen, hfit, ha⟩⟩ := hr
  · obtain ⟨-, hnone, -⟩ := h
    rw [decodeCid, need_of_le (by omega), parse_ok_bind, readByte_of_unwritten hnone, parse_error_bind]
  · have allowed : ¬ len.toNat > Config.maxCidLen := Nat.not_lt.2 hlen
    rw [decodeCid, need_of_le (by omega), parse_ok_bind, readByte_ok.2 hb, parse_ok_bind, if_neg allowed,
      need_of_le (by omega), parse_ok_bind, memRead_of_unwritten (h.next hb) (by omega), parse_error_bind]

theorem decodePn_of_unwritten {n : Nat} (h : FirstUnwritten w p a) (hfit : p + n ≤ w.lim) (ha : a < p + n) :
    decodePn w p n = .error (.fault (.unwrittenRead w.sel a)) := by
  rw [decodePn, need_of_le (by omega), parse_ok_bind, memRead_of_unwritten h ha, parse_error_bind]

theorem readFixed_of_unwritten {n : Nat} (h : FirstUnwritten w p a) (hfit : p + n ≤ w.lim) (ha : a < p + n) :
    readFixed w p n = .error (.fault (.unwrittenRead w.sel a)) := by
  rw [readFixed, need_of_le (by omega), parse_ok_bind, memRead_of_unwritten h ha, parse_error_bind]

/-- The bytes that select a header row are read before its rule runs (R152, R155). -/
theorem parseHeader_of_unwritten (h : FirstUnwritten w p a) (hr : SelectionReads w p a) :
    parseHeader w p = .error (.fault (.unwrittenRead w.sel a)) := by
  have selecting : fetchHeader w p = .error (.fault (.unwrittenRead w.sel a)) := by
    obtain ⟨hp, rfl | ⟨b0, hb, hlong, hfit, ha⟩⟩ := hr
    · obtain ⟨-, hnone, -⟩ := h
      rw [fetchHeader, need_of_le (by omega), parse_ok_bind, readByte_of_unwritten hnone, parse_error_bind]
    · rw [fetchHeader, need_of_le (by omega), parse_ok_bind, readByte_ok.2 hb, parse_ok_bind,
        if_pos (show isLongHeader b0 = true from hlong), need_of_le (by omega), parse_ok_bind,
        memRead_of_unwritten (h.next hb) (by omega), parse_error_bind]
  rw [parseHeader, selecting, parse_error_bind]

theorem parseFrame_of_unwritten {pr : Params} (h : FirstUnwritten w p a) (hr : VarIntReads w p a) :
    parseFrame pr w p = .error (.fault (.unwrittenRead w.sel a)) := by
  rw [parseFrame, readVar_of_unwritten h hr, parse_error_bind]

end

/-! ### When an instruction reaches the model fault -/

/-- A command step is the model fault exactly when its rule is (R120). -/
theorem runCommand_fault {c : Cmd} {op : Byte} {rule : Params → Lane → Parse Lane} {s : State} {f : Fault} :
    runCommand c op rule s = .fault f ↔ rule s.params (s.lane.accept op) = .error (.fault f) := by
  unfold runCommand
  split <;> simp_all

section
variable {s : State} {f : Fault}

/-- The precheck itself never faults; behind it stands the host window (R250). -/
theorem ibufWindow_bind_fault {α : Type} {op : Byte} {k : Window × Nat → Parse α} :
    (ibufWindow s.params (s.lane.accept op) >>= k) = .error (.fault f) ↔
      CursorOk s ∧ k (hostWindow s, low32 s.lane.cur) = .error (.fault f) := by
  by_cases h : CursorOk s
  · have passed : ibufWindow s.params (s.lane.accept op) = .ok (hostWindow s, low32 s.lane.cur) :=
      ibufWindow_of_ok h.1 h.2
    rw [passed, parse_ok_bind, and_iff_right h]
  · have refused : ibufWindow s.params (s.lane.accept op) = raise .badCursor (low32 s.lane.cur) := ibufWindow_of_bad h
    simp [refused, h]

/-- Nothing faults after a parse that a commit follows. -/
theorem parse_commit_fault {α β : Type} {x : Parse α} {g : α → β} :
    (x >>= fun a => (.ok (g a) : Parse β)) = .error (.fault f) ↔ x = .error (.fault f) := by
  simp [parse_bind_error]

theorem exec_varintDec_fault :
    exec .varintDec s = .fault f ↔
      CursorOk s ∧ decodeVarInt (hostWindow s) (low32 s.lane.cur) = .error (.fault f) :=
  runCommand_fault.trans (ibufWindow_bind_fault.trans (and_congr_right' parse_commit_fault))

theorem exec_cidDec_fault :
    exec .cidDec s = .fault f ↔ CursorOk s ∧ decodeCid (hostWindow s) (low32 s.lane.cur) = .error (.fault f) :=
  runCommand_fault.trans (ibufWindow_bind_fault.trans (and_congr_right' parse_commit_fault))

theorem exec_pnDec_fault :
    exec .pnDec s = .fault f ↔ CursorOk s ∧ (1 ≤ s.lane.arg0.toNat ∧ s.lane.arg0.toNat ≤ 4) ∧
      decodePn (hostWindow s) (low32 s.lane.cur) s.lane.arg0.toNat = .error (.fault f) := by
  refine runCommand_fault.trans (ibufWindow_bind_fault.trans (and_congr_right' ?_))
  change (if s.lane.arg0.toNat < 1 ∨ 4 < s.lane.arg0.toNat then _ else _) = _ ↔ _
  split
  · simp only [raise_ne_fault, false_iff]
    omega
  · exact parse_commit_fault.trans (and_iff_right (by omega)).symm

/-- A `PKT_PARSE` faults where its header parse does (R150). -/
theorem pktCommand_fault {op : Byte} {rule : Window → Nat → Parse Header} :
    pktCommand rule s.params (s.lane.accept op) = .error (.fault f) ↔
      CursorOk s ∧ rule (hostWindow s) (low32 s.lane.cur) = .error (.fault f) :=
  ibufWindow_bind_fault.trans (and_congr_right' parse_commit_fault)

theorem exec_pktParse_fault :
    exec .pktParse s = .fault f ↔ CursorOk s ∧ parseHeader (hostWindow s) (low32 s.lane.cur) = .error (.fault f) :=
  runCommand_fault.trans pktCommand_fault

theorem exec_header_fault {i : Instr} (hi : spaceOf i = .header) :
    exec i s = .fault f ↔ CursorOk s ∧ headerRule i (hostWindow s) (low32 s.lane.cur) = .error (.fault f) := by
  rw [exec_header hi, runCommand_fault, pktCommand_fault]

/-- `FRM_ONE` faults where its frame parse does (R192). -/
theorem frameCommand_one_fault {op : Byte} {parse : Params → Window → Nat → Parse FrameOut} :
    frameCommand .one parse s.params (s.lane.accept op) = .error (.fault f) ↔
      CursorOk s ∧ parse s.params (hostWindow s) (low32 s.lane.cur) = .error (.fault f) :=
  ibufWindow_bind_fault.trans (and_congr_right' parse_commit_fault)

/-- `FSEQ_NEXT` on an active sequence faults where its frame parse does (R194). -/
theorem frameCommand_next_fault {op : Byte} {parse : Params → Window → Nat → Parse FrameOut} :
    frameCommand .next parse s.params (s.lane.accept op) = .error (.fault f) ↔
      parse s.params (sequenceWindow s) s.lane.fcur.toNat = .error (.fault f) :=
  parse_commit_fault

theorem exec_frmOne_fault :
    exec .frmOne s = .fault f ↔
      CursorOk s ∧ parseFrame s.params (hostWindow s) (low32 s.lane.cur) = .error (.fault f) :=
  runCommand_fault.trans frameCommand_one_fault

/-- `FSEQ_NEXT` parses a frame only where an active sequence has bytes left (R194). -/
theorem ruleFseqNext_fault {pr : Params} {l : Lane} :
    ruleFseqNext pr l = .error (.fault f) ↔ (l.fstate = .active ∧ l.fcur ≠ l.fend) ∧
      frameCommand .next parseFrame pr l = .error (.fault f) := by
  unfold ruleFseqNext
  cases l.fstate with
  | active => by_cases hend : l.fcur = l.fend <;> simp [hend]
  | inactive => simp
  | ended => simp
  | failed => simp

theorem exec_fseqNext_fault :
    exec .fseqNext s = .fault f ↔ (s.lane.fstate = .active ∧ s.lane.fcur ≠ s.lane.fend) ∧
      parseFrame s.params (sequenceWindow s) s.lane.fcur.toNat = .error (.fault f) :=
  runCommand_fault.trans (ruleFseqNext_fault.trans (and_congr_right' frameCommand_next_fault))

theorem exec_row_fault {i : Instr} (hi : spaceOf i = .frame) :
    exec i s = .fault f ↔ ∃ w p, FrameAt s w p ∧ parseRow i (frameRule i) s.params w p = .error (.fault f) := by
  rw [exec_row hi, runRow, runCommand_fault]
  unfold FrameAt
  cases frameCmdOf s with
  | one => simp [frameCommand_one_fault, and_assoc]
  | next => simp [frameCommand_next_fault, and_assoc]

end

/-- Settles O14: the reading sub-procedures fault at the first unwritten byte of their field, and an instruction faults
where its parse does, by its `exec_…_fault`. -/
theorem unwrittenByteFaults : Obligations.UnwrittenByteFaults := by
  refine ⟨fun w p a h => ⟨fun hr => ⟨decodeVarInt_of_unwritten h hr, readVar_of_unwritten h hr⟩,
      decodeCid_of_unwritten h, fun n hfit ha => ⟨decodePn_of_unwritten h hfit ha, readFixed_of_unwritten h hfit ha,
        memRead_of_unwritten h ha⟩⟩,
    fun s a hc h => ⟨fun hr => ⟨?_, ?_⟩, fun hr => ?_, fun hmin hmax hfit ha => ?_, fun hr => ?_⟩,
    fun s a hactive hbuf h hr => ?_,
    fun s f hc => ⟨fun h => exec_pktParse_fault.2 ⟨hc, h⟩, fun i hi h => (exec_header_fault hi).2 ⟨hc, h⟩,
      fun h => exec_frmOne_fault.2 ⟨hc, h⟩⟩,
    fun s f hactive hleft h => exec_fseqNext_fault.2 ⟨⟨hactive, hleft⟩, h⟩,
    fun i s w p f hi hw h => (exec_row_fault hi).2 ⟨w, p, hw, h⟩⟩
  · exact exec_varintDec_fault.2 ⟨hc, decodeVarInt_of_unwritten h hr⟩
  · exact exec_frmOne_fault.2 ⟨hc, parseFrame_of_unwritten h hr⟩
  · exact exec_cidDec_fault.2 ⟨hc, decodeCid_of_unwritten h hr⟩
  · exact exec_pnDec_fault.2 ⟨hc, ⟨hmin, hmax⟩, decodePn_of_unwritten h hfit ha⟩
  · exact exec_pktParse_fault.2 ⟨hc, parseHeader_of_unwritten h hr⟩
  · have left : s.lane.fcur ≠ s.lane.fend := fun e => by
      have inside : s.lane.fcur.toNat < s.lane.fend.toNat := hr.1
      simp [e] at inside
    have sel : (sequenceWindow s).sel = .ibuf := hbuf
    exact exec_fseqNext_fault.2 ⟨⟨hactive, left⟩, sel ▸ parseFrame_of_unwritten h hr⟩

/-! ### Windows that have been written -/

/-- With the invariants in order only a sequence over `IBUF` can have an unwritten byte left (R62, R64). -/
theorem sequenceWindow_written {s : State} (hm : MemoryInv s.params s.lane) (hs : SequenceInv s.params s.lane)
    (hi : s.lane.fbuf = .ibuf → (sequenceWindow s).written s.lane.fcur.toNat) :
    (sequenceWindow s).written s.lane.fcur.toNat := by
  cases hb : s.lane.fbuf with
  | ibuf => exact hi hb
  | pbuf =>
    intro a _ ha
    have inside : a < s.lane.pbufLen.toNat := hs.ofPbuf hb ▸ ha
    simpa [sequenceWindow, hb, Lane.buffer] using hm.plaintextWritten a inside
  | none =>
    intro a _ ha
    have empty : s.lane.fend.toNat = 0 := by simp [hs.ofNone hb]
    exact absurd (empty ▸ ha) (Nat.not_lt_zero a)

theorem frameAt_written {s : State} {w : Window} {p : Nat} (hh : (hostWindow s).written (low32 s.lane.cur))
    (hq : (sequenceWindow s).written s.lane.fcur.toNat) (h : FrameAt s w p) : w.written p := by
  unfold FrameAt at h
  split at h
  · obtain ⟨-, rfl, rfl⟩ := h
    exact hh
  · obtain ⟨rfl, rfl⟩ := h
    exact hq

/-- `EncodeVarInt` reads no buffer (R126). -/
theorem encodeVarInt_noFault (v r : Nat) (f : Fault) : encodeVarInt v r ≠ .error (.fault f) := by
  unfold encodeVarInt
  split_ifs <;> simp

/-- No instruction faults when both windows are written: each parse reads its own window from its position up (R64). -/
theorem exec_noFault {s : State} (hh : (hostWindow s).written (low32 s.lane.cur))
    (hq : (sequenceWindow s).written s.lane.fcur.toNat) (i : Instr) (f : Fault) : exec i s ≠ .fault f := by
  intro hf
  rcases exec_cases i s with ⟨-, e⟩ | ⟨-, e⟩ | ⟨c, op, rule, hc, e⟩
  · simp [e] at hf
  · simp [e] at hf
  cases hc with
  | varintDec => exact decodeVarInt_noFault hh le_rfl f (exec_varintDec_fault.1 hf).2
  | varintEnc =>
    rw [e, runCommand_fault, ruleVarintEnc, parse_commit_fault] at hf
    exact encodeVarInt_noFault _ _ f hf
  | cidDec => exact decodeCid_noFault hh le_rfl f (exec_cidDec_fault.1 hf).2
  | pnDec =>
    obtain ⟨-, -, h⟩ := exec_pnDec_fault.1 hf
    exact decodePn_noFault hh le_rfl f h
  | pktParse => exact parseHeader_noFault hh f (exec_pktParse_fault.1 hf).2
  | frmOne => exact parseFrame_noFault hh f (exec_frmOne_fault.1 hf).2
  | fseqBegin =>
    rw [e, runCommand_fault, ruleFseqBegin, parse_commit_fault] at hf
    exact ibufWindow_ne_fault _ _ f hf
  | fseqNext => exact parseFrame_noFault hq f (exec_fseqNext_fault.1 hf).2
  | reserved _ _ _ =>
    rw [e, runCommand_fault] at hf
    exact raise_ne_fault _ _ f hf
  | header _ hi => exact headerRule_noFault hh f ((exec_header_fault hi).1 hf).2
  | row _ hi =>
    obtain ⟨w, p, hw, h⟩ := (exec_row_fault hi).1 hf
    exact parseRow_noFault (frameAt_written hh hq hw) f h

/-- Settles O60: neither a fault (`exec_noFault`) nor a refusal is left. -/
theorem writtenWindowsNeverFault : Obligations.WrittenWindowsNeverFault := by
  intro i s hm hs hh hi
  cases hx : exec i s with
  | next t => exact ⟨t, rfl⟩
  | fault f => exact absurd hx (exec_noFault hh (sequenceWindow_written hm hs hi) i f)
  | refused r => exact absurd hx (exec_not_refused i s r)

/-! ### Host writes while `BUSY`, and to `CMD` -/

theorem hostWrite_of_busy {s : State} (effect : Lane → Lane) (hb : s.lane.st = .busy) :
    hostWrite effect s = .next { s with lane := { s.lane with wdrop := 1 } } := by
  rw [hostWrite, unlessBusy, if_pos hb]

/-- Settles O45: a defined write is a `hostWrite`, whose effect a `BUSY` lane drops. -/
theorem busyWritesDropped : Obligations.BusyWritesDropped := by
  intro s rest hc hb
  refine ⟨fun off v hoff hi => ?_, fun off v hoff hi => ?_⟩
  · rw [step_of_own_event hc hi]
    simp [deliverAction, hostAccess, hoff, hostWrite_of_busy, hb]
  · rw [step_of_own_event hc hi]
    simp [deliverAction, hostAccess, Nat.not_le.2 hoff, hostWrite_of_busy, hb]

/-- Settles O46: the write is `writeReg` at offset 0, and the command it issues is the next step's unless the lane has
been stopped. -/
theorem commandIssue : Obligations.CommandIssue := by
  intro s v rest hc hb hi
  refine ⟨_, rfl, step_of_regWrite hc hb (by decide) hi, fun hf => ?_, fun hf => ?_⟩
  · exact step_of_issued (Lane.issued_some.2 ⟨hf, rfl⟩)
  · obtain ⟨f, hf⟩ := Option.ne_none_iff_exists'.1 hf
    exact Lane.issued_of_fault hf

end Sys2Proof.Machine
end

section
/-! The codec (30_encoding.md): byte strings as numbers and back, the VarInt, the three field decoders with their
encoders, and from them the decoder on bytes. -/

namespace Sys2Proof
open Sys2Proof.Machine

/-! ### Byte strings as numbers (R7) -/

theorem beNat_bytesBE (v n : Nat) : beNat (bytesBE v n) = v % 256 ^ n := by
  induction n generalizing v with
  | zero => simp [bytesBE, beNat, Nat.mod_one]
  | succ n ih =>
    rw [bytesBE, beNat_append, ih, BitVec.toNat_ofNat, Nat.pow_succ' (m := 256), Nat.mod_mul]
    omega

theorem bytesBE_beNat (bs : List Byte) : bytesBE (beNat bs) bs.length = bs := by
  induction bs using List.reverseRecOn with
  | nil => rfl
  | append_singleton bs b ih =>
    have hb := b.isLt
    have high : (beNat bs * 256 + b.toNat) / 256 = beNat bs := by omega
    have low : BitVec.ofNat 8 (beNat bs * 256 + b.toNat) = b := by
      apply BitVec.eq_of_toNat_eq
      rw [BitVec.toNat_ofNat]
      omega
    rw [List.length_append, List.length_singleton, bytesBE, beNat_append, high, low, ih]

theorem toNat_append_eq_add {m n : Nat} (x : BitVec m) (y : BitVec n) :
    (x ++ y).toNat = x.toNat * 2 ^ n + y.toNat := by
  rw [BitVec.toNat_append, ← Nat.shiftLeft_add_eq_or_of_lt y.isLt, Nat.shiftLeft_eq]

/-- Four bytes as a 32-bit word (R94). -/
theorem ofNat_beNat_four (v3 v2 v1 v0 : Byte) : BitVec.ofNat 32 (beNat [v3, v2, v1, v0]) = v3 ++ v2 ++ v1 ++ v0 := by
  apply BitVec.eq_of_toNat_eq
  simp only [toNat_append_eq_add, BitVec.toNat_ofNat, beNat, List.foldl_cons, List.foldl_nil]
  omega

/-! ### The VarInt (R90, R122, R126) -/

/-- The class and the value bits of a first byte do not touch each other (R90). -/
theorem varintHead_fields : ∀ c < 4, ∀ b < 64,
    varintClass (BitVec.ofNat 8 b ||| BitVec.ofNat 8 (c * 64)) = c ∧
      (BitVec.ofNat 8 b ||| BitVec.ofNat 8 (c * 64)) &&& 0x3F#8 = BitVec.ofNat 8 b := by decide +kernel

/-- The bytes of a value that fits its class are one whole VarInt, of that class and that value (R90, R126). -/
theorem varintBytes_whole {c v : Nat} (hc : c < 4) (hv : varintFits c v = true) :
    ∃ b0 more, varintBytes c v = b0 :: more ∧ more.length + 1 = varintSize b0 ∧ varintValue b0 more = v := by
  have hlen := bytesBE_length v (2 ^ c)
  have hval := beNat_bytesBE v (2 ^ c)
  cases hbs : bytesBE v (2 ^ c) with
  | nil =>
    rw [hbs] at hlen
    exact absurd hlen (Nat.two_pow_pos c).ne
  | cons b more =>
    rw [hbs] at hlen hval
    have room : 2 ^ (8 * 2 ^ c - 2) = 64 * 256 ^ more.length := by
      rw [← hlen, List.length_cons, show 8 * (more.length + 1) - 2 = 6 + 8 * more.length by omega, Nat.pow_add,
        Nat.pow_mul]
    rw [varintFits, decide_eq_true_eq, room] at hv
    rw [← hlen, List.length_cons, Nat.pow_succ', Nat.mod_eq_of_lt (by omega), beNat_cons] at hval
    have hb : b.toNat < 64 := by
      by_contra hge
      have := Nat.mul_le_mul_right (256 ^ more.length) (Nat.not_lt.1 hge)
      omega
    obtain ⟨hclass, hbits⟩ := varintHead_fields c hc b.toNat hb
    rw [BitVec.ofNat_toNat, BitVec.setWidth_eq] at hclass hbits
    refine ⟨_, more, by rw [varintBytes, hbs], ?_, ?_⟩
    · rw [varintSize, hclass, ← hlen, List.length_cons]
    · rw [varintValue, hbits, beNat_cons, hval]

/-- Every 62-bit value fits its least class (R126). -/
theorem varintFits_leastClass {v : Nat} (h : v < Config.varintBound) : varintFits (varintLeastClass v) v = true := by
  unfold varintLeastClass
  split_ifs with h0 h1 h2
  · exact h0
  · exact h1
  · exact h2
  · simpa [varintFits, Config.varintBound] using h

/-- A VarInt can be read from the front of a byte string exactly when one stands there whole (R122). -/
theorem decodeVarIntBytes_eq_some {bs rest : List Byte} {v : Nat} :
    decodeVarIntBytes bs = some (v, rest) ↔
      ∃ b0 more, bs = b0 :: more ++ rest ∧ more.length + 1 = varintSize b0 ∧ varintValue b0 more = v := by
  constructor
  · intro h
    cases bs with
    | nil => simp [decodeVarIntBytes] at h
    | cons b0 bs =>
      have pos := varintSize_pos b0
      rw [decodeVarIntBytes] at h
      split_ifs at h with hshort
      simp only [Option.some.injEq, Prod.mk.injEq] at h
      obtain ⟨hv, rfl⟩ := h
      refine ⟨b0, bs.take (varintSize b0 - 1), by simp, ?_, hv⟩
      rw [List.length_take]
      omega
  · rintro ⟨b0, more, rfl, hlen, rfl⟩
    have size : varintSize b0 - 1 = more.length := by omega
    simp [decodeVarIntBytes, size]

/-! ### The three field decoders and their encoders -/

/-- A word whose upper part is `hi`, put together again from that part and its lower bits. -/
theorem append_extractLsb'_low {m n : Nat} {hi : BitVec m} {x : BitVec (m + n)} (h : x.toNat / 2 ^ n = hi.toNat) :
    hi ++ x.extractLsb' 0 n = x := by
  have upper : hi = x.extractLsb' n m := by
    apply BitVec.eq_of_toNat_eq
    rw [BitVec.extractLsb'_toNat, Nat.shiftRight_eq_div_pow, h, Nat.mod_eq_of_lt hi.isLt]
  rw [upper, BitVec.extractLsb'_append_extractLsb'_eq_extractLsb' (by omega)]
  simp

/-- A reserved row of the opcode map (R134). -/
def isReserved : Instr → Bool
  | .reserved0A _ | .reserved0C _ | .reserved10 _ | .reserved20 _ | .reserved40 _ | .reserved80 _ => true
  | _ => false

/-- The ten commands of the opcode map, in the order of their opcodes (R110). -/
theorem decodeOpcode_named : ∀ n < 0x0A,
    [Instr.nop, .varintDec, .varintEnc, .cidDec, .pnDec, .pktParse, .frmOne, .fseqBegin, .fseqNext, .clear][n]? =
      some (decodeOpcode (BitVec.ofNat 8 n)) := by decide

/-- Every other opcode selects a reserved row, and the row's open bits are its own (R110, R134). -/
theorem decodeOpcode_reserved {op : Byte} (h : 0x0A ≤ op.toNat) :
    isReserved (decodeOpcode op) = true ∧ opcodeOf (decodeOpcode op) = op := by
  have hop := op.isLt
  unfold decodeOpcode
  split
  case h_11 =>
    split_ifs
    all_goals exact ⟨rfl, append_extractLsb'_low (by simp only [BitVec.toNat_ofNat]; omega)⟩
  all_goals omega

/-- What a decoder of fields owes its encoder: a well-formed row of its format (R99, R101, R110). -/
structure IsRow (sp : Space) (i : Instr) : Prop where
  wellFormed : i.wellFormed = true
  space : spaceOf i = sp

theorem decodeOpcode_row (op : Byte) : IsRow .command (decodeOpcode op) := by
  unfold decodeOpcode
  split
  case h_11 => split_ifs <;> exact ⟨rfl, rfl⟩
  all_goals exact ⟨rfl, rfl⟩

/-- The opcode of a decoded row is the byte that was decoded (R110). -/
theorem opcodeOf_decodeOpcode (op : Byte) : opcodeOf (decodeOpcode op) = op := by
  by_cases h : 0x0A ≤ op.toNat
  · exact (decodeOpcode_reserved h).2
  · have named : ∀ n < 0x0A, opcodeOf (decodeOpcode (BitVec.ofNat 8 n)) = BitVec.ofNat 8 n := by decide
    simpa using named op.toNat (by omega)

/-- A command row is the one its opcode selects (R110). -/
theorem decodeOpcode_opcodeOf {i : Instr} (h : spaceOf i = .command) : decodeOpcode (opcodeOf i) = i := by
  cases i
  case reserved0A low => revert low; decide
  case reserved0C low => revert low; decide
  case reserved10 low => revert low; decide
  case reserved20 low => revert low; decide
  case reserved40 low => revert low; decide
  case reserved80 low => revert low; decide
  all_goals first | rfl | cases h

/-! #### First header bytes (R94, R95) -/

/-- The fields of a long header's first byte are the ones it is made of (R94). -/
theorem longHeaderByte_fields (fixed : BitVec 1) (ty rsv pnl : BitVec 2) :
    isLongHeader (longHeaderByte fixed ty rsv pnl) = true ∧
    (longHeaderByte fixed ty rsv pnl).extractLsb' 6 1 = fixed ∧
    (longHeaderByte fixed ty rsv pnl).extractLsb' 4 2 = ty ∧
    (longHeaderByte fixed ty rsv pnl).extractLsb' 2 2 = rsv ∧
    (longHeaderByte fixed ty rsv pnl).extractLsb' 0 2 = pnl := by
  revert fixed ty rsv pnl; decide

theorem longHeaderByte_of_fields : ∀ {b0 : Byte}, isLongHeader b0 = true →
    longHeaderByte (b0.extractLsb' 6 1) (b0.extractLsb' 4 2) (b0.extractLsb' 2 2) (b0.extractLsb' 0 2) = b0 := by
  decide

theorem shortHeaderByte_fields (fixed spin : BitVec 1) (rsv : BitVec 2) (keyPhase : BitVec 1) (pnl : BitVec 2) :
    isLongHeader (shortHeaderByte fixed spin rsv keyPhase pnl) = false ∧
    decodeShortHeader (shortHeaderByte fixed spin rsv keyPhase pnl) = .pktOneRtt fixed spin rsv keyPhase pnl := by
  revert fixed spin rsv keyPhase pnl; decide

theorem headerByteOf_decodeShortHeader : ∀ {b0 : Byte}, isLongHeader b0 = false →
    headerByteOf (decodeShortHeader b0) = b0 := by
  decide

/-- The row that a long header of a version other than 0 selects by its type bits (R94, R157). -/
def longRow (fixed : BitVec 1) (ty rsv pnl : BitVec 2) (ver : BitVec 32) : Instr :=
  match ty.toNat with
  | 0 => .pktInitial fixed rsv pnl ver
  | 1 => .pktZeroRtt fixed rsv pnl ver
  | 2 => .pktHandshake fixed rsv pnl ver
  | _ => .pktRetry fixed rsv pnl ver

theorem longType_cases : ∀ ty : BitVec 2, ty = 0 ∨ ty = 1 ∨ ty = 2 ∨ ty = 3 := by decide

theorem decodeLongHeader_zero (b0 : Byte) : decodeLongHeader b0 0 = .pktVersionNegotiation (b0.extractLsb' 0 7) := rfl

theorem decodeLongHeader_of_version {b0 : Byte} {ver : BitVec 32} (hv : ver ≠ 0) :
    decodeLongHeader b0 ver =
      longRow (b0.extractLsb' 6 1) (b0.extractLsb' 4 2) (b0.extractLsb' 2 2) (b0.extractLsb' 0 2) ver := if_neg hv

theorem decodeLongHeader_longHeaderByte (fixed : BitVec 1) (ty rsv pnl : BitVec 2) {ver : BitVec 32} (hv : ver ≠ 0) :
    decodeLongHeader (longHeaderByte fixed ty rsv pnl) ver = longRow fixed ty rsv pnl ver := by
  obtain ⟨-, hfixed, hty, hrsv, hpnl⟩ := longHeaderByte_fields fixed ty rsv pnl
  rw [decodeLongHeader_of_version hv, hfixed, hty, hrsv, hpnl]

/-- What the encoder makes of the row of a long header (R94). -/
theorem longRow_fields (fixed : BitVec 1) (ty rsv pnl : BitVec 2) (ver : BitVec 32) :
    headerByteOf (longRow fixed ty rsv pnl ver) = longHeaderByte fixed ty rsv pnl ∧
    versionOf (longRow fixed ty rsv pnl ver) = ver := by
  obtain rfl | rfl | rfl | rfl := longType_cases ty <;> exact ⟨rfl, rfl⟩

theorem longRow_row (fixed : BitVec 1) (ty rsv pnl : BitVec 2) {ver : BitVec 32} (hv : ver ≠ 0) :
    IsRow .header (longRow fixed ty rsv pnl ver) := by
  obtain rfl | rfl | rfl | rfl := longType_cases ty <;> exact ⟨decide_eq_true hv, rfl⟩

theorem decodeLongHeader_row (b0 : Byte) (ver : BitVec 32) : IsRow .header (decodeLongHeader b0 ver) := by
  by_cases hv : ver = 0
  · subst hv
    exact ⟨rfl, rfl⟩
  · rw [decodeLongHeader_of_version hv]
    exact longRow_row _ _ _ _ hv

/-- The encoder gives a long header's first byte and version back, whatever row they select (R94, R156). -/
theorem decodeLongHeader_fields {b0 : Byte} (h : isLongHeader b0 = true) (ver : BitVec 32) :
    headerByteOf (decodeLongHeader b0 ver) = b0 ∧ versionOf (decodeLongHeader b0 ver) = ver := by
  by_cases hv : ver = 0
  · have top : ∀ {b0 : Byte}, isLongHeader b0 = true → b0.toNat / 2 ^ 7 = (0b1#1).toNat := by decide
    subst hv
    exact ⟨append_extractLsb'_low (top h), rfl⟩
  · obtain ⟨hbyte, hver⟩ := longRow_fields (b0.extractLsb' 6 1) (b0.extractLsb' 4 2) (b0.extractLsb' 2 2)
      (b0.extractLsb' 0 2) ver
    rw [decodeLongHeader_of_version hv, hbyte, hver, longHeaderByte_of_fields h]
    exact ⟨rfl, rfl⟩

/-- A header row is the one its first byte and, for a long header, its version select (R99). -/
theorem header_selected {i : Instr} (hw : i.wellFormed = true) (hs : spaceOf i = .header) :
    (isLongHeader (headerByteOf i) = true ∧ decodeLongHeader (headerByteOf i) (versionOf i) = i) ∨
    (isLongHeader (headerByteOf i) = false ∧ decodeShortHeader (headerByteOf i) = i) := by
  cases i
  case pktOneRtt fixed spin rsv keyPhase pnl => exact .inr (shortHeaderByte_fields fixed spin rsv keyPhase pnl)
  case pktVersionNegotiation low => exact .inl (by revert low; decide)
  case pktInitial fixed rsv pnl ver =>
    exact .inl ⟨(longHeaderByte_fields fixed 0 rsv pnl).1,
      decodeLongHeader_longHeaderByte fixed 0 rsv pnl (of_decide_eq_true hw)⟩
  case pktZeroRtt fixed rsv pnl ver =>
    exact .inl ⟨(longHeaderByte_fields fixed 1 rsv pnl).1,
      decodeLongHeader_longHeaderByte fixed 1 rsv pnl (of_decide_eq_true hw)⟩
  case pktHandshake fixed rsv pnl ver =>
    exact .inl ⟨(longHeaderByte_fields fixed 2 rsv pnl).1,
      decodeLongHeader_longHeaderByte fixed 2 rsv pnl (of_decide_eq_true hw)⟩
  case pktRetry fixed rsv pnl ver =>
    exact .inl ⟨(longHeaderByte_fields fixed 3 rsv pnl).1,
      decodeLongHeader_longHeaderByte fixed 3 rsv pnl (of_decide_eq_true hw)⟩
  all_goals cases hs

/-! #### Frame types (R101, R102) -/

theorem decodeFrameType_unknown {t : VarVal} (h : 0x1e < t.toNat) : decodeFrameType t = .frmUnknown t := by
  unfold decodeFrameType
  split
  case h_32 => rfl
  all_goals omega

/-- The type of a decoded row is the value that was decoded, and the row is well formed (R101, R219). -/
theorem decodeFrameType_fields (t : VarVal) :
    frameTypeOf (decodeFrameType t) = t ∧ IsRow .frame (decodeFrameType t) := by
  have known : ∀ n < 0x1f, frameTypeOf (decodeFrameType (BitVec.ofNat 62 n)) = BitVec.ofNat 62 n ∧
      (decodeFrameType (BitVec.ofNat 62 n)).wellFormed = true := by decide +kernel
  obtain ⟨hs, -⟩ := decodeFrameType_row t
  by_cases ht : t.toNat < 0x1f
  · have h := known t.toNat ht
    rw [BitVec.ofNat_toNat, BitVec.setWidth_eq] at h
    exact ⟨h.1, h.2, hs⟩
  · have above : 0x1e < t.toNat := by omega
    rw [decodeFrameType_unknown above]
    exact ⟨rfl, decide_eq_true above, rfl⟩

/-- A well-formed frame row is the one its type selects (R101, R219). -/
theorem decodeFrameType_frameTypeOf {i : Instr} (hw : i.wellFormed = true) (hs : spaceOf i = .frame) :
    decodeFrameType (frameTypeOf i) = i := by
  cases i
  case frmStream off len fin => revert off len fin; decide
  case frmMaxStreams low => revert low; decide
  case frmStreamsBlocked low => revert low; decide
  case frmUnknown t => exact decodeFrameType_unknown (of_decide_eq_true hw)
  all_goals first | rfl | cases hs

/-! ### The decoder and the encoder on bytes -/

/-- All that the decoder can answer for an opcode (R110). -/
theorem decode_command_ok {bs rest : List Byte} {i : Instr} :
    decode .command bs = .ok (i, rest) ↔ ∃ op, bs = op :: rest ∧ decodeOpcode op = i := by
  cases bs with
  | nil => simp [decode]
  | cons op bs => simp [decode, and_comm]

/-- All that the decoder can answer for a header (R99). -/
theorem decode_header_ok {bs rest : List Byte} {i : Instr} :
    decode .header bs = .ok (i, rest) ↔
      ∃ b0, (isLongHeader b0 = true ∧ ∃ ver : BitVec 32, bs = b0 :: bytesBE ver.toNat 4 ++ rest ∧
          decodeLongHeader b0 ver = i) ∨
        (isLongHeader b0 = false ∧ bs = b0 :: rest ∧ decodeShortHeader b0 = i) := by
  constructor
  · intro h
    cases bs with
    | nil => simp [decode] at h
    | cons b0 bs =>
      rw [decode] at h
      split_ifs at h with hlong hshort
      · simp only [Except.ok.injEq, Prod.mk.injEq] at h
        obtain ⟨hi, rfl⟩ := h
        have size : (bs.take 4).length = 4 := by rw [List.length_take]; omega
        have bytes := bytesBE_beNat (bs.take 4)
        have small := beNat_lt (bs.take 4)
        rw [size] at bytes small
        refine ⟨b0, .inl ⟨hlong, _, ?_, hi⟩⟩
        rw [BitVec.toNat_ofNat, Nat.mod_eq_of_lt (show _ < 2 ^ 32 from small), bytes, List.cons_append,
          List.take_append_drop]
      · simp only [Except.ok.injEq, Prod.mk.injEq] at h
        obtain ⟨hi, rfl⟩ := h
        exact ⟨b0, .inr ⟨by simpa using hlong, rfl, hi⟩⟩
  · rintro ⟨b0, ⟨hlong, ver, rfl, rfl⟩ | ⟨hshort, rfl, rfl⟩⟩
    · have size := bytesBE_length ver.toNat 4
      have value : BitVec.ofNat 32 (beNat (bytesBE ver.toNat 4)) = ver := by
        rw [beNat_bytesBE, Nat.mod_eq_of_lt (show ver.toNat < 256 ^ 4 from ver.isLt), BitVec.ofNat_toNat,
          BitVec.setWidth_eq]
      simp [decode, hlong, List.take_left' size, List.drop_left' size, value, size]
    · simp [decode, hshort]

/-- All that the decoder can answer for a frame type, in whatever class it is written (R91, R122). -/
theorem decode_frame_ok {bs rest : List Byte} {i : Instr} :
    decode .frame bs = .ok (i, rest) ↔
      ∃ b0 more, bs = b0 :: more ++ rest ∧ more.length + 1 = varintSize b0 ∧
        decodeFrameType (BitVec.ofNat 62 (varintValue b0 more)) = i := by
  constructor
  · intro h
    rw [decode] at h
    split at h
    · cases h
    · rename_i v tail hv
      simp only [Except.ok.injEq, Prod.mk.injEq] at h
      obtain ⟨hi, rfl⟩ := h
      obtain ⟨b0, more, hbs, hlen, rfl⟩ := decodeVarIntBytes_eq_some.1 hv
      exact ⟨b0, more, hbs, hlen, hi⟩
  · rintro ⟨b0, more, hbs, hlen, rfl⟩
    rw [decode, decodeVarIntBytes_eq_some.2 ⟨b0, more, hbs, hlen, rfl⟩]

theorem encode_command {i : Instr} (hs : spaceOf i = .command) : encode i = [opcodeOf i] := by
  rw [encode, hs]

theorem encode_long {i : Instr} (hs : spaceOf i = .header) (h : isLongHeader (headerByteOf i) = true) :
    encode i = headerByteOf i :: bytesBE (versionOf i).toNat 4 := by
  simp only [encode, hs, h, if_true]

theorem encode_short {i : Instr} (hs : spaceOf i = .header) (h : isLongHeader (headerByteOf i) = false) :
    encode i = [headerByteOf i] := by
  simp only [encode, hs, h, Bool.false_eq_true, if_false]

/-- The encoding of a frame row is one whole VarInt of the row's type (R90, R101). -/
theorem encode_frame {i : Instr} (hs : spaceOf i = .frame) :
    ∃ b0 more, encode i = b0 :: more ∧ more.length + 1 = varintSize b0 ∧
      varintValue b0 more = (frameTypeOf i).toNat := by
  rw [encode, hs]
  exact varintBytes_whole (varintLeastClass_lt _) (varintFits_leastClass (frameTypeOf i).isLt)

/-- Settles O1: in each format the encoding is the byte string that `decode_command_ok`, `decode_header_ok` or
`decode_frame_ok` asks for, and the field decoder gives the row back. -/
theorem decodeInvertsEncode : Obligations.DecodeInvertsEncode := by
  intro i rest hw
  cases hs : spaceOf i with
  | command =>
    rw [encode_command hs]
    exact decode_command_ok.2 ⟨_, rfl, decodeOpcode_opcodeOf hs⟩
  | header =>
    rcases header_selected hw hs with ⟨hlong, hi⟩ | ⟨hshort, hi⟩
    · rw [encode_long hs hlong]
      exact decode_header_ok.2 ⟨_, .inl ⟨hlong, _, rfl, hi⟩⟩
    · rw [encode_short hs hshort]
      exact decode_header_ok.2 ⟨_, .inr ⟨hshort, rfl, hi⟩⟩
  | frame =>
    obtain ⟨b0, more, henc, hlen, hval⟩ := encode_frame hs
    refine decode_frame_ok.2 ⟨b0, more, by rw [henc], hlen, ?_⟩
    rw [hval, BitVec.ofNat_toNat, BitVec.setWidth_eq, decodeFrameType_frameTypeOf hw hs]

/-- Every row's field lies in the row's mask and pattern (R99, R101, R110). -/
theorem fieldOf_and_mask (i : Instr) : fieldOf i &&& (rowOf i).mask = (rowOf i).pat :=
  match i with
  | .nop => Laws.RowMatch.nop
  | .varintDec => Laws.RowMatch.varintDec
  | .varintEnc => Laws.RowMatch.varintEnc
  | .cidDec => Laws.RowMatch.cidDec
  | .pnDec => Laws.RowMatch.pnDec
  | .pktParse => Laws.RowMatch.pktParse
  | .frmOne => Laws.RowMatch.frmOne
  | .fseqBegin => Laws.RowMatch.fseqBegin
  | .fseqNext => Laws.RowMatch.fseqNext
  | .clear => Laws.RowMatch.clear
  | .reserved0A low => Laws.RowMatch.reserved0A low
  | .reserved0C low => Laws.RowMatch.reserved0C low
  | .reserved10 low => Laws.RowMatch.reserved10 low
  | .reserved20 low => Laws.RowMatch.reserved20 low
  | .reserved40 low => Laws.RowMatch.reserved40 low
  | .reserved80 low => Laws.RowMatch.reserved80 low
  | .pktOneRtt fixed spin rsv keyPhase pnl => Laws.RowMatch.pktOneRtt fixed spin rsv keyPhase pnl
  | .pktVersionNegotiation low => Laws.RowMatch.pktVersionNegotiation low
  | .pktInitial fixed rsv pnl ver => Laws.RowMatch.pktInitial fixed rsv pnl ver
  | .pktZeroRtt fixed rsv pnl ver => Laws.RowMatch.pktZeroRtt fixed rsv pnl ver
  | .pktHandshake fixed rsv pnl ver => Laws.RowMatch.pktHandshake fixed rsv pnl ver
  | .pktRetry fixed rsv pnl ver => Laws.RowMatch.pktRetry fixed rsv pnl ver
  | .frmPadding => Laws.RowMatch.frmPadding
  | .frmPing => Laws.RowMatch.frmPing
  | .frmAck => Laws.RowMatch.frmAck
  | .frmAckEcn => Laws.RowMatch.frmAckEcn
  | .frmResetStream => Laws.RowMatch.frmResetStream
  | .frmStopSending => Laws.RowMatch.frmStopSending
  | .frmCrypto => Laws.RowMatch.frmCrypto
  | .frmNewToken => Laws.RowMatch.frmNewToken
  | .frmStream off len fin => Laws.RowMatch.frmStream off len fin
  | .frmMaxData => Laws.RowMatch.frmMaxData
  | .frmMaxStreamData => Laws.RowMatch.frmMaxStreamData
  | .frmMaxStreams low => Laws.RowMatch.frmMaxStreams low
  | .frmDataBlocked => Laws.RowMatch.frmDataBlocked
  | .frmStreamDataBlocked => Laws.RowMatch.frmStreamDataBlocked
  | .frmStreamsBlocked low => Laws.RowMatch.frmStreamsBlocked low
  | .frmNewConnectionId => Laws.RowMatch.frmNewConnectionId
  | .frmRetireConnectionId => Laws.RowMatch.frmRetireConnectionId
  | .frmPathChallenge => Laws.RowMatch.frmPathChallenge
  | .frmPathResponse => Laws.RowMatch.frmPathResponse
  | .frmConnectionCloseQuic => Laws.RowMatch.frmConnectionCloseQuic
  | .frmConnectionCloseApp => Laws.RowMatch.frmConnectionCloseApp
  | .frmHandshakeDone => Laws.RowMatch.frmHandshakeDone
  | .frmUnknown typ => Laws.RowMatch.frmUnknown typ

/-- A decoded row is well formed and of the format asked for. -/
theorem decode_row {sp : Space} {bs rest : List Byte} {i : Instr} (h : decode sp bs = .ok (i, rest)) : IsRow sp i := by
  cases sp with
  | command =>
    obtain ⟨op, -, rfl⟩ := decode_command_ok.1 h
    exact decodeOpcode_row op
  | header =>
    obtain ⟨b0, ⟨-, ver, -, rfl⟩ | ⟨-, -, rfl⟩⟩ := decode_header_ok.1 h
    · exact decodeLongHeader_row b0 ver
    · exact ⟨rfl, rfl⟩
  | frame =>
    obtain ⟨b0, more, -, -, rfl⟩ := decode_frame_ok.1 h
    exact (decodeFrameType_fields _).2

/-- The bytes that were decoded to an opcode or a header are its encoding: these have one each (R99, R110). -/
theorem encode_of_decode {sp : Space} {bs rest : List Byte} {i : Instr} (h : decode sp bs = .ok (i, rest))
    (hsp : sp ≠ .frame) : encode i ++ rest = bs := by
  have space := (decode_row h).space
  cases sp with
  | command =>
    obtain ⟨op, rfl, rfl⟩ := decode_command_ok.1 h
    rw [encode_command space, opcodeOf_decodeOpcode, List.singleton_append]
  | header =>
    obtain ⟨b0, ⟨hlong, ver, rfl, rfl⟩ | ⟨hshort, rfl, rfl⟩⟩ := decode_header_ok.1 h
    · obtain ⟨hbyte, hver⟩ := decodeLongHeader_fields hlong ver
      rw [encode_long space ((congrArg isLongHeader hbyte).trans hlong), hbyte, hver]
    · have hbyte := headerByteOf_decodeShortHeader hshort
      rw [encode_short space ((congrArg isLongHeader hbyte).trans hshort), hbyte, List.singleton_append]
  | frame => exact absurd rfl hsp

/-- Settles O2: `decode_row` and `encode_of_decode`; for a frame the value read is below 2^62, so it is the row's
type. -/
theorem decodedRowIsUnique : Obligations.DecodedRowIsUnique := by
  intro sp bs rest i h
  have row := decode_row h
  refine ⟨row.wellFormed, row.space, fieldOf_and_mask i, encode_of_decode h, ?_⟩
  rintro rfl
  obtain ⟨b0, more, hbs, hlen, hi⟩ := decode_frame_ok.1 h
  refine ⟨b0, more, hbs, hlen, ?_⟩
  have size := varintSize_le b0
  have small : varintValue b0 more < 2 ^ 62 := varintValue_lt b0 more (by omega)
  have typ : frameTypeOf i = BitVec.ofNat 62 (varintValue b0 more) := hi ▸ (decodeFrameType_fields _).1
  rw [fieldOf, row.space]
  show (frameTypeOf i).toNat = varintValue b0 more
  rw [typ, BitVec.toNat_ofNat, Nat.mod_eq_of_lt small]

/-- Settles O3: the words that are encodings by `decodeInvertsEncode`; the type in a wider class and the short type by
evaluation. -/
theorem sampleWordsDecode : Obligations.SampleWordsDecode :=
  ⟨decodeInvertsEncode .pktParse [] rfl, decodeInvertsEncode (.reserved0A 1) [] rfl,
    decodeInvertsEncode (.pktInitial 1 0 1 1) [] rfl, decodeInvertsEncode (.pktVersionNegotiation 0x33) [0x2A] rfl,
    decodeInvertsEncode (.pktOneRtt 1 0 0 1 3) [] rfl, rfl, decodeInvertsEncode (.frmStream 0 1 1) [] rfl,
    decodeInvertsEncode (.frmUnknown 0x1F) [0x00] rfl, rfl⟩

end Sys2Proof
end

section
/-! Selection (30_encoding.md): the rows of reserved opcodes (R134), and that `PKT_PARSE` and the frame commands are the
step of the row their bytes select (R99, R101). -/

namespace Sys2Proof.Machine
open Sys2Proof.Proofs

/-! ### Reserved opcodes -/

theorem exec_reserved {i : Instr} (h : isReserved i = true) (s : State) :
    exec i s = .next (reservedRefused s (opcodeOf i)) := by
  cases i
  case reserved0A => rfl
  case reserved0C => rfl
  case reserved10 => rfl
  case reserved20 => rfl
  case reserved40 => rfl
  case reserved80 => rfl
  all_goals cases h

/-- Settles O13: the rows by `exec_reserved`; a word's low byte selects one of them (`decodeOpcode_reserved`) or a named
command (`decodeOpcode_named`). -/
theorem reservedOpcodeResult : Obligations.ReservedOpcodeResult := by
  intro s
  refine ⟨fun _ => exec_reserved rfl s, fun _ => exec_reserved rfl s, fun _ => exec_reserved rfl s,
    fun _ => exec_reserved rfl s, fun _ => exec_reserved rfl s, fun _ => exec_reserved rfl s,
    fun w h => ?_, fun w h => ?_⟩
  · obtain ⟨reserved, opcode⟩ := decodeOpcode_reserved h
    rw [decodeCommand, exec_reserved reserved, opcode]
  · rw [decodeOpcode_named _ h, BitVec.ofNat_toNat, BitVec.setWidth_eq, decodeCommand]

/-! ### Commands that run a row -/

theorem runCommand_congr {c : Cmd} {op : Byte} {rule rule' : Params → Lane → Parse Lane} {s : State}
    (h : rule s.params (s.lane.accept op) = rule' s.params (s.lane.accept op)) :
    runCommand c op rule s = runCommand c op rule' s := by
  rw [runCommand, h, runCommand]

/-- Behind a precheck that passes, a `PKT_PARSE` step is its header parse (R150, R250). -/
theorem pktCommand_of_cursor {s : State} (hc : CursorOk s) (rule : Window → Nat → Parse Header) (op : Byte) :
    pktCommand rule s.params (s.lane.accept op) =
      (rule (hostWindow s) (low32 s.lane.cur) >>= fun h =>
        .ok (finishHeader h (low32 s.lane.cur) (low32 s.lane.ilen) (s.lane.accept op))) := by
  have passed : ibufWindow s.params (s.lane.accept op) = .ok (hostWindow s, low32 s.lane.cur) :=
    ibufWindow_of_ok hc.1 hc.2
  rw [pktCommand, passed, parse_ok_bind]
  rfl

/-- A `PKT_PARSE` step whose header parse raises (R245). -/
theorem runPktParse_of_raise {s : State} (hc : CursorOk s) {rule : Window → Nat → Parse Header} {c : ErrCause} {q : Nat}
    (h : rule (hostWindow s) (low32 s.lane.cur) = raise c q) :
    runCommand .pktParse 0x05 (pktCommand rule) s = .next (packetFailed s c q) := by
  refine runCommand_of_raise (e := c) (p := q) ?_
  rw [pktCommand_of_cursor hc, h, parse_bind_raise]

/-- `PKT_PARSE` is the whole step of the header row that its bytes select (R157). -/
theorem exec_pktParse_of_selected {s : State} (hc : CursorOk s) {i : Instr} (hi : spaceOf i = .header)
    (h : fetchHeader (hostWindow s) (low32 s.lane.cur) = .ok i) : exec .pktParse s = exec i s := by
  rw [exec_header hi]
  refine runCommand_congr ?_
  rw [pktCommand_of_cursor hc, pktCommand_of_cursor hc, parseHeader, h, parse_ok_bind]

/-! ### The bytes that select a header row -/

section
variable {w : Window} {p : Nat} {b0 : Byte}

theorem fetchHeader_empty (h : w.lim ≤ p) : fetchHeader w p = raise .hdrEof p := by
  rw [fetchHeader, need_of_lt (by omega), parse_bind_raise]

theorem fetchHeader_short (hp : p < w.lim) (hb : Mem.read w.mem p = some b0) (h : isLongHeader b0 = false) :
    fetchHeader w p = .ok (decodeShortHeader b0) := by
  rw [fetchHeader, need_of_le (by omega), parse_ok_bind, readByte_ok.2 hb, parse_ok_bind, h]
  rfl

theorem fetchHeader_noVersion (hp : p < w.lim) (hb : Mem.read w.mem p = some b0) (h : isLongHeader b0 = true)
    (hlim : w.lim < p + 5) : fetchHeader w p = raise .versionEof (p + 1) := by
  rw [fetchHeader, need_of_le (by omega), parse_ok_bind, readByte_ok.2 hb, parse_ok_bind, if_pos h,
    need_of_lt (by omega), parse_bind_raise]

theorem fetchHeader_long (hb : Mem.read w.mem p = some b0) (h : isLongHeader b0 = true) (hlim : p + 5 ≤ w.lim)
    {v3 v2 v1 v0 : Byte} (hv : w.holds (p + 1) [v3, v2, v1, v0]) :
    fetchHeader w p = .ok (decodeLongHeader b0 (v3 ++ v2 ++ v1 ++ v0)) := by
  have version : memRead w (p + 1) 4 = .ok [v3, v2, v1, v0] := memRead_ok.2 ⟨rfl, hv⟩
  rw [fetchHeader, need_of_le (by omega), parse_ok_bind, readByte_ok.2 hb, parse_ok_bind, if_pos h,
    need_of_le (by omega), parse_ok_bind, version, parse_ok_bind, ofNat_beNat_four]

theorem parseHeader_of_raise {c : ErrCause} {q : Nat} (h : fetchHeader w p = raise c q) :
    parseHeader w p = raise c q := by
  rw [parseHeader, h, parse_bind_raise]

end

/-- Settles O4: `fetchHeader` in each case, and the step of the row it answers. -/
theorem pktParseRunsSelectedRow : Obligations.PktParseRunsSelectedRow := by
  intro s hc
  refine ⟨fun hend => ?_, fun b0 hp hb => ⟨fun hshort => ?_, fun hlong hlim => ?_, ?_⟩⟩
  · exact runPktParse_of_raise hc (parseHeader_of_raise (fetchHeader_empty hend.ge))
  · exact exec_pktParse_of_selected hc rfl (fetchHeader_short hp hb hshort)
  · exact runPktParse_of_raise hc (parseHeader_of_raise (fetchHeader_noVersion hp hb hlong hlim))
  rintro v3 v2 v1 v0 hlong hlim hv ver rfl
  have selected := exec_pktParse_of_selected hc (decodeLongHeader_row b0 _).space (fetchHeader_long hb hlong hlim hv)
  refine ⟨fun h0 => ?_, fun hne hty => ?_, fun hne hty => ?_, fun hne hty => ?_, fun hne hty => ?_⟩
  · rw [selected, h0, decodeLongHeader_zero]
  all_goals
    rw [selected, decodeLongHeader_of_version hne, hty]
    rfl

/-! ### The row of a frame type -/

/-- `ParseFrame` is the parse of the row that the type selects (R190, R191). -/
theorem parseFrame_of_type {pr : Params} {w : Window} {p p1 : Nat} {t : VarVal} (ht : readVar w p = .ok (t, p1)) :
    parseFrame pr w p = parseRow (decodeFrameType t) (frameRule (decodeFrameType t)) pr w p := by
  rw [parseFrame, parseRow, ht, parse_ok_bind, parse_ok_bind, (decodeFrameType_fields t).1]

theorem frameCommand_congr {d : FrameCmd} {parse parse' : Params → Window → Nat → Parse FrameOut} {pr : Params}
    {l : Lane} {w : Window} {p : Nat} (hw : frameWindow d pr l = .ok (w, p)) (h : parse pr w p = parse' pr w p) :
    frameCommand d parse pr l = frameCommand d parse' pr l := by
  simp only [frameCommand, hw, parse_ok_bind, h]

/-- The frame command being executed, on a window whose type decodes, is the step of the type's row. -/
theorem runFrame_of_type {s : State} {w : Window} {p p1 : Nat} {t : VarVal} (hw : FrameAt s w p)
    (ht : readVar w p = .ok (t, p1)) :
    runCommand (frameCmdOf s).cmd (frameCmdOf s).opcode (frameCommand (frameCmdOf s) parseFrame) s =
      exec (decodeFrameType t) s := by
  rw [exec_row (decodeFrameType_fields t).2.space, runRow]
  exact runCommand_congr (frameCommand_congr (frameWindow_of_frameAt hw _) (parseFrame_of_type ht))

theorem frameAt_one {s : State} (hd : frameCmdOf s = .one) (hc : CursorOk s) :
    FrameAt s (hostWindow s) (low32 s.lane.cur) := by
  rw [FrameAt, hd]
  exact ⟨hc, rfl, rfl⟩

theorem frameAt_next {s : State} (hd : frameCmdOf s = .next) : FrameAt s (sequenceWindow s) s.lane.fcur.toNat := by
  rw [FrameAt, hd]
  exact ⟨rfl, rfl⟩

/-- `FSEQ_NEXT` on an active sequence with bytes left parses a frame (R194). -/
theorem ruleFseqNext_of_active {pr : Params} {l : Lane} (hactive : l.fstate = .active) (hleft : l.fcur ≠ l.fend) :
    ruleFseqNext pr l = frameCommand .next parseFrame pr l := by
  simp only [ruleFseqNext, hactive, if_neg hleft]

/-- Settles O31: `FRM_ONE` and an active `FSEQ_NEXT` are the frame command being executed, whose row is the type's. -/
theorem frameCommandsRunSelectedRow : Obligations.FrameCommandsRunSelectedRow := by
  intro s t p1
  refine ⟨fun hd hc ht => ?_, fun hd hactive hleft ht => ?_⟩
  · rw [← runFrame_of_type (frameAt_one hd hc) ht, hd]
    rfl
  · rw [← runFrame_of_type (frameAt_next hd) ht, hd]
    exact runCommand_congr (ruleFseqNext_of_active hactive hleft)

/-! ### Stream frames -/

theorem optVar_of_present {b : BitVec 1} {w : Window} {p q : Nat} {v : VarVal} (h1 : b = 1 → readVar w p = .ok (v, q))
    (h0 : b = 0 → v = 0 ∧ q = p) : optVar b w p = .ok (v, q) := by
  obtain rfl | rfl := BitVec.eq_zero_or_eq_one b
  · obtain ⟨rfl, rfl⟩ := h0 rfl
    rfl
  · exact h1 rfl

/-- A field that is absent is none of the VarInts in a row; one that is present is their first. -/
theorem optVar_bind_short {α : Type} {b : BitVec 1} {w : Window} {n p q : Nat} {k : VarVal × Nat → Parse α}
    (h : VarIntsShort w (n + b.toNat) p q)
    (hk : ∀ v p1, VarIntsShort w n p1 q → k (v, p1) = raise .varintEof q) :
    (optVar b w p >>= k) = raise .varintEof q := by
  obtain rfl | rfl := BitVec.eq_zero_or_eq_one b
  · exact hk 0 p h
  · exact readVar_bind_short h fun v p1 _ => hk v p1

/-- The first short VarInt of those that the type calls for (R122, R205). -/
theorem ruleStream_short {o l fin : BitVec 1} {pr : Params} {w : Window} {t0 p q : Nat} {f : Frm}
    (h : VarIntsShort w (1 + o.toNat + l.toNat) p q) : ruleStream o l fin pr w t0 f p = raise .varintEof q := by
  rw [show 1 + o.toNat + l.toNat = 0 + l.toNat + o.toNat + 1 by omega] at h
  exact readVar_bind_short h fun _ _ _ h => optVar_bind_short h fun _ _ h => optVar_bind_short h fun _ _ h => h.elim

/-- How far behind the fields the data of a Crypto or Stream frame starts (R5, R203, R205). -/
def dataSkip (pr : Params) (off : Nat) : Nat := if pr.layout = .offsetRelative then off else 0

theorem dataSkip_of_relative {pr : Params} (h : pr.layout = .offsetRelative) (off : Nat) : dataSkip pr off = off := by
  rw [dataSkip, if_pos h]

theorem dataSkip_of_immediate {pr : Params} (h : pr.layout = .immediate) (off : Nat) : dataSkip pr off = 0 := by
  simp [dataSkip, h]

section
variable {pr : Params} {w : Window} {off len p : Nat}

theorem placedData_of_fits (h : p + dataSkip pr off + len ≤ w.lim) :
    placedData pr w off len p = .ok (sliceOf w (p + dataSkip pr off) len, p + dataSkip pr off + len) := by
  cases hlayout : pr.layout with
  | offsetRelative =>
    rw [dataSkip_of_relative hlayout] at h ⊢
    simp only [placedData, hlayout]
    rw [need_of_le (by omega), parse_ok_bind]
  | immediate =>
    rw [dataSkip_of_immediate hlayout] at h ⊢
    simp only [placedData, hlayout]
    rw [takeSlice, need_of_le (by omega), parse_ok_bind, Nat.add_zero]

theorem placedData_of_past (hp : p ≤ w.lim) (h : w.lim < p + dataSkip pr off + len) :
    placedData pr w off len p = raise .dataEof p := by
  cases hlayout : pr.layout with
  | offsetRelative =>
    rw [dataSkip_of_relative hlayout] at h
    simp only [placedData, hlayout]
    rw [need_of_lt (by omega), parse_bind_raise]
  | immediate =>
    rw [dataSkip_of_immediate hlayout] at h
    simp only [placedData, hlayout]
    rw [takeSlice, need_of_lt (by omega), parse_bind_raise]

theorem restData_of_fits (h : p + dataSkip pr off ≤ w.lim) :
    restData pr w off p = .ok (sliceOf w (p + dataSkip pr off) (w.lim - p - dataSkip pr off), w.lim) := by
  cases hlayout : pr.layout with
  | offsetRelative =>
    rw [dataSkip_of_relative hlayout] at h ⊢
    simp only [restData, hlayout]
    rw [need_of_le (by omega), parse_ok_bind]
  | immediate =>
    rw [dataSkip_of_immediate hlayout, Nat.add_zero, Nat.sub_zero]
    simp only [restData, hlayout]

/-- Only a skip can lead past the end, which is never so when the data follow the fields (R205). -/
theorem restData_of_past (hp : p ≤ w.lim) (h : w.lim < p + dataSkip pr off) :
    restData pr w off p = raise .dataEof p := by
  cases hlayout : pr.layout with
  | offsetRelative =>
    rw [dataSkip_of_relative hlayout] at h
    simp only [restData, hlayout]
    rw [need_of_lt (by omega), parse_bind_raise]
  | immediate =>
    rw [dataSkip_of_immediate hlayout] at h
    omega

variable {l : BitVec 1} {size stop : Nat}

/-- The data of a Stream frame, of the length read or up to the end of the window (R205). -/
theorem streamData_of_fits (hsize : size = if l = 1 then len else w.lim - p - dataSkip pr off)
    (hstop : stop = if l = 1 then p + dataSkip pr off + size else w.lim)
    (h : p + dataSkip pr off + (if l = 1 then size else 0) ≤ w.lim) :
    streamData pr l w off len p = .ok (sliceOf w (p + dataSkip pr off) size, stop) := by
  unfold streamData
  split_ifs at hsize hstop h ⊢
  · subst hsize hstop
    exact placedData_of_fits h
  · subst hsize hstop
    exact restData_of_fits h

theorem streamData_of_past (hsize : size = if l = 1 then len else w.lim - p - dataSkip pr off) (hp : p ≤ w.lim)
    (h : w.lim < p + dataSkip pr off + (if l = 1 then size else 0)) :
    streamData pr l w off len p = raise .dataEof p := by
  unfold streamData
  split_ifs at hsize h ⊢
  · exact placedData_of_past hp (hsize ▸ h)
  · exact restData_of_past hp h

end

/-- Settles O38: the short VarInt by `ruleStream_short`; else the fields are read and the data fit or lead past the
window. -/
theorem streamFrameResult : Obligations.StreamFrameResult := by
  intro o l fin s w p t p1 hw ht
  refine ⟨fun q h => exec_row_of_raise (i := .frmStream o l fin) rfl hw ht (ruleStream_short (t0 := p) h) nofun, ?_⟩
  intro sid off len p2 p3 p4 hsid ho1 ho0 hl1 hl0 skip size stop hskip hsize hstop
  change skip = dataSkip s.params off.toNat at hskip
  subst hskip
  have readOff := optVar_of_present ho1 ho0
  have readLen := optVar_of_present hl1 hl0
  have inside := (optVar_ok readLen (optVar_ok readOff (readVar_bounds hsid).2).2).2
  refine ⟨fun hfits => ?_, fun hpast => ?_⟩
  · have data := streamData_of_fits hsize hstop hfits
    refine exec_row_of_ok (i := .frmStream o l fin) rfl hw ht (out := ⟨_, [], stop⟩) ?_
    simp only [frameRule, ruleStream, hsid, readOff, readLen, data, parse_ok_bind]
    rfl
  · have data := streamData_of_past hsize inside hpast
    refine exec_row_of_raise (i := .frmStream o l fin) rfl hw ht ?_ nofun
    simp only [frameRule, ruleStream, hsid, readOff, readLen, data, parse_ok_bind, parse_bind_raise]

end Sys2Proof.Machine
end

section
/-! The codecs (40_codecs.md): `EncodeVarInt` case by case with its round trip (R125, R126), and the step of each codec
and control command (R121 to R133). -/

namespace Sys2Proof.Machine
open Sys2Proof.Proofs

/-! ### `EncodeVarInt` (R126) -/

theorem varintFits_iff {c v : Nat} : varintFits c v = true ↔ v < 2 ^ (8 * 2 ^ c - 2) := decide_eq_true_iff

theorem not_varintBound_le {v : Nat} (hv : v < 2 ^ 62) : ¬ v ≥ Config.varintBound := Nat.not_le.2 hv

/-- The request 0 takes the least class. -/
theorem encodeVarInt_least {v : Nat} (hv : v < 2 ^ 62) :
    encodeVarInt v 0 = .ok (varintBytes (varintLeastClass v) v) := by
  rw [encodeVarInt, if_neg (not_varintBound_le hv), if_pos rfl]

/-- The request `c + 1` takes the class `c` when the value fits it. -/
theorem encodeVarInt_class {c v : Nat} (hc : c < 4) (hv : v < 2 ^ 62) (hfits : varintFits c v = true) :
    encodeVarInt v (c + 1) = .ok (varintBytes c v) := by
  rw [encodeVarInt, if_neg (not_varintBound_le hv), if_neg c.succ_ne_zero, if_pos (by omega), Nat.add_sub_cancel,
    if_pos hfits]

/-- What `EncodeVarInt` refuses: a value of 2^62 or more, a request above 4, or a class that cannot hold the value. -/
theorem encodeVarInt_refused {v r : Nat}
    (h : 2 ^ 62 ≤ v ∨ 4 < r ∨ (1 ≤ r ∧ ¬ v < 2 ^ (8 * 2 ^ (r - 1) - 2))) : encodeVarInt v r = raise .badArg 0 := by
  unfold encodeVarInt
  split_ifs with hbig hleast hclass hfits
  case neg | neg => rfl
  · rfl
  · rcases h with h | h | ⟨h, -⟩
    · exact absurd h hbig
    · omega
    · omega
  · rcases h with h | h | ⟨-, h⟩
    · exact absurd h hbig
    · omega
    · exact absurd (varintFits_iff.1 hfits) h

/-- Every accepted encoding is the value's bytes in a class that can hold it. -/
theorem encodeVarInt_fits {v r : Nat} {bs : List Byte} (h : encodeVarInt v r = .ok bs) :
    ∃ c < 4, varintFits c v = true ∧ bs = varintBytes c v := by
  unfold encodeVarInt at h
  split_ifs at h with hbig hleast hclass hfits
  case neg | neg | pos => exact absurd h (raise_ne_ok _ _ _)
  · cases h
    exact ⟨_, varintLeastClass_lt v, varintFits_leastClass (Nat.not_le.1 hbig), rfl⟩
  · cases h
    exact ⟨r - 1, by omega, hfits, rfl⟩

/-- No class below the least one can hold the value. -/
theorem not_varintFits_of_lt_least {d v : Nat} (h : d < varintLeastClass v) : ¬ varintFits d v = true := by
  unfold varintLeastClass at h
  split_ifs at h with h0 h1 h2
  · omega
  · rwa [show d = 0 by omega]
  · obtain rfl | rfl : d = 0 ∨ d = 1 := by omega
    exacts [h0, h1]
  · obtain rfl | rfl | rfl : d = 0 ∨ d = 1 ∨ d = 2 := by omega
    exacts [h0, h1, h2]

/-- A first byte is its value bits under its class (R90). -/
theorem varintHead_split : ∀ b0 : Byte, b0.toNat = (b0 &&& 0x3F#8).toNat + varintClass b0 * 64 := by decide

/-- The number a whole VarInt spells is its value under its class (R90, R126). -/
theorem beNat_varint (b0 : Byte) (more : List Byte) :
    beNat (b0 :: more) = varintValue b0 more + varintClass b0 * (64 * 256 ^ more.length) := by
  rw [varintValue, beNat_cons, beNat_cons, varintHead_split b0]
  ring

/-- A class of `2^c` bytes has six value bits in its first byte and eight in each other (R126). -/
theorem varintRoom {c n : Nat} (h : n + 1 = 2 ^ c) : 2 ^ (8 * 2 ^ c - 2) = 64 * 256 ^ n := by
  rw [← h, show 8 * (n + 1) - 2 = 6 + 8 * n by omega, Nat.pow_add, Nat.pow_mul]

/-- The bytes of a value, as a number, are the value under its class bits (R126). -/
theorem beNat_varintBytes {c v : Nat} (hc : c < 4) (hfits : varintFits c v = true) :
    beNat (varintBytes c v) = v + c * 2 ^ (8 * 2 ^ c - 2) := by
  obtain ⟨b0, more, hbytes, hsize, hvalue⟩ := varintBytes_whole hc hfits
  have hlen := varintBytes_length c v
  rw [hbytes, List.length_cons] at hlen
  have hclass : varintClass b0 = c := Nat.pow_right_injective le_rfl (hsize.symm.trans hlen)
  rw [hbytes, beNat_varint, hvalue, hclass, varintRoom hlen]

/-- Settles O5: the bytes are one whole VarInt of the value (`varintBytes_whole`), and `DecodeVarInt` reads it. -/
theorem varIntDecodesWhatItEncodes : Obligations.VarIntDecodesWhatItEncodes := by
  intro v r p bs w henc hholds hfit
  obtain ⟨c, hc, hfits, rfl⟩ := encodeVarInt_fits henc
  obtain ⟨b0, more, hbytes, hsize, hvalue⟩ := varintBytes_whole hc hfits
  rw [hbytes] at hholds hfit ⊢
  rw [List.length_cons, hsize] at hfit ⊢
  rw [decodeVarInt_of_holds hholds hsize hfit, hvalue]

/-- Settles O6: the class by `encodeVarInt_least` and `encodeVarInt_class`, the bytes by `beNat_varintBytes`, the
refusals by `encodeVarInt_refused`. -/
theorem varIntEncodingChosen : Obligations.VarIntEncodingChosen := by
  intro v r
  refine ⟨fun hv hr => ?_, fun hv hmin hmax hroom => ?_, encodeVarInt_refused⟩
  · have hc := varintLeastClass_lt v
    have hfits := varintFits_leastClass hv
    subst hr
    exact ⟨_, _, encodeVarInt_least hv, hc, varintFits_iff.1 hfits,
      fun d hd hroom => not_varintFits_of_lt_least hd (varintFits_iff.2 hroom), varintBytes_length _ v,
      beNat_varintBytes hc hfits⟩
  · obtain ⟨c, rfl⟩ := Nat.exists_eq_add_of_le' hmin
    rw [Nat.add_sub_cancel] at hroom ⊢
    have hc : c < 4 := by omega
    have hfits := varintFits_iff.2 hroom
    exact ⟨_, encodeVarInt_class hc hv hfits, varintBytes_length c v, beNat_varintBytes hc hfits⟩

/-! ### Commands on the host window -/

section
variable {s : State}

/-- Behind a precheck that passes stands the host window (R27, R250). -/
theorem ibufWindow_of_cursor (hc : CursorOk s) (op : Byte) :
    ibufWindow s.params (s.lane.accept op) = .ok (hostWindow s, low32 s.lane.cur) :=
  ibufWindow_of_ok hc.1 hc.2

/-- A command that starts with the precheck raises `BAD_CURSOR` at a cursor that fails it (R250). -/
theorem runCommand_of_badCursor {c : Cmd} {op : Byte} {rule : Params → Lane → Parse Lane}
    {k : Window × Nat → Parse Lane}
    (hk : rule s.params (s.lane.accept op) = (ibufWindow s.params (s.lane.accept op) >>= k)) (hc : ¬ CursorOk s) :
    runCommand c op rule s =
      .next { s with lane := errorEntry c .badCursor (low32 s.lane.cur) (s.lane.accept op) } := by
  have refused : ibufWindow s.params (s.lane.accept op) = raise .badCursor (low32 s.lane.cur) := ibufWindow_of_bad hc
  refine runCommand_of_raise ?_
  rw [hk, refused, parse_bind_raise]

end

/-! ### `VARINT_DEC` and `VARINT_ENC` -/

section
variable {s : State}

theorem exec_varintDec_of_ok {v q : Nat} (hc : CursorOk s)
    (h : decodeVarInt (hostWindow s) (low32 s.lane.cur) = .ok (v, q)) :
    exec .varintDec s = .next { s with lane := { s.lane with
      cmd := none, lastCmd := 0x01, rval := BitVec.ofNat 64 v, cur := BitVec.ofNat 64 q, err := .clear,
      st := .done } } := by
  refine runCommand_of_ok ?_
  simp only [ruleVarintDec, ibufWindow_of_cursor hc, h, parse_ok_bind]
  rfl

theorem exec_varintDec_of_raise {e : ErrCause} {q : Nat} (hc : CursorOk s)
    (h : decodeVarInt (hostWindow s) (low32 s.lane.cur) = raise e q) :
    exec .varintDec s = .next { s with lane := { s.lane with
      cmd := none, lastCmd := 0x01, rval := 0, err := .raised e (BitVec.ofNat 32 q) .ibuf, st := .error } } := by
  refine runCommand_of_raise (e := e) (p := q) ?_
  simp only [ruleVarintDec, ibufWindow_of_cursor hc, h, parse_ok_bind, parse_bind_raise]

/-- Settles O7: `DecodeVarInt` on the host window, and the precheck before it. -/
theorem varintDecResult : Obligations.VarintDecResult := by
  intro s
  refine ⟨fun b0 rest n hc hn hholds hlen hfit => ?_, fun hc hshort => ?_, fun hc => runCommand_of_badCursor rfl hc⟩
  · subst hn
    exact exec_varintDec_of_ok hc (decodeVarInt_of_holds hholds hlen hfit)
  · exact exec_varintDec_of_raise hc (decodeVarInt_short (hshort.imp_left Eq.ge))

/-- Settles O8: `VARINT_ENC` stores what `EncodeVarInt` answers, and `encodeVarInt_refused` says what it refuses. -/
theorem varintEncResult : Obligations.VarintEncResult := by
  intro s
  refine ⟨fun bs h => runCommand_of_ok ?_, fun h => runCommand_of_raise (e := .badArg) (p := 0) ?_⟩
  · simp only [ruleVarintEnc, Lane.accept_arg0, Lane.accept_arg1, h, parse_ok_bind]
    rfl
  · simp only [ruleVarintEnc, Lane.accept_arg0, Lane.accept_arg1, encodeVarInt_refused h, parse_bind_raise]

/-! ### `CID_DEC` and `PN_DEC` -/

theorem exec_cidDec_of_ok {cid : Cid} {q : Nat} (hc : CursorOk s)
    (h : decodeCid (hostWindow s) (low32 s.lane.cur) = .ok (cid, q)) :
    exec .cidDec s = .next { s with lane := { s.lane with
      cmd := none, lastCmd := 0x03, rcid := cid, cur := BitVec.ofNat 64 q, err := .clear, st := .done } } := by
  refine runCommand_of_ok ?_
  simp only [ruleCidDec, ibufWindow_of_cursor hc, h, parse_ok_bind]
  rfl

/-- A ConnectionId that fails is raised at its length byte, which is the cursor (R128, R129). -/
theorem exec_cidDec_of_fails {e : ErrCause} (hc : CursorOk s) (h : CidFails (hostWindow s) (low32 s.lane.cur) e) :
    exec .cidDec s = .next { s with lane := { s.lane with
      cmd := none, lastCmd := 0x03, rcid := Cid.zero,
      err := .raised e (BitVec.ofNat 32 (low32 s.lane.cur)) .ibuf, st := .error } } := by
  refine runCommand_of_raise (e := e) (p := low32 s.lane.cur) ?_
  simp only [ruleCidDec, ibufWindow_of_cursor hc, decodeCid_fails h, parse_ok_bind, parse_bind_raise]

/-- Settles O9: a whole ConnectionId by `decodeCid_of_holds`, and each way it fails is a case of `CidFails`. -/
theorem cidDecResult : Obligations.CidDecResult := by
  intro s
  refine ⟨fun len bs hc hholds hlen hmax hfit => ?_, fun hc hend => ?_, fun len hc hlt hread hbig => ?_,
    fun len hc hlt hread hmax hshort => ?_, fun hc => runCommand_of_badCursor rfl hc⟩
  · exact exec_cidDec_of_ok hc ((decodeCid_of_holds hholds hlen hmax hfit).trans (by rw [← hlen]; rfl))
  · exact exec_cidDec_of_fails hc (.inl ⟨hend.ge, rfl⟩)
  · exact exec_cidDec_of_fails hc (.inr ⟨len, hlt, hread, .inl ⟨hbig, rfl⟩⟩)
  · exact exec_cidDec_of_fails hc (.inr ⟨len, hlt, hread, .inr ⟨hmax, hshort, rfl⟩⟩)

/-- `DecodePn` on a window that holds the bytes (R131). -/
theorem decodePn_of_holds {w : Window} {p : Nat} {bs : List Byte} (h : w.holds p bs) (hfit : p + bs.length ≤ w.lim) :
    decodePn w p bs.length = .ok (BitVec.ofNat 32 (beNat bs), p + bs.length) := by
  rw [decodePn, need_of_le (by omega), parse_ok_bind, memRead_ok.2 ⟨rfl, h⟩, parse_ok_bind]

/-- `DecodePn` with fewer bytes left than the width (R131). -/
theorem decodePn_short {w : Window} {p n : Nat} (hp : p ≤ w.lim) (h : w.lim < p + n) :
    decodePn w p n = raise .pnEof p := by
  rw [decodePn, need_of_lt (by omega), parse_bind_raise]

/-- At most four bytes give the same number in 32 bits, extended, as in 64 (R131). -/
theorem setWidth_beNat {bs : List Byte} (h : bs.length ≤ 4) :
    (BitVec.ofNat 32 (beNat bs)).setWidth 64 = BitVec.ofNat 64 (beNat bs) := by
  have small : beNat bs < 2 ^ 32 := (beNat_lt bs).trans_le (Nat.pow_le_pow_right (by decide) h : _ ≤ 256 ^ 4)
  apply BitVec.eq_of_toNat_eq
  rw [BitVec.toNat_setWidth, BitVec.toNat_ofNat, BitVec.toNat_ofNat, Nat.mod_eq_of_lt small]

/-- A `PN_DEC` whose width is one to four bytes is that read (R132). -/
theorem rulePnDec_of_width (hc : CursorOk s) (hmin : 1 ≤ s.lane.arg0.toNat) (hmax : s.lane.arg0.toNat ≤ 4) (op : Byte) :
    rulePnDec s.params (s.lane.accept op) =
      (decodePn (hostWindow s) (low32 s.lane.cur) s.lane.arg0.toNat >>= fun x =>
        .ok { (s.lane.accept op).commit with rval := x.1.setWidth 64, cur := BitVec.ofNat 64 x.2 }) := by
  have width : ¬ (s.lane.arg0.toNat < 1 ∨ 4 < s.lane.arg0.toNat) := by omega
  simp only [rulePnDec, ibufWindow_of_cursor hc, parse_ok_bind, Lane.accept_arg0]
  exact if_neg width

/-- Error entry of `PN_DEC` (R132, R245). -/
theorem exec_pnDec_of_raise {e : ErrCause} {q : Nat}
    (h : rulePnDec s.params (s.lane.accept 0x04) = raise e q) :
    exec .pnDec s = .next { s with lane := { s.lane with
      cmd := none, lastCmd := 0x04, rval := 0, err := .raised e (BitVec.ofNat 32 q) .ibuf, st := .error } } :=
  runCommand_of_raise h

/-- Settles O10: the precheck, then the width, then `DecodePn`. -/
theorem pnDecResult : Obligations.PnDecResult := by
  intro s
  refine ⟨fun bs hc hmin hmax hholds hlen hfit => runCommand_of_ok ?_, fun hc hwidth => exec_pnDec_of_raise ?_,
    fun hc hmin hmax hshort => exec_pnDec_of_raise ?_, fun hc => runCommand_of_badCursor rfl hc⟩
  · rw [rulePnDec_of_width hc hmin hmax, ← hlen, decodePn_of_holds hholds hfit, parse_ok_bind,
      setWidth_beNat (hlen.trans_le hmax)]
    rfl
  · simp only [rulePnDec, ibufWindow_of_cursor hc, parse_ok_bind, Lane.accept_arg0]
    exact if_pos hwidth
  · rw [rulePnDec_of_width hc hmin hmax, decodePn_short hc.2 hshort, parse_bind_raise]

end

/-! ### `NOP` and `CLEAR` -/

/-- A write to `CMD` is a host write to a register, which a `BUSY` lane drops (R69). -/
theorem command_droppedWhileBusy (v : Word) : commandDroppedWhileBusy v :=
  fun s rest hc hb hi => (busyWritesDropped s rest hc hb).1 0x000 v rfl hi

/-- Settles O11: `NOP` is its accepted lane, and a `BUSY` lane drops the write. -/
theorem nopResult : Obligations.NopResult := ⟨fun _ => rfl, command_droppedWhileBusy _⟩

/-- Settles O12: `CLEAR` is `clearLane` of its accepted lane, field by field, and a `BUSY` lane drops the write. -/
theorem clearResult : Obligations.ClearResult := ⟨fun _ => rfl, command_droppedWhileBusy _⟩

end Sys2Proof.Machine
end

section
/-! Packet headers (41_packet_header.md): the end of a `PKT_PARSE` step for a header that publishes, issues or raises
(R150, R167, R174), and the rows with a Crypto request (R159 to R165). -/

namespace Sys2Proof.Machine
open Sys2Proof.Proofs

/-! ### The end of `PKT_PARSE` -/

section
variable {s : State} {rule : Window → Nat → Parse Header} {h : Header}

/-- A header without an epoch is published (R174). -/
theorem runPktParse_of_published (hc : CursorOk s) (hr : rule (hostWindow s) (low32 s.lane.cur) = .ok h)
    (he : h.epoch = none) :
    runCommand .pktParse 0x05 (pktCommand rule) s = .next (packetPublished s h.pkt) := by
  refine runCommand_of_ok ?_
  rw [pktCommand_of_cursor hc, hr, parse_ok_bind]
  simp only [finishHeader, he]
  rfl

/-- A header with an epoch issues its Crypto request (R167). -/
theorem runPktParse_of_issued {epoch : Epoch} (hc : CursorOk s)
    (hr : rule (hostWindow s) (low32 s.lane.cur) = .ok h) (he : h.epoch = some epoch) :
    runCommand .pktParse 0x05 (pktCommand rule) s = .next (packetIssued s h.pkt epoch h.pos) := by
  refine runCommand_of_ok ?_
  rw [pktCommand_of_cursor hc, hr, parse_ok_bind]
  simp only [finishHeader, he]
  rfl

end

/-! ### Long headers (R155) -/

section
variable {w : Window} {p0 : Nat} {b0 : Byte} {ver : BitVec 32}

/-- The part common to all long headers, when both connection IDs can be read. -/
theorem longHeader_of_cids {dcid scid : Cid} {p1 p2 : Nat} (hlim : p0 + 5 ≤ w.lim)
    (h1 : decodeCid w (p0 + 5) = .ok (dcid, p1)) (h2 : decodeCid w p1 = .ok (scid, p2)) :
    longHeader w p0 b0 ver =
      .ok ({ Pkt.zero with form := 1, byte0 := b0, version := ver, dcid := dcid, scid := scid }, p2) := by
  rw [longHeader, need_of_le (by omega), parse_ok_bind, need_of_le (by omega), parse_ok_bind, h1, parse_ok_bind]
  simp only [h2, parse_ok_bind]

/-- The part common to all long headers raises where it fails first. -/
theorem longHeader_fails {c : ErrCause} {q : Nat} (h : LongHeaderFails w p0 c q) :
    longHeader w p0 b0 ver = raise c q := by
  unfold longHeader
  rcases h with ⟨hend, rfl, rfl⟩ | ⟨hp, hlim, rfl, rfl⟩ | ⟨hlim, ⟨hcid, rfl⟩ | ⟨dcid, p1, h1, hcid, rfl⟩⟩
  · rw [need_of_lt (by omega), parse_bind_raise]
  · rw [need_of_le (by omega), parse_ok_bind, need_of_lt (by omega), parse_bind_raise]
  · rw [need_of_le (by omega), parse_ok_bind, need_of_le (by omega), parse_ok_bind, decodeCid_fails hcid,
      parse_bind_raise]
  · rw [need_of_le (by omega), parse_ok_bind, need_of_le (by omega), parse_ok_bind, h1, parse_ok_bind]
    simp only [decodeCid_fails hcid, parse_bind_raise]

/-- The rule of every row of a long header starts with the common part (R155). -/
theorem headerRule_of_longHeader_raise {i : Instr} {c : ErrCause} {q : Nat} (hi : spaceOf i = .header)
    (hlong : isLongHeader (headerByteOf i) = true) (h : ∀ b0 ver, longHeader w p0 b0 ver = raise c q) :
    headerRule i w p0 = raise c q := by
  cases i
  case pktOneRtt fixed spin rsv keyPhase pnl =>
    exact absurd (hlong.symm.trans (shortHeaderByte_fields fixed spin rsv keyPhase pnl).1) nofun
  case pktVersionNegotiation => simp only [headerRule, ruleVersionNegotiation, h, parse_bind_raise]
  case pktInitial => simp only [headerRule, ruleInitial, h, parse_bind_raise]
  case pktZeroRtt => simp only [headerRule, ruleZeroRtt, h, parse_bind_raise]
  case pktHandshake => simp only [headerRule, ruleHandshake, h, parse_bind_raise]
  case pktRetry => simp only [headerRule, ruleRetry, h, parse_bind_raise]
  all_goals cases hi

end

/-- Settles O17: `PKT_PARSE` and every header row are one step over their parse, which publishes, issues or raises. -/
theorem pktParseResult : Obligations.PktParseResult := by
  intro s i parse hi
  have step : exec i s = runCommand .pktParse 0x05 (pktCommand parse) s := by
    obtain ⟨rfl, rfl⟩ | ⟨hspace, rfl⟩ := hi
    · rfl
    · exact exec_header hspace s
  refine ⟨fun h hc hr => ⟨fun he => ?_, fun epoch he => ?_⟩, fun cause pos hc hr => ?_, fun hc => ?_,
    fun cause pos hc hspace hlong hfails => ?_⟩
  · rw [step, runPktParse_of_published hc hr he]
  · rw [step, runPktParse_of_issued hc hr he]
  · rw [step, runPktParse_of_raise hc hr]
  · rw [step, runCommand_of_badCursor rfl hc]
    rfl
  · rw [exec_header hspace]
    exact runPktParse_of_raise hc (headerRule_of_longHeader_raise hspace hlong fun _ _ => longHeader_fails hfails)

/-! ### The tail of Initial, ZeroRTT and Handshake -/

section
variable {k : Pkt} {kind : PktKind} {epoch : Epoch} {w : Window} {p p1 p2 width : Nat} {len : VarVal} {pn : BitVec 32}

theorem protectedTail_of_fields (hwidth : pnWidthOf k.byte0 = width) (hlen : readVar w p = .ok (len, p1))
    (hpn : decodePn w p1 width = .ok (pn, p2)) :
    protectedTail k kind epoch w p = .ok
      { pkt := { k with
          kind := kind, length := len, pn := pn, pnLen := BitVec.ofNat 3 width, hdrEnd := BitVec.ofNat 32 p2 }
        pos := p2
        epoch := some epoch } := by
  subst hwidth
  simp only [protectedTail, hlen, hpn, parse_ok_bind]

theorem protectedTail_noLength (h : VarIntShort w p) : protectedTail k kind epoch w p = raise .varintEof p := by
  rw [protectedTail, readVar_short h, parse_bind_raise]

theorem protectedTail_noPn (hwidth : pnWidthOf k.byte0 = width) (hlen : readVar w p = .ok (len, p1))
    (hshort : w.lim < p1 + width) : protectedTail k kind epoch w p = raise .pnEof p1 := by
  subst hwidth
  simp only [protectedTail, hlen, decodePn_short (readVar_bounds hlen).2 hshort, parse_ok_bind, parse_bind_raise]

end

/-- The packet number width of a long header's first byte (R154). -/
theorem pnWidthOf_longHeaderByte (fixed : BitVec 1) (ty rsv pnl : BitVec 2) :
    pnWidthOf (longHeaderByte fixed ty rsv pnl) = pnl.toNat + 1 := by
  obtain ⟨-, -, -, -, hpnl⟩ := longHeaderByte_fields fixed ty rsv pnl
  rw [pnWidthOf, hpnl]

/-! ### Initial -/

section
variable {w : Window} {p0 p1 p2 tl p3 : Nat} {b0 : Byte} {ver : BitVec 32} {dcid scid : Cid}

/-- With both connection IDs read, an Initial header raises what the token length does. -/
theorem ruleInitial_noTokenLength (hlim : p0 + 5 ≤ w.lim) (h1 : decodeCid w (p0 + 5) = .ok (dcid, p1))
    (h2 : decodeCid w p1 = .ok (scid, p2)) (h : VarIntShort w p2) : ruleInitial b0 ver w p0 = raise .varintEof p2 := by
  simp only [ruleInitial, longHeader_of_cids hlim h1 h2, parse_ok_bind, decodeVarInt_short h, parse_bind_raise]

theorem ruleInitial_tokenTooLong (hlim : p0 + 5 ≤ w.lim) (h1 : decodeCid w (p0 + 5) = .ok (dcid, p1))
    (h2 : decodeCid w p1 = .ok (scid, p2)) (ht : decodeVarInt w p2 = .ok (tl, p3)) (hpast : w.lim < p3 + tl) :
    ruleInitial b0 ver w p0 = raise .tokenTooLong p3 := by
  obtain ⟨-, hp3, -⟩ := decodeVarInt_bounds ht
  simp only [ruleInitial, longHeader_of_cids hlim h1 h2, ht, parse_ok_bind]
  rw [need_of_lt (by omega), parse_bind_raise]

/-- With a token inside the window, an Initial header is its common tail behind the token (R159). -/
theorem ruleInitial_of_token (hlim : p0 + 5 ≤ w.lim) (h1 : decodeCid w (p0 + 5) = .ok (dcid, p1))
    (h2 : decodeCid w p1 = .ok (scid, p2)) (ht : decodeVarInt w p2 = .ok (tl, p3)) (hfit : p3 + tl ≤ w.lim) :
    ruleInitial b0 ver w p0 = protectedTail
      { Pkt.zero with
        form := 1, byte0 := b0, version := ver, dcid := dcid, scid := scid,
        token := { start := BitVec.ofNat 32 p3, len := BitVec.ofNat 32 tl } }
      .initial .initial w (p3 + tl) := by
  simp only [ruleInitial, longHeader_of_cids hlim h1 h2, ht, parse_ok_bind]
  rw [need_of_le (by omega), parse_ok_bind]

end

/-- Settles O19: the token by the lemmas on `ruleInitial`, what follows it by those on `protectedTail`. -/
theorem initialResult : Obligations.InitialResult := by
  intro fixed rsv pnl ver s dcid scid p1 p2 hc hlim h1 h2
  have width := pnWidthOf_longHeaderByte fixed 0 rsv pnl
  refine ⟨fun h => runPktParse_of_raise hc (ruleInitial_noTokenLength hlim h1 h2 h), fun tl p3 ht =>
    ⟨fun len p4 pn p5 hfit hlen hpn => ?_,
      fun hpast => runPktParse_of_raise hc (ruleInitial_tokenTooLong hlim h1 h2 ht hpast),
      fun hfit hshort => ?_, fun len p4 hfit hlen hshort => ?_⟩⟩
  · exact runPktParse_of_issued hc
      ((ruleInitial_of_token hlim h1 h2 ht hfit).trans (protectedTail_of_fields width hlen hpn)) rfl
  · exact runPktParse_of_raise hc ((ruleInitial_of_token hlim h1 h2 ht hfit).trans (protectedTail_noLength hshort))
  · exact runPktParse_of_raise hc
      ((ruleInitial_of_token hlim h1 h2 ht hfit).trans (protectedTail_noPn width hlen hshort))

/-! ### ZeroRTT and Handshake -/

/-- Both rows are the common tail behind the connection IDs (R161, R162). -/
theorem lengthRules_of_cids {w : Window} {p0 p1 p2 : Nat} {b0 : Byte} {ver : BitVec 32} {dcid scid : Cid}
    (hlim : p0 + 5 ≤ w.lim) (h1 : decodeCid w (p0 + 5) = .ok (dcid, p1)) (h2 : decodeCid w p1 = .ok (scid, p2)) :
    (ruleZeroRtt b0 ver w p0 = protectedTail
      { Pkt.zero with form := 1, byte0 := b0, version := ver, dcid := dcid, scid := scid }
      .zeroRtt .zeroRtt w p2) ∧
    ruleHandshake b0 ver w p0 = protectedTail
      { Pkt.zero with form := 1, byte0 := b0, version := ver, dcid := dcid, scid := scid }
      .handshake .handshake w p2 := by
  simp only [ruleZeroRtt, ruleHandshake, longHeader_of_cids hlim h1 h2, parse_ok_bind, and_self]

/-- Settles O20: each row is its common tail (`lengthRules_of_cids`), whose fields are read or short. -/
theorem lengthHeaderResult : Obligations.LengthHeaderResult := by
  intro fixed rsv pnl ver s dcid scid p1 p2 hc hlim h1 h2
  have widthZ := pnWidthOf_longHeaderByte fixed 1 rsv pnl
  have widthH := pnWidthOf_longHeaderByte fixed 2 rsv pnl
  obtain ⟨zeroRtt, -⟩ := lengthRules_of_cids (b0 := longHeaderByte fixed 1 rsv pnl) (ver := ver) hlim h1 h2
  obtain ⟨-, handshake⟩ := lengthRules_of_cids (b0 := longHeaderByte fixed 2 rsv pnl) (ver := ver) hlim h1 h2
  refine ⟨fun len p3 pn p4 hlen hpn => ⟨?_, ?_⟩, fun hshort => ⟨?_, ?_⟩, fun len p3 hlen hshort => ⟨?_, ?_⟩⟩
  · exact runPktParse_of_issued hc (zeroRtt.trans (protectedTail_of_fields widthZ hlen hpn)) rfl
  · exact runPktParse_of_issued hc (handshake.trans (protectedTail_of_fields widthH hlen hpn)) rfl
  · exact runPktParse_of_raise hc (zeroRtt.trans (protectedTail_noLength hshort))
  · exact runPktParse_of_raise hc (handshake.trans (protectedTail_noLength hshort))
  · exact runPktParse_of_raise hc (zeroRtt.trans (protectedTail_noPn widthZ hlen hshort))
  · exact runPktParse_of_raise hc (handshake.trans (protectedTail_noPn widthH hlen hshort))

/-! ### OneRtt -/

/-- The flags of a short header's first byte are the fields it is made of (R153). -/
theorem shortHeaderByte_flags (fixed spin : BitVec 1) (rsv : BitVec 2) (keyPhase : BitVec 1) (pnl : BitVec 2) :
    spinOf (shortHeaderByte fixed spin rsv keyPhase pnl) = spin ∧
    keyPhaseOf (shortHeaderByte fixed spin rsv keyPhase pnl) = keyPhase ∧
    pnWidthOf (shortHeaderByte fixed spin rsv keyPhase pnl) = pnl.toNat + 1 := by
  obtain ⟨-, hrow⟩ := shortHeaderByte_fields fixed spin rsv keyPhase pnl
  simp only [decodeShortHeader, Instr.pktOneRtt.injEq] at hrow
  obtain ⟨-, hspin, -, hphase, hpnl⟩ := hrow
  exact ⟨hspin, hphase, congrArg (·.toNat + 1) hpnl⟩

section
variable {w : Window} {p0 p1 p2 : Nat} {b0 : Byte} {dcid : Cid} {pn : BitVec 32}

theorem ruleOneRtt_of_fields (hlim : p0 < w.lim) (h1 : decodeCid w (p0 + 1) = .ok (dcid, p1))
    (hpn : decodePn w p1 (pnWidthOf b0) = .ok (pn, p2)) :
    ruleOneRtt b0 w p0 = .ok
      { pkt := { Pkt.zero with
          kind := .oneRtt, form := 0, byte0 := b0, spin := spinOf b0, keyPhase := keyPhaseOf b0, dcid := dcid,
          pn := pn, pnLen := BitVec.ofNat 3 (pnWidthOf b0), hdrEnd := BitVec.ofNat 32 p2 }
        pos := p2
        epoch := some .oneRtt } := by
  rw [ruleOneRtt, need_of_le (by omega), parse_ok_bind, h1, parse_ok_bind]
  simp only [hpn, parse_ok_bind]

theorem ruleOneRtt_empty (h : w.lim ≤ p0) : ruleOneRtt b0 w p0 = raise .hdrEof p0 := by
  rw [ruleOneRtt, need_of_lt (by omega), parse_bind_raise]

theorem ruleOneRtt_of_cid_fails {c : ErrCause} (hlim : p0 < w.lim) (h : CidFails w (p0 + 1) c) :
    ruleOneRtt b0 w p0 = raise c (p0 + 1) := by
  rw [ruleOneRtt, need_of_le (by omega), parse_ok_bind, decodeCid_fails h, parse_bind_raise]

theorem ruleOneRtt_noPn (hlim : p0 < w.lim) (h1 : decodeCid w (p0 + 1) = .ok (dcid, p1))
    (hshort : w.lim < p1 + pnWidthOf b0) : ruleOneRtt b0 w p0 = raise .pnEof p1 := by
  obtain ⟨-, hp1, -⟩ := decodeCid_bounds h1
  rw [ruleOneRtt, need_of_le (by omega), parse_ok_bind, h1, parse_ok_bind]
  simp only [decodePn_short hp1 hshort, parse_bind_raise]

end

/-- Settles O22: the rule of the row on its first byte, whose flags are the row's operands (`shortHeaderByte_flags`). -/
theorem oneRttResult : Obligations.OneRttResult := by
  intro fixed spin rsv keyPhase pnl s hc
  obtain ⟨hspin, hphase, hwidth⟩ := shortHeaderByte_flags fixed spin rsv keyPhase pnl
  refine ⟨fun dcid p1 pn p2 hlim h1 hpn => ?_, fun hend => ?_, fun cause hlim hfails => ?_,
    fun dcid p1 hlim h1 hshort => ?_⟩
  · have header := ruleOneRtt_of_fields hlim h1 (hwidth ▸ hpn)
    rw [hspin, hphase, hwidth] at header
    exact runPktParse_of_issued hc header rfl
  · exact runPktParse_of_raise hc (ruleOneRtt_empty hend.ge)
  · exact runPktParse_of_raise hc (ruleOneRtt_of_cid_fails hlim hfails)
  · exact runPktParse_of_raise hc (ruleOneRtt_noPn hlim h1 (hwidth ▸ hshort))

end Sys2Proof.Machine
end

section
/-! Frames (42_frames.md): the steps of `FRM_ONE` and `FSEQ_NEXT`, and the rows whose fields are VarInts, placed or
named bytes, and connection IDs. -/

namespace Sys2Proof.Machine
open Sys2Proof.Proofs

/-! ### `ParseFrame` and the frame commands -/

theorem parseFrame_short {pr : Params} {w : Window} {p : Nat} (h : VarIntShort w p) :
    parseFrame pr w p = raise .varintEof p := by
  rw [parseFrame, readVar_short h, parse_bind_raise]

/-- No frame parse raises `WRONG_STATE`, which leaves `FRM` alone (R245). -/
theorem wrongState_not_fieldCause : ErrCause.wrongState ∉ fieldCauses := by decide

theorem parseFrame_ne_wrongState {pr : Params} {w : Window} {p q : Nat} {c : ErrCause}
    (h : parseFrame pr w p = raise c q) : c ≠ .wrongState := by
  rintro rfl
  rcases parseFrame_raise h with hc | ⟨hc, -⟩
  · exact wrongState_not_fieldCause hc
  · cases hc

theorem parseRow_ne_wrongState {i : Instr} {pr : Params} {w : Window} {p q : Nat} {c : ErrCause}
    (h : parseRow i (frameRule i) pr w p = raise c q) : c ≠ .wrongState := by
  rintro rfl
  rcases parseRow_raise h with hc | ⟨hc, -⟩
  · exact wrongState_not_fieldCause hc
  · cases hc

section
variable {s : State}

theorem exec_frmOne_of_raise {c : ErrCause} {q : Nat} (hc : CursorOk s)
    (h : parseFrame s.params (hostWindow s) (low32 s.lane.cur) = raise c q) :
    exec .frmOne s = .next { s with lane := { s.lane with
      cmd := none, lastCmd := 0x06, frm := Frm.zero, fres := .error,
      err := .raised c (BitVec.ofNat 32 q) .ibuf, st := .error } } := by
  refine runCommand_of_raise (e := c) (p := q) ?_
  simp only [frameCommand, frameWindow, ibufWindow_of_cursor hc, h, parse_ok_bind, parse_bind_raise]

/-- Settles O28: the frame on the host window is committed or raised, and the precheck comes before it. -/
theorem frmOneResult : Obligations.FrmOneResult := by
  intro s
  refine ⟨fun out hc h => runCommand_of_ok ?_, fun cause pos hc h => exec_frmOne_of_raise hc h,
    fun hc hshort => exec_frmOne_of_raise hc (parseFrame_short hshort), fun hc => runCommand_of_badCursor rfl hc⟩
  simp only [frameCommand, frameWindow, ibufWindow_of_cursor hc, h, parse_ok_bind]
  rfl

end

section
variable {pr : Params} {l : Lane}

/-! `FSEQ_NEXT` state by state (R194); `ruleFseqNext_of_active` is the one that parses a frame. -/

theorem ruleFseqNext_of_inactive (h : l.fstate = .inactive) : ruleFseqNext pr l = raise .wrongState 0 := by
  simp only [ruleFseqNext, h]

theorem ruleFseqNext_of_finished (h : l.fstate = .ended ∨ l.fstate = .failed) :
    ruleFseqNext pr l = .ok (sequenceEnd l) := by
  rcases h with h | h <;> simp only [ruleFseqNext, h]

theorem ruleFseqNext_of_exhausted (hactive : l.fstate = .active) (hend : l.fcur = l.fend) :
    ruleFseqNext pr l = .ok { sequenceEnd l with fstate := .ended } := by
  simp only [ruleFseqNext, hactive, if_pos hend]

end

section
variable {s : State}

/-- An active sequence with bytes left parses the frame at its position (R194). -/
theorem ruleFseqNext_of_frame (hactive : s.lane.fstate = .active) (hleft : s.lane.fcur ≠ s.lane.fend) (op : Byte) :
    ruleFseqNext s.params (s.lane.accept op) =
      (parseFrame s.params (sequenceWindow s) s.lane.fcur.toNat >>= fun out =>
        .ok (commitFrame .next out (s.lane.accept op))) :=
  ruleFseqNext_of_active (l := s.lane.accept op) hactive hleft

theorem exec_fseqNext_of_raise {c : ErrCause} {q : Nat} (hactive : s.lane.fstate = .active)
    (hleft : s.lane.fcur ≠ s.lane.fend)
    (h : parseFrame s.params (sequenceWindow s) s.lane.fcur.toNat = raise c q) :
    exec .fseqNext s = .next { s with lane := { s.lane with
      cmd := none, lastCmd := 0x08, frm := Frm.zero, fstate := .failed, fres := .error,
      err := .raised c (BitVec.ofNat 32 q) s.lane.fbuf, st := .error } } := by
  have raised : ruleFseqNext s.params (s.lane.accept 0x08) = raise c q := by
    rw [ruleFseqNext_of_frame hactive hleft, h, parse_bind_raise]
  refine (runCommand_of_raise raised).trans ?_
  simp only [errorEntry, clearResults, posBufOf, if_neg (parseFrame_ne_wrongState h)]
  rfl

/-- Settles O30: `ruleFseqNext` state by state; an active sequence with bytes left commits or raises its next frame. -/
theorem fseqNextResult : Obligations.FseqNextResult := by
  intro s
  refine ⟨fun hnone => ?_, fun hover => ?_, fun hactive hend => ?_, fun out hactive hleft h => ?_,
    fun cause pos hactive hleft h => exec_fseqNext_of_raise hactive hleft h, fun hactive hleft hshort => ?_⟩
  · exact runCommand_of_raise (ruleFseqNext_of_inactive (l := s.lane.accept 0x08) hnone)
  · exact runCommand_of_ok (ruleFseqNext_of_finished (l := s.lane.accept 0x08) hover)
  · exact runCommand_of_ok (ruleFseqNext_of_exhausted (l := s.lane.accept 0x08) hactive hend)
  · refine runCommand_of_ok ?_
    rw [ruleFseqNext_of_frame hactive hleft, h, parse_ok_bind]
    rfl
  · rw [exec_fseqNext_of_raise hactive hleft (parseFrame_short hshort), BitVec.ofNat_toNat, BitVec.setWidth_eq]

end

/-- A frame row whose parse raises, its type or its rule (R245). -/
theorem exec_row_of_parse_raise {i : Instr} {s : State} {w : Window} {p : Nat} {c : ErrCause} {q : Nat}
    (hi : spaceOf i = .frame) (hw : FrameAt s w p) (h : parseRow i (frameRule i) s.params w p = raise c q) :
    exec i s = .next (frameFailed s c q) := by
  have raised : ∀ op, frameCommand (frameCmdOf s) (parseRow i (frameRule i)) s.params (s.lane.accept op) =
      raise c q := fun op => by
    simp only [frameCommand, frameWindow_of_frameAt hw, h, parse_ok_bind, parse_bind_raise]
  rw [exec_row hi, runRow, runCommand_of_raise (raised _)]
  unfold frameFailed
  cases frameCmdOf s with
  | one => rfl
  | next =>
    simp only [FrameCmd.cmd, errorEntry, clearResults, posBufOf, if_neg (parseRow_ne_wrongState h)]
    rfl

/-- Settles O35: whatever the parse of a row raises, a short type among it, fails the row. -/
theorem frameErrorsCommitNothing : Obligations.FrameErrorsCommitNothing := by
  intro i s w p hi hw
  refine ⟨fun cause pos h => exec_row_of_parse_raise hi hw h, fun hshort => exec_row_of_parse_raise hi hw ?_⟩
  rw [parseRow, readVar_short hshort, parse_bind_raise]

/-! ### Rows of VarInts -/

section
variable {w : Window} {p1 p2 p3 q : Nat} {a b : VarVal} {kind : FrmKind} {f : Frm}

theorem oneField_of_field (h1 : readVar w p1 = .ok (a, p2)) :
    oneField kind w f p1 = .ok (plainFrame { f with kind := kind, f0 := a } p2) := by
  rw [oneField, h1, parse_ok_bind]

theorem oneField_short (h : VarIntsShort w 1 p1 q) : oneField kind w f p1 = raise .varintEof q :=
  readVar_bind_short h fun _ _ _ h => h.elim

theorem twoFields_of_fields (h1 : readVar w p1 = .ok (a, p2)) (h2 : readVar w p2 = .ok (b, p3)) :
    twoFields kind w f p1 = .ok (plainFrame { f with kind := kind, f0 := a, f1 := b } p3) := by
  simp only [twoFields, h1, h2, parse_ok_bind]

theorem twoFields_short (h : VarIntsShort w 2 p1 q) : twoFields kind w f p1 = raise .varintEof q :=
  readVar_bind_short h fun _ _ _ h => readVar_bind_short h fun _ _ _ h => h.elim

end

/-- A row whose rule is `oneField` reads one VarInt. -/
theorem readsOneVarInt_of_rule {i : Instr} {kind : FrmKind} (hi : spaceOf i = .frame)
    (hrule : ∀ pr w t0 f p, frameRule i pr w t0 f p = oneField kind w f p) :
    readsOneVarInt i kind (frameTypeOf i) := by
  intro s w p t p1 hw ht
  refine ⟨fun a p2 h1 => ?_, fun q h => ?_⟩
  · exact exec_row_of_ok hi hw ht ((hrule _ _ _ _ _).trans (oneField_of_field h1))
  · exact exec_row_of_raise hi hw ht ((hrule _ _ _ _ _).trans (oneField_short h)) nofun

/-- A row whose rule is `twoFields` reads two VarInts. -/
theorem readsTwoVarInts_of_rule {i : Instr} {kind : FrmKind} (hi : spaceOf i = .frame)
    (hrule : ∀ pr w t0 f p, frameRule i pr w t0 f p = twoFields kind w f p) :
    readsTwoVarInts i kind (frameTypeOf i) := by
  intro s w p t p1 hw ht
  refine ⟨fun a p2 b p3 h1 h2 => ?_, fun q h => ?_⟩
  · exact exec_row_of_ok hi hw ht ((hrule _ _ _ _ _).trans (twoFields_of_fields h1 h2))
  · exact exec_row_of_raise hi hw ht ((hrule _ _ _ _ _).trans (twoFields_short h)) nofun

/-- The low bit tells the two types of a pair apart (R208, R211). -/
theorem frameTypeOf_pairs (low : BitVec 1) :
    frameTypeOf (.frmMaxStreams low) = (if low = 1 then 0x13 else 0x12) ∧
    frameTypeOf (.frmStreamsBlocked low) = (if low = 1 then 0x17 else 0x16) := by
  revert low; decide

/-- Settles O33: five rows whose rule is `oneField`. -/
theorem frameRowsOfOneVarInt : Obligations.FrameRowsOfOneVarInt := by
  refine ⟨readsOneVarInt_of_rule rfl fun _ _ _ _ _ => rfl, fun low => ?_,
    readsOneVarInt_of_rule rfl fun _ _ _ _ _ => rfl, fun low => ?_, readsOneVarInt_of_rule rfl fun _ _ _ _ _ => rfl⟩
  · rw [← (frameTypeOf_pairs low).1]
    exact readsOneVarInt_of_rule rfl fun _ _ _ _ _ => rfl
  · rw [← (frameTypeOf_pairs low).2]
    exact readsOneVarInt_of_rule rfl fun _ _ _ _ _ => rfl

/-- Settles O34: three rows whose rule is `twoFields`, and ResetStream with its three VarInts. -/
theorem frameRowsOfMoreVarInts : Obligations.FrameRowsOfMoreVarInts := by
  refine ⟨readsTwoVarInts_of_rule rfl fun _ _ _ _ _ => rfl, readsTwoVarInts_of_rule rfl fun _ _ _ _ _ => rfl,
    readsTwoVarInts_of_rule rfl fun _ _ _ _ _ => rfl, fun s w p t a b c p1 p2 p3 p4 hw ht h1 h2 h3 => ?_,
    fun s w p t p1 q hw ht h => ?_⟩
  · refine exec_row_of_ok (i := .frmResetStream) rfl hw ht (out := plainFrame _ p4) ?_
    simp only [frameRule, ruleResetStream, h1, h2, h3, parse_ok_bind]
    rfl
  · exact exec_row_of_raise (i := .frmResetStream) rfl hw ht (readVar_bind_short h fun _ _ _ h =>
      readVar_bind_short h fun _ _ _ h => readVar_bind_short h fun _ _ _ h => h.elim) nofun

/-! ### Crypto -/

section
variable {pr : Params} {w : Window} {t0 p1 p2 p3 q : Nat} {f : Frm} {off len : VarVal}

theorem ruleCrypto_of_fits (h1 : readVar w p1 = .ok (off, p2)) (h2 : readVar w p2 = .ok (len, p3))
    (h : p3 + dataSkip pr off.toNat + len.toNat ≤ w.lim) :
    ruleCrypto pr w t0 f p1 = .ok (plainFrame
      { f with
        kind := .crypto, f0 := off, f1 := len, data := sliceOf w (p3 + dataSkip pr off.toNat) len.toNat }
      (p3 + dataSkip pr off.toNat + len.toNat)) := by
  simp only [ruleCrypto, h1, h2, placedData_of_fits h, parse_ok_bind]

theorem ruleCrypto_of_past (h1 : readVar w p1 = .ok (off, p2)) (h2 : readVar w p2 = .ok (len, p3))
    (h : w.lim < p3 + dataSkip pr off.toNat + len.toNat) : ruleCrypto pr w t0 f p1 = raise .dataEof p3 := by
  obtain ⟨-, hp3⟩ := readVar_bounds h2
  simp only [ruleCrypto, h1, h2, placedData_of_past hp3 h, parse_ok_bind, parse_bind_raise]

theorem ruleCrypto_short (h : VarIntsShort w 2 p1 q) : ruleCrypto pr w t0 f p1 = raise .varintEof q :=
  readVar_bind_short h fun _ _ _ h => readVar_bind_short h fun _ _ _ h => h.elim

end

/-- Settles O37: `ruleCrypto` with the skip that each layout takes. -/
theorem cryptoFrameResult : Obligations.CryptoFrameResult := by
  intro s w p t p1 hw ht
  refine ⟨fun q h => exec_row_of_raise rfl hw ht (ruleCrypto_short (t0 := p) h) nofun, fun off len p2 p3 h1 h2 => ?_⟩
  have fits := fun h => exec_row_of_ok (i := .frmCrypto) rfl hw ht (ruleCrypto_of_fits (t0 := p) h1 h2 h)
  have past := fun h => exec_row_of_raise (i := .frmCrypto) rfl hw ht (ruleCrypto_of_past (t0 := p) h1 h2 h) nofun
  refine ⟨fun hlayout => ?_, fun hlayout => ?_⟩
  · rw [dataSkip_of_relative hlayout] at fits past
    exact ⟨fits, past⟩
  · rw [dataSkip_of_immediate hlayout, Nat.add_zero] at fits past
    exact ⟨fits, past⟩

/-! ### NewToken and ConnectionClose -/

section
variable {w : Window} {p n : Nat}

theorem takeSlice_of_fits (h : p + n ≤ w.lim) : takeSlice w p n = .ok (sliceOf w p n, p + n) := by
  rw [takeSlice, need_of_le (by omega), parse_ok_bind]

theorem takeSlice_of_past (hp : p ≤ w.lim) (h : w.lim < p + n) : takeSlice w p n = raise .dataEof p := by
  rw [takeSlice, need_of_lt (by omega), parse_bind_raise]

end

/-- A frame row that ends in `Take`: the bytes fit and are named, or lead past the window (R196). -/
theorem exec_row_of_take {i : Instr} {s : State} {w : Window} {p p1 q n : Nat} {t : VarVal} (record : Slice → Frm)
    (hi : spaceOf i = .frame) (hw : FrameAt s w p) (ht : readVar w p = .ok (t, p1)) (hq : q ≤ w.lim)
    (h : frameRule i s.params w p (frameStart (frameTypeOf i)) p1 =
      (takeSlice w q n >>= fun x => .ok (plainFrame (record x.1) x.2))) :
    (q + n ≤ w.lim → exec i s = .next (frameCommitted s (record (sliceOf w q n)) [] (q + n))) ∧
    (w.lim < q + n → exec i s = .next (frameFailed s .dataEof q)) := by
  refine ⟨fun hfits => exec_row_of_ok hi hw ht (out := plainFrame _ (q + n)) ?_,
    fun hpast => exec_row_of_raise hi hw ht ?_ nofun⟩
  · rw [h, takeSlice_of_fits hfits, parse_ok_bind]
  · rw [h, takeSlice_of_past hq hpast, parse_bind_raise]

/-- Settles O39: the first short VarInt raises by `readVar_bind_short`; when all are read, the row ends in `Take`. -/
theorem namedBytesFrames : Obligations.NamedBytesFrames := by
  intro s w p t p1 hw ht
  refine ⟨fun q h => ?_, fun q h => ?_, fun q h => ?_, fun a p2 h1 => ?_⟩
  · exact exec_row_of_raise (i := .frmNewToken) rfl hw ht (readVar_bind_short h fun _ _ _ h => h.elim) nofun
  · exact exec_row_of_raise (i := .frmConnectionCloseApp) rfl hw ht (readVar_bind_short h fun _ _ _ h =>
      readVar_bind_short h fun _ _ _ h => h.elim) nofun
  · exact exec_row_of_raise (i := .frmConnectionCloseQuic) rfl hw ht (readVar_bind_short h fun _ _ _ h =>
      readVar_bind_short h fun _ _ _ h => readVar_bind_short h fun _ _ _ h => h.elim) nofun
  have newToken := exec_row_of_take (i := .frmNewToken) (n := a.toNat)
    (fun x => { Frm.zero with kind := .newToken, typ := 0x07, f0 := a, data := x }) rfl hw ht (readVar_bounds h1).2
    (by simp only [frameRule, ruleNewToken, h1, parse_ok_bind]; rfl)
  refine ⟨newToken.1, newToken.2, fun n p3 h2 => ?_, fun ft n p3 p4 h2 h3 => ?_⟩
  · exact exec_row_of_take (i := .frmConnectionCloseApp)
      (fun x => { Frm.zero with kind := .connectionClose, typ := 0x1d, ftP := 0, f0 := a, f2 := n, data := x })
      rfl hw ht (readVar_bounds h2).2 (by simp only [frameRule, ruleConnectionCloseApp, h1, h2, parse_ok_bind]; rfl)
  · exact exec_row_of_take (i := .frmConnectionCloseQuic)
      (fun x => { Frm.zero with
        kind := .connectionClose, typ := 0x1c, ftP := 1, f0 := a, f1 := ft, f2 := n, data := x })
      rfl hw ht (readVar_bounds h3).2
      (by simp only [frameRule, ruleConnectionCloseQuic, h1, h2, h3, parse_ok_bind]; rfl)

/-! ### NewConnectionId -/

section
variable {w : Window} {p n : Nat}

theorem readFixed_of_holds {bs : List Byte} (hlen : bs.length = n) (h : w.holds p bs) (hfit : p + n ≤ w.lim) :
    readFixed w p n = .ok (bs, p + n) := by
  rw [readFixed, need_of_le (by omega), parse_ok_bind, memRead_ok.2 ⟨hlen, h⟩, parse_ok_bind]

theorem readFixed_short (hp : p ≤ w.lim) (h : w.lim < p + n) : readFixed w p n = raise .fixedEof p := by
  rw [readFixed, need_of_lt (by omega), parse_bind_raise]

end

/-- Settles O40: the two VarInts, the connection ID and the token, each read or raising where it starts. -/
theorem newConnectionIdResult : Obligations.NewConnectionIdResult := by
  intro s w p t p1 hw ht
  refine ⟨fun q h => ?_, fun seq retire p2 p3 h1 h2 => ⟨fun cause hfails => ?_, fun cid p4 h3 =>
    ⟨fun srt hlen hholds hfit => ?_, fun hshort => ?_⟩⟩⟩
  · exact exec_row_of_raise (i := .frmNewConnectionId) rfl hw ht (readVar_bind_short h fun _ _ _ h =>
      readVar_bind_short h fun _ _ _ h => h.elim) nofun
  · refine exec_row_of_parse_raise (i := .frmNewConnectionId) rfl hw ?_
    simp only [parseRow, ht, frameRule, ruleNewConnectionId, h1, h2, decodeCid_fails hfails, parse_ok_bind,
      parse_bind_raise]
  · refine exec_row_of_ok (i := .frmNewConnectionId) rfl hw ht (out := plainFrame _ (p4 + 16)) ?_
    simp only [frameRule, ruleNewConnectionId, h1, h2, h3, readFixed_of_holds hlen hholds hfit, parse_ok_bind]
    rfl
  · obtain ⟨-, hp4, -⟩ := decodeCid_bounds h3
    refine exec_row_of_raise (i := .frmNewConnectionId) rfl hw ht ?_ nofun
    simp only [frameRule, ruleNewConnectionId, h1, h2, h3, readFixed_short hp4 hshort, parse_ok_bind,
      parse_bind_raise]

end Sys2Proof.Machine
end

section
/-! Packet headers (41_packet_header.md): the two rows that publish a packet without payload (R158, R163), the completion
of a Crypto request (R170 to R172), and that no error leaves a part of a packet visible (R175). -/

namespace Sys2Proof.Machine
open Sys2Proof.Proofs

/-! ### VersionNegotiation and Retry -/

section
variable {w : Window} {p0 p1 p : Nat} {b0 : Byte} {ver : BitVec 32} {dcid scid : Cid}

/-- Behind the connection IDs a whole number of versions is left (R158). -/
theorem ruleVersionNegotiation_of_list (hlim : p0 + 5 ≤ w.lim) (h1 : decodeCid w (p0 + 5) = .ok (dcid, p1))
    (h2 : decodeCid w p1 = .ok (scid, p)) (hwhole : (w.lim - p) % 4 = 0) :
    ruleVersionNegotiation b0 w p0 = .ok
      { pkt := { Pkt.zero with
          kind := .vn, form := 1, byte0 := b0, version := 0, dcid := dcid, scid := scid,
          vnlist := { start := BitVec.ofNat 32 p, len := BitVec.ofNat 32 ((w.lim - p) / 4) },
          hdrEnd := BitVec.ofNat 32 p }
        pos := w.lim
        epoch := none } := by
  simp only [ruleVersionNegotiation, longHeader_of_cids hlim h1 h2, parse_ok_bind]
  rw [if_neg (not_not.2 hwhole)]

theorem ruleVersionNegotiation_of_trailer (hlim : p0 + 5 ≤ w.lim) (h1 : decodeCid w (p0 + 5) = .ok (dcid, p1))
    (h2 : decodeCid w p1 = .ok (scid, p)) (hpart : (w.lim - p) % 4 ≠ 0) :
    ruleVersionNegotiation b0 w p0 = raise .vnTrailer (w.lim - (w.lim - p) % 4) := by
  simp only [ruleVersionNegotiation, longHeader_of_cids hlim h1 h2, parse_ok_bind]
  rw [if_pos hpart]

/-- The last 16 bytes of the window are the tag, which is read; the token before them is not (R163). -/
theorem ruleRetry_of_tag {tag : List Byte} (hlim : p0 + 5 ≤ w.lim) (h1 : decodeCid w (p0 + 5) = .ok (dcid, p1))
    (h2 : decodeCid w p1 = .ok (scid, p)) (hfit : p + 16 ≤ w.lim) (hlen : tag.length = 16)
    (htag : w.holds (w.lim - 16) tag) :
    ruleRetry b0 ver w p0 = .ok
      { pkt := { Pkt.zero with
          kind := .retry, form := 1, byte0 := b0, version := ver, dcid := dcid, scid := scid,
          token := { start := BitVec.ofNat 32 p, len := BitVec.ofNat 32 (w.lim - p - 16) },
          tag := BitVec.ofNat 128 (beNat tag), hdrEnd := BitVec.ofNat 32 p }
        pos := w.lim
        epoch := none } := by
  have read : memRead w (w.lim - 16) 16 = .ok tag := memRead_ok.2 ⟨hlen, htag⟩
  simp only [ruleRetry, Config.retryTagLen, longHeader_of_cids hlim h1 h2, parse_ok_bind]
  rw [need_of_le (by omega), parse_ok_bind, read, parse_ok_bind]

theorem ruleRetry_short (hlim : p0 + 5 ≤ w.lim) (h1 : decodeCid w (p0 + 5) = .ok (dcid, p1))
    (h2 : decodeCid w p1 = .ok (scid, p)) (hshort : w.lim < p + 16) :
    ruleRetry b0 ver w p0 = raise .retryTooShort p := by
  obtain ⟨-, hp, -⟩ := decodeCid_bounds h2
  simp only [ruleRetry, Config.retryTagLen, longHeader_of_cids hlim h1 h2, parse_ok_bind]
  rw [need_of_lt (by omega), parse_bind_raise]

end

/-- Settles O18: the rest of the window is a version list, which is published, or ends in a partial version. -/
theorem versionNegotiationResult : Obligations.VersionNegotiationResult := by
  intro low s dcid scid p1 p hc hlim h1 h2
  exact ⟨fun hwhole => runPktParse_of_published hc (ruleVersionNegotiation_of_list hlim h1 h2 hwhole) rfl,
    fun hpart => runPktParse_of_raise hc (ruleVersionNegotiation_of_trailer hlim h1 h2 hpart)⟩

/-- Settles O21: the rest of the window holds a tag, and the record is published, or it is too short for one. -/
theorem retryResult : Obligations.RetryResult := by
  intro fixed rsv pnl ver s dcid scid p1 p hc hlim h1 h2
  exact ⟨fun tag hfit hlen htag => runPktParse_of_published hc (ruleRetry_of_tag hlim h1 h2 hfit hlen htag) rfl,
    fun hshort => runPktParse_of_raise hc (ruleRetry_short hlim h1 h2 hshort)⟩

/-! ### The completion (R170 to R172) -/

/-- The step that delivers a response to the lane in focus. -/
theorem step_of_response {s : State} {r : CryptoResp} {rest : List Event} (hc : s.lane.issued = none)
    (hi : s.inbox = { lane := s.sel, act := .crypto r } :: rest) :
    step s = .next { s with inbox := rest, lane := cryptoResponse s.params r s.lane } :=
  step_of_own_event hc hi

section
variable {pr : Params} {l : Lane} {r : CryptoResp}

theorem cryptoResponse_of_unmatched (h : r.id ≠ l.creqId ∨ l.creqOut = 0) : cryptoResponse pr r l = l := by
  refine if_neg fun ⟨_, _, hout, hid⟩ => ?_
  rcases h with hother | hnone
  · exact hother hid
  · exact absurd (hnone.symm.trans hout) (by decide)

/-- The answer to the outstanding request, with a plaintext that fits (R170). -/
theorem cryptoResponse_of_plaintext {pt : List Byte}
    (ha : l.fault = none ∧ l.st = .busy ∧ l.creqOut = 1 ∧ r.id = l.creqId) (hpt : r.pt = some pt)
    (hfit : pt.length ≤ pr.pbufCap.val) : cryptoResponse pr r l = completeOk pt l := by
  rw [cryptoResponse, if_pos ha, hpt]
  exact if_pos hfit

/-- The answer to the outstanding request, when it fails on one of the two grounds of R171. -/
theorem cryptoResponse_of_failure {cause : ErrCause}
    (ha : l.fault = none ∧ l.st = .busy ∧ l.creqOut = 1 ∧ r.id = l.creqId)
    (hf : r.pt = none ∧ cause = .decryptFailed ∨
      ∃ pt, r.pt = some pt ∧ pr.pbufCap.val < pt.length ∧ cause = .plaintext) :
    cryptoResponse pr r l = completeError cause l := by
  rw [cryptoResponse, if_pos ha]
  obtain ⟨hpt, rfl⟩ | ⟨pt, hpt, hlong, rfl⟩ := hf
  · rw [hpt]
  · rw [hpt]
    exact if_neg (Nat.not_le.2 hlong)

theorem pendingRecord_of_pend {k : Pending} (h : l.pend = some k) : pendingRecord l = k.pkt := by
  rw [pendingRecord, h]

/-- A failed completion is the error entry of the `PKT_PARSE` at the end of the pending header (R171, R245). -/
theorem completeError_of_pend {k : Pending} (cause : ErrCause) (h : l.pend = some k) :
    completeError cause l = { l with
      creqOut := 0, creq := none, pend := none, pkt := Pkt.zero, pay := Slice.zero, pbufLen := 0, frm := Frm.zero,
      fstate := .inactive, fbuf := .none, fcur := 0, fend := 0, fres := .none, err := .raised cause k.pkt.hdrEnd .ibuf,
      st := .error } := by
  rw [completeError, pendingRecord_of_pend h, errorEntry, BitVec.ofNat_toNat, BitVec.setWidth_eq]
  rfl

end

/-- Settles O25: the response is `completeOk`, which writes the plaintext from address 0 of `PBUF` and nothing else. -/
theorem completionPublishesPlaintext : Obligations.CompletionPublishesPlaintext := by
  intro s k pt rest hcmd hfault hbusy hout hpend hfit hi
  refine ⟨Mem.writeAll s.lane.pbuf 0 pt, ?_, fun a ha => ?_, fun a ha => ?_⟩
  · rw [step_of_response (Lane.issued_none hcmd) hi,
      cryptoResponse_of_plaintext ⟨hfault, hbusy, hout, rfl⟩ rfl hfit, completeOk, pendingRecord_of_pend hpend]
    rfl
  · rw [Mem.read_writeAll, dif_pos ⟨Nat.zero_le a, ha⟩]
    exact (List.getElem?_eq_getElem ha).symm
  · rw [Mem.read_writeAll, dif_neg fun h => Nat.not_lt.2 ha h.2]

/-- Settles O26: on either ground the response is `completeError` of a lane with a pending record. -/
theorem completionFailureReported : Obligations.CompletionFailureReported := by
  intro s k r cause rest hcmd hfault hbusy hout hpend hid hf hi
  rw [step_of_response (Lane.issued_none hcmd) hi, cryptoResponse_of_failure ⟨hfault, hbusy, hout, hid⟩ hf,
    completeError_of_pend cause hpend]

/-- Settles O27: a response that answers no outstanding request leaves its lane as it is. -/
theorem unmatchedResponseDropped : Obligations.UnmatchedResponseDropped := fun _ _ _ hc h hi =>
  step_of_dropped_response hc hi (cryptoResponse_of_unmatched h)

/-! ### No partial packet (R175) -/

/-- Error entry of `PKT_PARSE` leaves no packet, no payload and nothing pending (R245). -/
theorem errorEntry_pktParse_noPacket (cause : ErrCause) (pos : Nat) (l : Lane) :
    (errorEntry .pktParse cause pos l).pkt = Pkt.zero ∧ (errorEntry .pktParse cause pos l).pay = Slice.zero ∧
    (errorEntry .pktParse cause pos l).pbufLen = 0 ∧ (errorEntry .pktParse cause pos l).pend = none :=
  ⟨rfl, rfl, rfl, rfl⟩

/-- A header that is parsed publishes or issues its request: `ST` is `DONE` or `BUSY` (R167, R174). -/
theorem finishHeader_st_ne_error (h : Header) (p0 lim : Nat) (l : Lane) : (finishHeader h p0 lim l).st ≠ .error := by
  unfold finishHeader
  split <;> exact nofun

/-- A `PKT_PARSE` step that ends with `ST` `ERROR` is an error entry. -/
theorem runPktParse_of_error {rule : Window → Nat → Parse Header} {s t : State}
    (h : runCommand .pktParse 0x05 (pktCommand rule) s = .next t) (he : t.lane.st = .error) :
    ∃ cause pos, t.lane = errorEntry .pktParse cause pos (s.lane.accept 0x05) := by
  obtain ⟨l, rfl, hok | ⟨cause, pos, -, hl⟩⟩ := runCommand_next h
  · obtain ⟨w, p0, hd, -, -, rfl⟩ := pktCommand_ok hok
    exact absurd he (finishHeader_st_ne_error _ _ _ _)
  · exact ⟨cause, pos, hl⟩

/-- A response that leaves a `BUSY` lane with `ST` `ERROR` is a failed completion. -/
theorem cryptoResponse_of_error {pr : Params} {r : CryptoResp} {l : Lane} (hb : l.st = .busy)
    (he : (cryptoResponse pr r l).st = .error) : ∃ cause, cryptoResponse pr r l = completeError cause l := by
  rcases cryptoResponse_cases pr r l with ⟨hkept, -⟩ | ⟨-, ⟨-, hfail⟩ | ⟨pt, -, -, hfail⟩ | ⟨pt, -, -, hok⟩⟩
  · rw [hkept, hb] at he
    cases he
  · exact ⟨_, hfail⟩
  · exact ⟨_, hfail⟩
  · rw [hok] at he
    cases he

/-- Settles O23: an error of `PKT_PARSE`, at the command or at its completion, is its error entry. -/
theorem noPartialPacket : Obligations.NoPartialPacket := by
  refine ⟨fun i s t hi h he => ?_, fun s t r rest hc hb hi h he => ?_⟩
  · obtain ⟨cause, pos, hl⟩ : ∃ cause pos, t.lane = errorEntry .pktParse cause pos (s.lane.accept 0x05) := by
      obtain rfl | hspace := hi
      · exact runPktParse_of_error h he
      · exact runPktParse_of_error (exec_header hspace s ▸ h) he
    rw [hl]
    exact errorEntry_pktParse_noPacket cause pos _
  · rw [step_of_response hc hi] at h
    cases h
    obtain ⟨cause, hfail⟩ := cryptoResponse_of_error hb he
    simp only [hfail]
    exact errorEntry_pktParse_noPacket cause _ _

end Sys2Proof.Machine
end

section
/-! The frame sequence (42_frames.md R193 to R195, R221), the rows without a VarInt behind the type (R197, R198, R214,
R215, R218), and the one cause of `PROTOCOL_VIOLATION` (R219, R243). -/

namespace Sys2Proof.Machine
open Sys2Proof.Proofs

/-! ### Rows without a VarInt behind the type -/

/-- Settles O32: the three rules commit at once, at the position after the type. -/
theorem frameRowsWithoutFields : Obligations.FrameRowsWithoutFields := fun _ _ _ _ _ hw ht =>
  ⟨exec_row_of_ok (i := .frmPadding) rfl hw ht rfl, exec_row_of_ok (i := .frmPing) rfl hw ht rfl,
    exec_row_of_ok (i := .frmHandshakeDone) rfl hw ht rfl⟩

/-- A frame row that is one `Fixed` behind the type: the bytes are there and are read, or too few are left (R196). -/
theorem exec_row_of_fixed {i : Instr} {s : State} {w : Window} {p p1 n : Nat} {t : VarVal} (record : List Byte → Frm)
    (hi : spaceOf i = .frame) (hw : FrameAt s w p) (ht : readVar w p = .ok (t, p1))
    (h : frameRule i s.params w p (frameStart (frameTypeOf i)) p1 =
      (readFixed w p1 n >>= fun x => .ok (plainFrame (record x.1) x.2))) :
    (∀ d : List Byte, d.length = n → w.holds p1 d → p1 + n ≤ w.lim →
      exec i s = .next (frameCommitted s (record d) [] (p1 + n))) ∧
    (w.lim < p1 + n → exec i s = .next (frameFailed s .fixedEof p1)) := by
  refine ⟨fun d hlen hholds hfit => exec_row_of_ok hi hw ht (out := plainFrame _ (p1 + n)) ?_,
    fun hshort => exec_row_of_raise hi hw ht ?_ nofun⟩
  · rw [h, readFixed_of_holds hlen hholds hfit, parse_ok_bind]
  · rw [h, readFixed_short (readVar_bounds ht).2 hshort, parse_bind_raise]

/-- Settles O41: both rows are one `Fixed` of eight bytes. -/
theorem pathFramesResult : Obligations.PathFramesResult := by
  intro s w p t p1 hw ht
  have challenge := exec_row_of_fixed (i := .frmPathChallenge)
    (fun d => { Frm.zero with kind := .pathChallenge, typ := 0x1a, pdata := d }) rfl hw ht rfl
  have response := exec_row_of_fixed (i := .frmPathResponse)
    (fun d => { Frm.zero with kind := .pathResponse, typ := 0x1b, pdata := d }) rfl hw ht rfl
  exact ⟨fun d hlen hholds hfit => ⟨challenge.1 d hlen hholds hfit, response.1 d hlen hholds hfit⟩,
    fun hshort => ⟨challenge.2 hshort, response.2 hshort⟩⟩

/-- Settles O42: the decoder's last row, whose rule raises at the offset of the type. -/
theorem unknownFrameTypeResult : Obligations.UnknownFrameTypeResult :=
  ⟨fun _ => decodeFrameType_unknown,
    fun typ _ _ _ _ _ hw ht => exec_row_of_raise (i := .frmUnknown typ) rfl hw ht rfl nofun⟩

/-! ### The beginning of a sequence -/

/-- Settles O29: the sequence starts at the host window that the precheck answers. -/
theorem fseqBeginResult : Obligations.FseqBeginResult := by
  refine fun s => ⟨fun hc => runCommand_of_ok ?_, fun hc => runCommand_of_badCursor rfl hc⟩
  rw [ruleFseqBegin, ibufWindow_of_cursor hc, parse_ok_bind]
  rfl

/-! ### The position of a sequence -/

/-- A command that answers a next state, and whose rule is a parse and then a commit, has its parse answer or raise. -/
theorem parse_of_runCommand {α : Type} {c : Cmd} {op : Byte} {rule : Params → Lane → Parse Lane} {s t : State}
    {parse : Parse α} {commit : α → Lane}
    (hrule : rule s.params (s.lane.accept op) = (parse >>= fun out => .ok (commit out)))
    (h : runCommand c op rule s = .next t) : (∃ out, parse = .ok out) ∨ ∃ e q, parse = raise e q := by
  obtain ⟨l, -, hok | ⟨e, q, he, -⟩⟩ := runCommand_next h
  · obtain ⟨out, hout, -⟩ := parse_bind_ok.1 (hrule.symm.trans hok)
    exact .inl ⟨out, hout⟩
  · obtain hraise | ⟨_, -, hcommit⟩ := parse_bind_error.1 (hrule.symm.trans he)
    · exact .inr ⟨e, q, hraise⟩
    · cases hcommit

/-- What an `FSEQ_NEXT` does to the sequence of a lane: the position stays, and the sequence is not active, or a frame
moves the position forward inside the window (R194, R195). -/
inductive SequenceMove (l l' : Lane) : Prop where
  | still (position : l'.fcur = l.fcur) (noFrame : l'.fres ≠ .frame) (notActive : l'.fstate ≠ .active)
      (asFinished : l.fstate ≠ .active → l'.fstate = l.fstate)
  | frame (active : l.fstate = .active) (found : l'.fres = .frame) (forward : l.fcur.toNat < l'.fcur.toNat)
      (inside : l'.fcur.toNat ≤ l.fend.toNat)

/-- All that `FSEQ_NEXT` can do to the sequence: its window stays. -/
theorem exec_fseqNext_move {s t : State} (h : exec .fseqNext s = .next t) :
    t.lane.fend = s.lane.fend ∧ t.lane.fbuf = s.lane.fbuf ∧ SequenceMove s.lane t.lane := by
  obtain ⟨inactive, finished, exhausted, frame, failed, -⟩ := fseqNextResult s
  cases hstate : s.lane.fstate
  case inactive =>
    cases (inactive hstate).symm.trans h
    exact ⟨rfl, rfl, .still rfl nofun (by simp [hstate]) fun _ => rfl⟩
  case ended =>
    cases (finished (.inl hstate)).symm.trans h
    exact ⟨rfl, rfl, .still rfl nofun (by simp [hstate]) fun _ => rfl⟩
  case failed =>
    cases (finished (.inr hstate)).symm.trans h
    exact ⟨rfl, rfl, .still rfl nofun (by simp [hstate]) fun _ => rfl⟩
  case active =>
    by_cases hend : s.lane.fcur = s.lane.fend
    · cases (exhausted hstate hend).symm.trans h
      exact ⟨rfl, rfl, .still rfl nofun nofun fun hne => absurd hstate hne⟩
    · obtain ⟨out, hout⟩ | ⟨cause, pos, hraise⟩ := parse_of_runCommand (ruleFseqNext_of_frame hstate hend 0x08) h
      · cases (frame out hstate hend hout).symm.trans h
        obtain ⟨fits, forward⟩ := parseFrame_ok hout
        have inside : out.pos ≤ s.lane.fend.toNat := fits.inside
        have stored : (BitVec.ofNat 32 out.pos).toNat = out.pos :=
          Nat.mod_eq_of_lt (Nat.lt_of_le_of_lt inside s.lane.fend.isLt)
        exact ⟨rfl, rfl, .frame hstate rfl (stored.symm ▸ forward) (stored.symm ▸ inside)⟩
      · cases (failed cause pos hstate hend hraise).symm.trans h
        exact ⟨rfl, rfl, .still rfl nofun nofun fun hne => absurd hstate hne⟩

/-- The second lane has the frame sequence of the first (R37). -/
def SameSequence (l l' : Lane) : Prop :=
  l'.fstate = l.fstate ∧ l'.fbuf = l.fbuf ∧ l'.fcur = l.fcur ∧ l'.fend = l.fend

/-- Error entry leaves the sequence alone, except of the three commands that work on it (R245). -/
theorem errorEntry_sameSequence {c : Cmd} (hc : c ∉ [Cmd.pktParse, .fseqBegin, .fseqNext]) (e : ErrCause) (p : Nat)
    (l : Lane) : SameSequence l (errorEntry c e p l) := by
  cases c
  case pktParse => exact absurd hc (by decide)
  case fseqBegin => exact absurd hc (by decide)
  case fseqNext => exact absurd hc (by decide)
  all_goals exact ⟨rfl, rfl, rfl, rfl⟩

/-- A command other than those three leaves the sequence alone when its commit does. -/
theorem runCommand_sameSequence {c : Cmd} {op : Byte} {rule : Params → Lane → Parse Lane} {s t : State}
    (hc : c ∉ [Cmd.pktParse, .fseqBegin, .fseqNext]) (hrule : ∀ pr l l', rule pr l = .ok l' → SameSequence l l')
    (h : runCommand c op rule s = .next t) : SameSequence s.lane t.lane := by
  obtain ⟨l, rfl, hok | ⟨e, p, -, rfl⟩⟩ := runCommand_next h
  · exact hrule _ (s.lane.accept op) l hok
  · exact errorEntry_sameSequence hc e p (s.lane.accept op)

section
variable {pr : Params} {l l' : Lane}

theorem ruleVarintDec_sameSequence (h : ruleVarintDec pr l = .ok l') : SameSequence l l' := by
  simp only [ruleVarintDec, parse_bind_ok, Prod.exists, Except.ok.injEq] at h
  obtain ⟨_, _, -, _, _, -, rfl⟩ := h
  exact ⟨rfl, rfl, rfl, rfl⟩

theorem ruleVarintEnc_sameSequence (h : ruleVarintEnc pr l = .ok l') : SameSequence l l' := by
  simp only [ruleVarintEnc, parse_bind_ok, Except.ok.injEq] at h
  obtain ⟨_, -, rfl⟩ := h
  exact ⟨rfl, rfl, rfl, rfl⟩

theorem ruleCidDec_sameSequence (h : ruleCidDec pr l = .ok l') : SameSequence l l' := by
  simp only [ruleCidDec, parse_bind_ok, Prod.exists, Except.ok.injEq] at h
  obtain ⟨_, _, -, _, _, -, rfl⟩ := h
  exact ⟨rfl, rfl, rfl, rfl⟩

theorem rulePnDec_sameSequence (h : rulePnDec pr l = .ok l') : SameSequence l l' := by
  simp only [rulePnDec, parse_bind_ok, Prod.exists] at h
  obtain ⟨_, _, -, h⟩ := h
  split at h
  · exact absurd h (raise_ne_ok _ _ _)
  · simp only [parse_bind_ok, Prod.exists, Except.ok.injEq] at h
    obtain ⟨_, _, -, rfl⟩ := h
    exact ⟨rfl, rfl, rfl, rfl⟩

theorem frameCommand_one_sameSequence {parse : Params → Window → Nat → Parse FrameOut}
    (h : frameCommand .one parse pr l = .ok l') : SameSequence l l' := by
  obtain ⟨_, _, _, -, -, rfl⟩ := frameCommand_ok h
  exact ⟨rfl, rfl, rfl, rfl⟩

end

/-- The six rows of reserved opcodes are those of the table's patterns from 0x0A up (R110). -/
theorem isReserved_of_rowOf {i : Instr}
    (h : rowOf i ∈ [⟨.command, 0xFE, 0x0A⟩, ⟨.command, 0xFC, 0x0C⟩, ⟨.command, 0xF0, 0x10⟩, ⟨.command, 0xE0, 0x20⟩,
      ⟨.command, 0xC0, 0x40⟩, ⟨.command, 0x80, 0x80⟩]) : isReserved i = true := by
  cases i
  case reserved0A => rfl
  case reserved0C => rfl
  case reserved10 => rfl
  case reserved20 => rfl
  case reserved40 => rfl
  case reserved80 => rfl
  all_goals simp [rowOf] at h

theorem exec_reserved_sameSequence {i : Instr} {s t : State} (hi : isReserved i = true) (h : exec i s = .next t) :
    SameSequence s.lane t.lane := by
  cases (exec_reserved hi s).symm.trans h
  exact ⟨rfl, rfl, rfl, rfl⟩

/-- Settles O43: `FSEQ_NEXT` by `exec_fseqNext_move`; the other commands' commits and error entries keep the sequence. -/
theorem sequenceOnlyMovesForward : Obligations.SequenceOnlyMovesForward := by
  refine ⟨fun s t h => ?_, fun i s t hi h => ?_⟩
  · obtain ⟨fend, fbuf, ⟨position, noFrame, -, asFinished⟩ | ⟨active, found, forward, inside⟩⟩ := exec_fseqNext_move h
    · exact ⟨fend, fbuf, fun hframe => absurd hframe noFrame, fun _ => position, asFinished⟩
    · exact ⟨fend, fbuf, fun _ => ⟨forward, inside⟩, fun hne => absurd found hne, fun hne => absurd active hne⟩
  · obtain hi | hi := hi
    · simp only [List.mem_cons, List.not_mem_nil, or_false] at hi
      obtain rfl | rfl | rfl | rfl | rfl | rfl := hi
      · cases h
        exact ⟨rfl, rfl, rfl, rfl⟩
      · exact runCommand_sameSequence (by decide) (fun _ _ _ => ruleVarintDec_sameSequence) h
      · exact runCommand_sameSequence (by decide) (fun _ _ _ => ruleVarintEnc_sameSequence) h
      · exact runCommand_sameSequence (by decide) (fun _ _ _ => ruleCidDec_sameSequence) h
      · exact runCommand_sameSequence (by decide) (fun _ _ _ => rulePnDec_sameSequence) h
      · exact runCommand_sameSequence (by decide) (fun _ _ _ => frameCommand_one_sameSequence) h
    · exact exec_reserved_sameSequence (isReserved_of_rowOf hi) h

/-! ### The end of a sequence -/

/-- The first of several `FSEQ_NEXT` answers a next state, and the others go on from there. -/
theorem fseqNextTimes_succ {n : Nat} {s t : State} (h : fseqNextTimes (n + 1) s = .next t) :
    ∃ u, exec .fseqNext s = .next u ∧ fseqNextTimes n u = .next t := by
  rw [fseqNextTimes] at h
  split at h
  case h_1 u hu => exact ⟨u, hu, h⟩
  all_goals cases h

/-- A sequence that is not active stays so under `FSEQ_NEXT` (R195, R221). -/
theorem fseqNextTimes_of_not_active {n : Nat} {s t : State} (hs : s.lane.fstate ≠ .active)
    (h : fseqNextTimes n s = .next t) : t.lane.fstate ≠ .active := by
  induction n generalizing s with
  | zero => cases h; exact hs
  | succ n ih =>
    obtain ⟨u, hu, hrest⟩ := fseqNextTimes_succ h
    obtain ⟨-, -, ⟨-, -, notActive, -⟩ | ⟨active, -, -, -⟩⟩ := exec_fseqNext_move hu
    · exact ih notActive hrest
    · exact absurd active hs

/-- Settles O44: each `FSEQ_NEXT` ends the sequence or leaves fewer bytes of its window. -/
theorem sequenceIsFinite : Obligations.SequenceIsFinite := by
  intro n
  induction n with
  | zero => exact fun s t _ hleft => absurd hleft (Nat.not_lt_zero _)
  | succ n ih =>
    intro s t _ hleft h
    obtain ⟨u, hu, hrest⟩ := fseqNextTimes_succ h
    obtain ⟨fend, -, ⟨-, -, notActive, -⟩ | ⟨-, -, forward, inside⟩⟩ := exec_fseqNext_move hu
    · exact fseqNextTimes_of_not_active notActive hrest
    · exact ih u t (fend ▸ inside) (by rw [fend]; omega) hrest

/-! ### The cause of `PROTOCOL_VIOLATION` -/

section
variable {pr : Params} {l : Lane} {q : Nat}

/-- The precheck raises `BAD_CURSOR` and nothing else; any other cause is raised behind it, on the host window (R250). -/
theorem ibufWindow_bind_raise {k : Window × Nat → Parse Lane} {c : ErrCause}
    (h : (ibufWindow pr l >>= k) = .error (.raised c q)) (hc : c ≠ .badCursor) :
    ∃ w p, ibufWindow pr l = .ok (w, p) ∧ k (w, p) = .error (.raised c q) := by
  obtain hraise | ⟨⟨w, p⟩, hw, hk⟩ := parse_bind_error.1 h
  · unfold ibufWindow at hraise
    split at hraise
    · cases hraise
      exact absurd rfl hc
    · cases hraise
  · exact ⟨w, p, hw, hk⟩

theorem ruleVarintDec_ne_unknownType : ruleVarintDec pr l ≠ .error (.raised .unknownFrameType q) := by
  intro h
  obtain ⟨w, p, -, h⟩ := ibufWindow_bind_raise h nofun
  simp only [parse_bind_error, reduceCtorEq, and_false, exists_false, or_false] at h
  exact absurd (decodeVarInt_raise h).1 nofun

theorem ruleCidDec_ne_unknownType : ruleCidDec pr l ≠ .error (.raised .unknownFrameType q) := by
  intro h
  obtain ⟨w, p, -, h⟩ := ibufWindow_bind_raise h nofun
  simp only [parse_bind_error, reduceCtorEq, and_false, exists_false, or_false] at h
  simpa using (decodeCid_raise h).1

theorem rulePnDec_ne_unknownType : rulePnDec pr l ≠ .error (.raised .unknownFrameType q) := by
  intro h
  obtain ⟨w, p, -, h⟩ := ibufWindow_bind_raise h nofun
  dsimp only at h
  split at h
  · cases h
  · simp only [parse_bind_error, reduceCtorEq, and_false, exists_false, or_false] at h
    exact absurd (decodePn_raise h).1 nofun

/-- `EncodeVarInt` raises `BAD_ARG` and nothing else (R126). -/
theorem encodeVarInt_raise {v r : Nat} {c : ErrCause} (h : encodeVarInt v r = .error (.raised c q)) :
    c = .badArg := by
  unfold encodeVarInt at h
  split_ifs at h <;> cases h <;> rfl

theorem ruleVarintEnc_ne_unknownType : ruleVarintEnc pr l ≠ .error (.raised .unknownFrameType q) := by
  intro h
  simp only [ruleVarintEnc, parse_bind_error, reduceCtorEq, and_false, exists_false, or_false] at h
  exact absurd (encodeVarInt_raise h) nofun

theorem ruleFseqBegin_ne_unknownType : ruleFseqBegin pr l ≠ .error (.raised .unknownFrameType q) := by
  intro h
  obtain ⟨w, p, -, h⟩ := ibufWindow_bind_raise h nofun
  cases h

/-- A header raises its own causes only (R152 to R165). -/
theorem pktCommand_ne_unknownType {rule : Window → Nat → Parse Header}
    (hrule : ∀ w p c r, rule w p = .error (.raised c r) → c ∈ headerCauses) :
    pktCommand rule pr l ≠ .error (.raised .unknownFrameType q) := by
  intro h
  obtain ⟨w, p, -, h⟩ := ibufWindow_bind_raise h nofun
  simp only [parse_bind_error, reduceCtorEq, and_false, exists_false, or_false] at h
  exact absurd (hrule _ _ _ _ h) (by decide)

end

/-- Only `FRM_ONE`, `FSEQ_NEXT` and the row of an unknown type raise `UNKNOWN_FRAME_TYPE` (R219, R243). -/
theorem CommandOf.of_unknownType {s : State} {i : Instr} {c : Cmd} {op : Byte} {rule : Params → Lane → Parse Lane}
    (hc : CommandOf s i c op rule) {q : Nat}
    (h : rule s.params (s.lane.accept op) = .error (.raised .unknownFrameType q)) :
    (i = .frmOne ∧ c = .frmOne ∧ rule = frameCommand .one parseFrame) ∨
    (i = .fseqNext ∧ c = .fseqNext ∧ rule = ruleFseqNext) ∨ ∃ typ, i = .frmUnknown typ := by
  cases hc
  case varintDec => exact absurd h ruleVarintDec_ne_unknownType
  case varintEnc => exact absurd h ruleVarintEnc_ne_unknownType
  case cidDec => exact absurd h ruleCidDec_ne_unknownType
  case pnDec => exact absurd h rulePnDec_ne_unknownType
  case pktParse => exact absurd h (pktCommand_ne_unknownType fun _ _ _ _ => parseHeader_raise)
  case header => exact absurd h (pktCommand_ne_unknownType fun _ _ _ _ => headerRule_raise)
  case fseqBegin => exact absurd h ruleFseqBegin_ne_unknownType
  case reserved => cases h
  case frmOne => exact .inl ⟨rfl, rfl, rfl⟩
  case fseqNext => exact .inr (.inl ⟨rfl, rfl, rfl⟩)
  case row hi =>
    obtain ⟨-, hbad⟩ | ⟨w, p, hparse⟩ := frameCommand_raise h
    · cases hbad
    · obtain hfield | ⟨-, -, hrow⟩ := parseRow_raise hparse
      · exact absurd hfield (by decide)
      · exact .inr (.inr (hrow hi))

/-- The type above 0x1e at which `ParseFrame` raises `UNKNOWN_FRAME_TYPE` (R219). -/
theorem parseFrame_unknownType {pr : Params} {w : Window} {p q : Nat}
    (h : parseFrame pr w p = .error (.raised .unknownFrameType q)) :
    q = p ∧ ∃ typ p1, readVar w p = .ok (typ, p1) ∧ 0x1e < typ.toNat := by
  obtain hfield | ⟨-, hq, htype⟩ := parseFrame_raise h
  · exact absurd hfield (by decide)
  · exact ⟨hq, htype⟩

section
variable {s : State} {op : Byte} {q : Nat}

theorem frmOne_unknownType
    (h : frameCommand .one parseFrame s.params (s.lane.accept op) = .error (.raised .unknownFrameType q)) :
    CursorOk s ∧ parseFrame s.params (hostWindow s) (low32 s.lane.cur) = .error (.raised .unknownFrameType q) := by
  obtain ⟨w, p, hw, h⟩ := ibufWindow_bind_raise h nofun
  obtain ⟨hcap, hcur, rfl, rfl⟩ := ibufWindow_ok hw
  simp only [parse_bind_error, reduceCtorEq, and_false, exists_false, or_false] at h
  exact ⟨⟨hcap, hcur⟩, h⟩

theorem fseqNext_unknownType
    (h : ruleFseqNext s.params (s.lane.accept op) = .error (.raised .unknownFrameType q)) :
    s.lane.fstate = .active ∧
      parseFrame s.params (sequenceWindow s) s.lane.fcur.toNat = .error (.raised .unknownFrameType q) := by
  cases hstate : s.lane.fstate
  case inactive => cases (ruleFseqNext_of_inactive (l := s.lane.accept op) hstate).symm.trans h
  case ended => cases (ruleFseqNext_of_finished (l := s.lane.accept op) (.inl hstate)).symm.trans h
  case failed => cases (ruleFseqNext_of_finished (l := s.lane.accept op) (.inr hstate)).symm.trans h
  case active =>
    by_cases hend : s.lane.fcur = s.lane.fend
    · cases (ruleFseqNext_of_exhausted (l := s.lane.accept op) hstate hend).symm.trans h
    · rw [ruleFseqNext_of_frame hstate hend] at h
      obtain hparse | ⟨_, -, hcommit⟩ := parse_bind_error.1 h
      · exact ⟨rfl, hparse⟩
      · cases hcommit

end

/-- A commit clears `ERR` (R120). -/
theorem Committed.err_clear {pr : Params} {l l' : Lane} (h : Committed pr l l') : l'.err = .clear := by
  cases h with
  | header hd w p0 _ _ => unfold finishHeader; split <;> rfl
  | frame d w p out _ _ _ => cases d <;> rfl
  | _ => rfl

/-- An `ERR` that is set after an instruction was set by an error entry of its command, or stood before `NOP`. -/
theorem exec_err {i : Instr} {s t : State} {e : ErrCause} {pos : Off} {buf : BufSel} (h : exec i s = .next t)
    (herr : t.lane.err = .raised e pos buf) :
    (i = .nop ∧ s.lane.err = t.lane.err) ∨
    ∃ c op rule q, CommandOf s i c op rule ∧ rule s.params (s.lane.accept op) = .error (.raised e q) ∧
      pos = BitVec.ofNat 32 q ∧ buf = posBufOf c e (s.lane.accept op) := by
  obtain ⟨rfl, hx⟩ | ⟨rfl, hx⟩ | ⟨c, op, rule, hc, hx⟩ := exec_cases i s
  · cases hx.symm.trans h
    exact .inl ⟨rfl, rfl⟩
  · cases hx.symm.trans h
    cases herr
  · obtain ⟨l, rfl, hok | ⟨e', q, hraise, rfl⟩⟩ := runCommand_next (hx.symm.trans h)
    · cases (hc.committed hok).err_clear.symm.trans herr
    · cases herr
      exact .inr ⟨c, op, rule, q, hc, hraise, rfl, rfl⟩

/-- Settles O24: the error entry is that of one of three rows (`CommandOf.of_unknownType`), and the two commands among
them raise it in `ParseFrame`, at the type. -/
theorem protocolViolationOnlyFromUnknownType : Obligations.ProtocolViolationOnlyFromUnknownType := by
  intro i s t pos buf h herr
  obtain hnop | ⟨c, op, rule, q, hc, hraise, rfl, rfl⟩ := exec_err h herr
  · exact .inr (.inr (.inr hnop))
  obtain ⟨rfl, rfl, rfl⟩ | ⟨rfl, rfl, rfl⟩ | hunknown := hc.of_unknownType hraise
  · obtain ⟨hcursor, hparse⟩ := frmOne_unknownType hraise
    obtain ⟨rfl, htype⟩ := parseFrame_unknownType hparse
    exact .inl ⟨rfl, hcursor, rfl, rfl, htype⟩
  · obtain ⟨hactive, hparse⟩ := fseqNext_unknownType hraise
    obtain ⟨rfl, htype⟩ := parseFrame_unknownType hparse
    exact .inr (.inl ⟨rfl, hactive, by rw [BitVec.ofNat_toNat, BitVec.setWidth_eq], rfl, htype⟩)
  · exact .inr (.inr (.inl hunknown))

end Sys2Proof.Machine
end

section
/-! Error entry (60_exceptions.md R245): an instruction that ends with `ST` `ERROR` is an error entry, or a `NOP` under a
standing error, and neither touches the cursor, the inputs, the buffers or `ACKR`. -/

namespace Sys2Proof.Machine

/-- A commit sets `ST` to `DONE`, or to `BUSY` while a Crypto request is outstanding (R120, R167). -/
theorem Committed.st_ne_error {pr : Params} {l l' : Lane} (h : Committed pr l l') : l'.st ≠ .error := by
  cases h with
  | header hd w p0 _ _ => exact finishHeader_st_ne_error hd p0 w.lim l
  | frame d w p out _ _ _ => cases d <;> exact nofun
  | _ => exact nofun

/-- All that an instruction which ends with `ST` `ERROR` can make of its lane: `NOP` keeps it, every other instruction
runs error entry (R121, R245). -/
theorem exec_error {i : Instr} {s t : State} (h : exec i s = .next t) (hst : t.lane.st = .error) :
    t.lane = s.lane.accept 0x00 ∨ ∃ c op e p, t.lane = errorEntry c e p (s.lane.accept op) := by
  obtain hnop | hclear | ⟨c, op, rule, -, hcommit | ⟨e, p, -, herr⟩⟩ := exec_next h
  · exact .inl hnop
  · rw [hclear] at hst
    cases hst
  · exact absurd hst hcommit.st_ne_error
  · exact .inr ⟨c, op, e, p, herr⟩

/-- Settles O15: by `exec_error` the lane is the accepted one or its error entry, and `errorEntry_cur` and its like say
what that leaves alone. -/
theorem errorKeepsInputs : Obligations.ErrorKeepsInputs := by
  intro i s t h hst
  obtain hnop | ⟨c, op, e, p, herr⟩ := exec_error h hst
  · rw [hnop]
    exact ⟨rfl, rfl, rfl, rfl, rfl, rfl, rfl, rfl, rfl⟩
  · rw [herr]
    simp

end Sys2Proof.Machine
end
